-- ==== Sys2Proof/Word.lean ====
section
/-! DEFINITION. The word types of MOCE (00_scope.md R15, R17): bytes, byte sequences, bus words and byte strobes. -/

namespace Sys2Proof

/-- A byte, 00_scope.md R15. -/
abbrev Byte := BitVec 8

/-- A byte sequence, 00_scope.md R15; element `j` is `X[j]`. -/
abbrev Bytes := List Byte

/-- A word of the bus or of a register, 00_scope.md R17. -/
abbrev Word := BitVec 32

/-- A 4-bit byte strobe, 20_memory.md R71; bit `j` qualifies lane `j`. -/
abbrev Strobe := BitVec 4

end Sys2Proof
end

