-- ==== Sys2Proof/Syntax.lean ====
section
/-! DEFINITION. The commands of MOCE (30_encoding.md): one constructor for each row of spec/opcode_table.json, and the raw
fields of a command word. -/

namespace Sys2Proof

/-- The padding schemes, 30_encoding.md R104. -/
inductive Padding where
  /-- None (PAD = 0). -/
  | none
  /-- Bit-padding, ISO/IEC 9797-1 method 2 (PAD = 1). -/
  | bit
  /-- PKCS#7 (PAD = 2). -/
  | pkcs7
  /-- ANSI X.923 (PAD = 3). -/
  | x923
  /-- ISO 7816-4 (PAD = 4). -/
  | iso7816
  deriving DecidableEq, Repr

/-- The modes of operation, 30_encoding.md R103. -/
inductive Mode where
  | ecb | cbc | pcbc | cfb | ofb | ctr
  deriving DecidableEq, Repr

/-- The fourteen commands, 30_encoding.md R108, each with its PAD field. A stream-like command keeps the PAD field it was
written with, which has no effect (R106). -/
inductive Instr where
  /-- `ENC.ECB p`, 41_block_modes.md R161. -/
  | encEcb (p : Padding)
  /-- `ENC.CBC p`, 41_block_modes.md R163. -/
  | encCbc (p : Padding)
  /-- `ENC.PCBC p`, 41_block_modes.md R165. -/
  | encPcbc (p : Padding)
  /-- `ENC.CFB p`, 42_stream_modes.md R191. -/
  | encCfb (p : Padding)
  /-- `ENC.OFB p`, 42_stream_modes.md R193. -/
  | encOfb (p : Padding)
  /-- `ENC.CTR p`, 42_stream_modes.md R195. -/
  | encCtr (p : Padding)
  /-- `DEC.ECB p`, 41_block_modes.md R162. -/
  | decEcb (p : Padding)
  /-- `DEC.CBC p`, 41_block_modes.md R164. -/
  | decCbc (p : Padding)
  /-- `DEC.PCBC p`, 41_block_modes.md R166. -/
  | decPcbc (p : Padding)
  /-- `DEC.CFB p`, 42_stream_modes.md R192. -/
  | decCfb (p : Padding)
  /-- `DEC.OFB p`, 42_stream_modes.md R194. -/
  | decOfb (p : Padding)
  /-- `DEC.CTR p`, 42_stream_modes.md R196. -/
  | decCtr (p : Padding)
  /-- `PAD p`, 40_padding.md R134. -/
  | pad (p : Padding)
  /-- `UNPAD p`, 40_padding.md R135. -/
  | unpad (p : Padding)
  deriving DecidableEq, Repr

/-- The fields of a command word, 30_encoding.md R101. -/
structure Fields where
  /-- Bits [3:0]. -/
  op : BitVec 4
  /-- Bits [7:4], reserved. -/
  rsv0 : BitVec 4
  /-- Bits [10:8]. -/
  mode : BitVec 3
  /-- Bit [11], reserved. -/
  rsv1 : BitVec 1
  /-- Bits [14:12]. -/
  pad : BitVec 3
  /-- Bits [31:15], reserved. -/
  rsv2 : BitVec 17
  deriving DecidableEq, Repr

end Sys2Proof
end

