-- ==== Sys2Proof/WellFormed.lean ====
section
/-! DEFINITION. When the fields of a command word spell a command, check by check, from the field tables of
30_encoding.md R101 to R104 and R107. Every `Instr` is well formed by its type, so the checks are on the raw fields; the decoder
of Decode.lean is written apart from them, from R109. -/

namespace Sys2Proof
namespace Fields

/-- RSV0, RSV1 and RSV2 "must be 0", 30_encoding.md R101. -/
def reservedZero (f : Fields) : Bool := f.rsv0 == 0#4 && f.rsv1 == 0#1 && f.rsv2 == 0#17

/-- OP is ENC, DEC, PAD or UNPAD, 30_encoding.md R102. -/
def opDefined (f : Fields) : Bool := f.op == 1#4 || f.op == 2#4 || f.op == 3#4 || f.op == 4#4

/-- PAD is a defined scheme, 30_encoding.md R104. -/
def padDefined (f : Fields) : Bool := decide (f.pad.toNat ≤ 4)

/-- MODE is a defined mode for ENC and DEC, 30_encoding.md R103. -/
def modeDefined (f : Fields) : Bool := !(f.op == 1#4 || f.op == 2#4) || decide (f.mode.toNat ≤ 5)

/-- MODE is 0 for PAD and UNPAD, 30_encoding.md R107. -/
def modeAbsent (f : Fields) : Bool := !(f.op == 3#4 || f.op == 4#4) || f.mode == 0#3

/-- The fields spell a command. -/
def wellFormed (f : Fields) : Bool :=
  f.reservedZero && f.opDefined && f.padDefined && f.modeDefined && f.modeAbsent

end Fields
end Sys2Proof
end

