-- ==== Sys2Proof/Decode.lean ====
section
/-! DEFINITION. The decoder of command words (30_encoding.md R109), total and rejecting by name, the encoder (R101 to R104,
R108), and the opcode map as a table (R108). -/

namespace Sys2Proof

/-- Why a word is illegal: the five items of 30_encoding.md R109. -/
inductive Illegal where
  /-- Item 1: a reserved bit is 1. -/
  | reservedBit
  /-- Item 2: OP is 0x0 or in 0x5 to 0xF. -/
  | reservedOp
  /-- Item 4: PAD is 5, 6 or 7. -/
  | reservedPad
  /-- Item 3: OP is ENC or DEC and MODE is 6 or 7. -/
  | reservedMode
  /-- Item 5: OP is PAD or UNPAD and MODE is not 0. -/
  | modeWithPadding
  deriving DecidableEq, Repr

/-- The fields of a word, 30_encoding.md R101. -/
def Fields.split (w : Word) : Fields where
  op := w.extractLsb' 0 4
  rsv0 := w.extractLsb' 4 4
  mode := w.extractLsb' 8 3
  rsv1 := w.extractLsb' 11 1
  pad := w.extractLsb' 12 3
  rsv2 := w.extractLsb' 15 17

/-- The word with the given fields, 30_encoding.md R101. -/
def Fields.join (f : Fields) : Word := f.rsv2 ++ f.pad ++ f.rsv1 ++ f.mode ++ f.rsv0 ++ f.op

/-- The scheme a PAD value names, 30_encoding.md R104. -/
def Padding.ofField (v : BitVec 3) : Option Padding :=
  match v.toNat with
  | 0 => some .none
  | 1 => some .bit
  | 2 => some .pkcs7
  | 3 => some .x923
  | 4 => some .iso7816
  | _ => Option.none

/-- The PAD value of a scheme, 30_encoding.md R104. -/
def Padding.field : Padding → BitVec 3
  | .none => 0
  | .bit => 1
  | .pkcs7 => 2
  | .x923 => 3
  | .iso7816 => 4

/-- The mode a MODE value names, 30_encoding.md R103. -/
def Mode.ofField (v : BitVec 3) : Option Mode :=
  match v.toNat with
  | 0 => some .ecb
  | 1 => some .cbc
  | 2 => some .pcbc
  | 3 => some .cfb
  | 4 => some .ofb
  | 5 => some .ctr
  | _ => none

/-- The ENC command of a mode. -/
def Instr.enc (m : Mode) (p : Padding) : Instr :=
  match m with
  | .ecb => .encEcb p
  | .cbc => .encCbc p
  | .pcbc => .encPcbc p
  | .cfb => .encCfb p
  | .ofb => .encOfb p
  | .ctr => .encCtr p

/-- The DEC command of a mode. -/
def Instr.dec (m : Mode) (p : Padding) : Instr :=
  match m with
  | .ecb => .decEcb p
  | .cbc => .decCbc p
  | .pcbc => .decPcbc p
  | .cfb => .decCfb p
  | .ofb => .decOfb p
  | .ctr => .decCtr p

/-- `decode(w)` of 30_encoding.md R109, in the order of its pseudocode, with the item that makes a word illegal. -/
def decode (w : Word) : Except Illegal Instr :=
  let f := Fields.split w
  if w &&& 0xFFFF88F0#32 ≠ 0#32 then .error .reservedBit
  else if f.op.toNat < 1 ∨ 4 < f.op.toNat then .error .reservedOp
  else
    match Padding.ofField f.pad with
    | Option.none => .error .reservedPad
    | some p =>
      if f.op = 1#4 ∨ f.op = 2#4 then
        match Mode.ofField f.mode with
        | none => .error .reservedMode
        | some m => .ok (if f.op = 1#4 then Instr.enc m p else Instr.dec m p)
      else if f.mode ≠ 0#3 then .error .modeWithPadding
      else .ok (if f.op = 3#4 then .pad p else .unpad p)

/-- The fields of a command, 30_encoding.md R101 to R104. -/
def Instr.fields (i : Instr) : Fields :=
  let word (op : BitVec 4) (mode : BitVec 3) (p : Padding) : Fields :=
    { op := op, rsv0 := 0, mode := mode, rsv1 := 0, pad := p.field, rsv2 := 0 }
  match i with
  | .encEcb p => word 1 0 p
  | .encCbc p => word 1 1 p
  | .encPcbc p => word 1 2 p
  | .encCfb p => word 1 3 p
  | .encOfb p => word 1 4 p
  | .encCtr p => word 1 5 p
  | .decEcb p => word 2 0 p
  | .decCbc p => word 2 1 p
  | .decPcbc p => word 2 2 p
  | .decCfb p => word 2 3 p
  | .decOfb p => word 2 4 p
  | .decCtr p => word 2 5 p
  | .pad p => word 3 0 p
  | .unpad p => word 4 0 p

/-- The command word of a command, `match | (p << 12)` of 30_encoding.md R108. -/
def encode (i : Instr) : Word := i.fields.join

/-- The opcode map of 30_encoding.md R108: the `match` word of each row beside its command. -/
def opcodeRows : List (Word × (Padding → Instr)) :=
  [(0x00000001#32, .encEcb), (0x00000101#32, .encCbc), (0x00000201#32, .encPcbc), (0x00000301#32, .encCfb),
   (0x00000401#32, .encOfb), (0x00000501#32, .encCtr)] ++
  [(0x00000002#32, .decEcb), (0x00000102#32, .decCbc), (0x00000202#32, .decPcbc), (0x00000302#32, .decCfb),
   (0x00000402#32, .decOfb), (0x00000502#32, .decCtr)] ++
  [(0x00000003#32, .pad), (0x00000004#32, .unpad)]

/-- A word from four bytes, the first in lane 0, 20_memory.md R72. -/
def wordOfLanes (b0 b1 b2 b3 : Byte) : Word := b3 ++ b2 ++ b1 ++ b0

/-- The decoder on bytes: one command word, little-endian (20_memory.md R72), and the bytes after it. Fewer than four
bytes hold no command word. -/
def decodeBytes : Bytes → Option (Except Illegal Instr × Bytes)
  | b0 :: b1 :: b2 :: b3 :: rest => some (decode (wordOfLanes b0 b1 b2 b3), rest)
  | _ => none

/-- The command word of a table row's bits: the bits above `nbits` are 0 (every command is one 32-bit word, 30_encoding.md R100). -/
def tableWord (nbits w : Nat) : Word := BitVec.ofNat 32 (w % 2 ^ nbits)

/-- The command that the decoder reads from a command word whose bits, numbered as the opcode table numbers them, are `w`.
The word is laid out in its four lanes and given to the decoder on bytes. -/
def decodeTableWord (nbits w : Nat) : Option Instr :=
  let t := tableWord nbits w
  match decodeBytes [t.extractLsb' 0 8, t.extractLsb' 8 8, t.extractLsb' 16 8, t.extractLsb' 24 8] with
  | some (.ok i, _) => some i
  | _ => none

end Sys2Proof
end

