-- ==== Sys2Proof/Machine/Bytes.lean ====
section
/-! DEFINITION. Operations on byte sequences, blocks and big-endian integers (00_scope.md R15, R16, R18), and the byte lanes of
a bus word (20_memory.md R72, R74, R75). -/

namespace Sys2Proof.Machine

/-- `A xor B`, 00_scope.md R15; every use has sequences of one length. -/
def xorBytes (a b : Bytes) : Bytes := List.zipWith (fun x y => x ^^^ y) a b

/-- `X xor take(|X|, K)`, 42_stream_modes.md R190. -/
def xorKeystream (x k : Bytes) : Bytes := xorBytes x (k.take x.length)

/-- `M(X) = ceil(|X| / N)` from the length of `X`, 00_scope.md R16. -/
def blockCount (n len : Nat) : Nat := (len + n - 1) / n

/-- `X_i = X[i*N .. min((i+1)*N, |X|))`, 00_scope.md R16. -/
def blockAt (n : Nat) (x : Bytes) (i : Nat) : Bytes := (x.drop (i * n)).take n

/-- The blocks of `X` in increasing order, 00_scope.md R16. -/
def blocks (n : Nat) (x : Bytes) : List Bytes := (List.range (blockCount n x.length)).map (blockAt n x)

/-- `int_be(B)`, 00_scope.md R18. -/
def intBe (b : Bytes) : Nat := b.foldl (fun acc x => acc * 256 + x.toNat) 0

/-- `be_N(v)`, 00_scope.md R18. -/
def beBytes (n v : Nat) : Bytes := (List.range n).map fun j => BitVec.ofNat 8 (v / 256 ^ (n - 1 - j))

/-- Lane `j` of a bus word, 20_memory.md R72. -/
def lane (w : Word) (j : Nat) : Byte := w.extractLsb' (8 * j) 8

/-- The bus word whose lane `j` holds `f j`, 20_memory.md R72. -/
def ofLanes (f : Nat → Byte) : Word := f 3 ++ f 2 ++ f 1 ++ f 0

/-- A strobed write to stored bits: the lanes whose strobe bit is 1 are replaced, 20_memory.md R74. -/
def mergeLanes (old data : Word) (strb : Strobe) : Word :=
  ofLanes fun j => if strb.getLsbD j then lane data j else lane old j

/-- The command word a CMD write presents: lanes whose strobe bit is 0 read as zero, 20_memory.md R75. -/
def maskLanes (data : Word) (strb : Strobe) : Word := mergeLanes 0#32 data strb

end Sys2Proof.Machine
end

