-- ==== Sys2Proof/Config.lean ====
section
/-! DEFINITION. What an implementation fixes (00_scope.md R9 to R14) and the free values of the model. -/

namespace Sys2Proof

/-- The numeric parameters of one MOCE, 00_scope.md R9 to R13. They are plain data, so that a statement about every
state is a statement about every legal choice of them (log 1). -/
structure Config where
  /-- The block size `N` in bytes, R9. -/
  n : Nat
  /-- The capacity `IN_CAP` of the input buffer in bytes, R10. -/
  inCap : Nat
  /-- The constant `VERSION`, R12. -/
  version : Word
  /-- The address `BASE` of the register space, R13. -/
  base : Nat
  deriving DecidableEq, Repr

namespace Config

/-- `OUT_CAP = IN_CAP + N`, 00_scope.md R11. -/
def outCap (c : Config) : Nat := c.inCap + c.n

/-- The legal ranges of the parameters, 00_scope.md R9, R10, R13. -/
def legal (c : Config) : Bool :=
  decide (1 ≤ c.n) && decide (c.n ≤ 256) && decide (1 ≤ c.inCap) && decide (c.inCap + c.n ≤ 65536) &&
    decide (c.base % 0x40000 = 0)

/-- The parameters of the spec's own vectors and programs, 95_test_vectors.md sections 1, 10 and 11, with `BASE = 0`.
DESIGN CHOICE (log 1): the machine `State.reset` is built with these. -/
def vectors : Config := { n := 4, inCap := 64, version := 0x00010000#32, base := 0 }

/-- FREE VALUE (log 2): the permutation of N-byte blocks that a transform with the given key computes. Being a
permutation is all that 00_scope.md R14 lets a model assume: `E` is the permutation and `D` its inverse. -/
opaque keyedPermutation : (key n : Nat) → Equiv.Perm { b : Bytes // b.length = n }

/-- FREE VALUE (log 3): the draw for byte `j` of the input buffer, unwritten since reset, in the command with the given
stamp, 70_reset_and_hazards.md R291. -/
opaque commandDraw : (stamp j : Nat) → Byte

/-- FREE VALUE (log 4, log 6): what a host read at the given stamp finds at an offset of the storage that nothing has written,
93_implementation_defined.md section 1. -/
opaque readDraw : (stamp off : Nat) → Byte

end Config

/-- The block transform attached to the BT port, 00_scope.md R14, as plain data (log 2). `Machine/Transform.lean` gives
each its `E` and `D`. -/
inductive BlockTransform where
  /-- Any keyed permutation: its `E` and `D` are the free value `Config.keyedPermutation`. -/
  | keyed (key : Nat)
  /-- The identity, a test transform of 95_test_vectors.md section 1. -/
  | identity
  /-- The test transform TR of 95_test_vectors.md section 1. -/
  | rotateXor
  deriving DecidableEq, Repr

end Sys2Proof
end

