-- ==== Sys2Proof/Machine/State.lean ====
section
/-! DEFINITION. The state of MOCE as plain data (10_state.md), the events it takes, the reasons a step can stop, and the state
right after reset (70_reset_and_hazards.md R290). -/

namespace Sys2Proof.Machine

/-- Why a step stops with a fault. MOCE itself never traps, halts or signals a bus error (20_memory.md R71, 60_exceptions.md R250). -/
inductive Fault where
  /-- Raised by a bus access (Machine/Bus.lean) whose address is outside the 0x40000 bytes at `BASE`: no such address is MOCE's
  (20_memory.md R70; log 12). Safe: the platform answers such an access elsewhere, the model stops. -/
  | outsideRegisterSpace
  deriving DecidableEq, Repr

/-- Why a step is refused. -/
inductive Refusal where
  /-- Raised by `exec` for an instruction without a meaning: none is left. Safe. -/
  | notModelled (mnemonic : String)
  /-- Raised by the event `rekey` while STATUS.BUSY = 1: "A model treats a key change during BUSY as outside the model: it
  refuses it" (70_reset_and_hazards.md R299; log 13). Safe. -/
  | keyChangeWhileBusy
  /-- Raised by the event `strayBtAnswer` while a request is outstanding: an answer that is not the attached transform's puts
  MOCE outside the spec (43_facade.md R235, 70_reset_and_hazards.md R292; log 14). Safe. -/
  | btAnswerOutsidePremises
  deriving DecidableEq, Repr

/-- PHASE, 10_state.md R51; STATUS.BUSY mirrors it. -/
inductive Phase where
  | idle | busy
  deriving DecidableEq, Repr

/-- ERROR.CLASS, 60_exceptions.md R251. -/
inductive ErrorClass where
  | none | input | state | command
  deriving DecidableEq, Repr

/-- ERROR.CAUSE, 60_exceptions.md R252; the codes 0x07 to 0xFF are never reported and have no constructor. -/
inductive Cause where
  | none | illegalCmd | padBlockSize | lenExceedsCap | ivLength | notAligned | badPadding
  deriving DecidableEq, Repr

/-- The stored fields of STATUS, 10_state.md R39; BUSY is PHASE. -/
structure Status where
  done : Bool
  ok : Bool
  busyErr : Bool
  deriving DecidableEq, Repr

/-- The fields of ERROR, 10_state.md R41. -/
structure ErrorReg where
  cls : ErrorClass
  cause : Cause
  deriving DecidableEq, Repr

/-- The fields of IE, 10_state.md R42. -/
structure IntEnable where
  doneIe : Bool
  busyErrIe : Bool
  deriving DecidableEq, Repr

/-- The result of a command, 43_facade.md R220, R222: an output `Y` or `Error(CLASS, CAUSE)`, whose class is the one its
cause has (60_exceptions.md R252). -/
inductive Result where
  | output (y : Bytes)
  | error (c : Cause)
  deriving DecidableEq, Repr

/-- The direction of a BT request, 43_facade.md R234. -/
inductive BtDirection where
  /-- `ENC`, the transform's `E`. -/
  | enc
  /-- `DEC`, the transform's `D`. -/
  | dec
  deriving DecidableEq, Repr

/-- A BT request, 43_facade.md R234. -/
structure BtRequest where
  dir : BtDirection
  block : Bytes
  deriving DecidableEq, Repr

/-- The chaining state of a command, 10_state.md R51. -/
structure Chaining where
  /-- CHAIN, N bytes; only the partial block itself after a partial last block of CFB (log 26). -/
  chain : Bytes
  /-- CTRV, an 8N-bit counter held as its value, below 2^(8N). -/
  ctrv : Nat
  /-- KS, N bytes. -/
  ks : Bytes
  deriving DecidableEq, Repr

/-- What the outside world does next (log 9); every access and every engine event is one event of the total order of
20_memory.md R83. Addresses are the platform's, so an offset is an address less `BASE` (R70). -/
inductive Event where
  /-- One host read, `BusRead`, 20_memory.md R71. -/
  | read (addr : Nat)
  /-- One host write, `BusWrite`, 20_memory.md R71. -/
  | write (addr : Nat) (data : Word) (strb : Strobe)
  /-- `poll OFF, MASK, VALUE` of 30_encoding.md R111: reads until the masked result is the value. -/
  | poll (addr : Nat) (mask value : Word)
  /-- One move of the engine and the BT port, 43_facade.md R228, R232, R234. -/
  | engine
  /-- `rst_n` falls, 70_reset_and_hazards.md R290. -/
  | resetLow
  /-- `rst_n` rises, 70_reset_and_hazards.md R290. -/
  | resetHigh
  /-- The platform keys (or replaces) the block transform out of band, 70_reset_and_hazards.md R299. -/
  | rekey (t : BlockTransform)
  /-- A BT response that the attached transform does not give to the outstanding request, 70_reset_and_hazards.md R292. -/
  | strayBtAnswer (b : Bytes)
  deriving DecidableEq, Repr

/-- The state of MOCE with what stands around it. -/
structure State where
  /-- The parameters N, IN_CAP, VERSION, BASE (00_scope.md R9 to R13; log 1). -/
  cfg : Config
  /-- The attached block transform (00_scope.md R14; log 2). -/
  bt : BlockTransform
  /-- The level of the input `rst_n`, 70_reset_and_hazards.md R290. -/
  rstN : Bool
  /-- The IV storage, the input buffer and the output buffer, keyed by offset (10_state.md R48 to R50). -/
  mem : List Host.Cell
  /-- STATUS, 10_state.md R39. -/
  status : Status
  /-- ERROR, 10_state.md R41. -/
  error : ErrorReg
  /-- IE, 10_state.md R42. -/
  ie : IntEnable
  /-- IV_LEN, 10_state.md R43. -/
  ivLen : Word
  /-- IN_LEN, 10_state.md R44. -/
  inLen : Word
  /-- OUT_LEN, 10_state.md R45. -/
  outLen : Word
  /-- LAST_CMD, 10_state.md R46. -/
  lastCmd : Word
  /-- PHASE, 10_state.md R51. -/
  phase : Phase
  /-- CUR, 10_state.md R51: the decoded command under execution, `none` for ILLEGAL (43_facade.md R220). -/
  cur : Option Instr
  /-- RES, 43_facade.md R220: the result the completion will commit. -/
  res : Result
  /-- BLK, 10_state.md R51. -/
  blk : Nat
  /-- CHAIN, CTRV and KS, 10_state.md R51. -/
  chaining : Chaining
  /-- The outstanding BT request, at most one (43_facade.md R234). -/
  btPending : Option BtRequest
  /-- The requests of the most recently accepted command, oldest first: the event history of 43_facade.md R237 (log 17). -/
  btLog : List BtRequest
  /-- The read data the bus returned last (10_state.md R56; log 16). -/
  readData : Word
  /-- The model's own: how many accepted commands have ended; stamps the running command's draws (log 10). -/
  commands : Nat
  /-- The model's own: how many bus writes, completions and resets have happened; stamps the draws of host reads (log 10). -/
  epoch : Nat
  /-- The events still to come (log 9). -/
  inputs : List Event
  deriving DecidableEq, Repr

/-- The chaining registers with every bit 0: their value at reset (DESIGN CHOICE, log 5), where the spec leaves them
unspecified and unobservable (10_state.md R52). -/
def Chaining.zero (n : Nat) : Chaining :=
  { chain := List.replicate n 0#8, ctrv := 0, ks := List.replicate n 0#8 }

/-- The state right after reset of a MOCE with the given parameters and transform, 70_reset_and_hazards.md R290: every
register at the value its rule in 10_state.md states, nothing listed in memory, no event to come. The hidden registers, the
read data and the stamps are DESIGN CHOICE (log 5, log 10, log 16). -/
def State.resetWith (c : Config) (t : BlockTransform) : State where
  cfg := c
  bt := t
  rstN := true
  mem := []
  status := { done := false, ok := false, busyErr := false }
  error := { cls := .none, cause := .none }
  ie := { doneIe := false, busyErrIe := false }
  ivLen := 0
  inLen := 0
  outLen := 0
  lastCmd := 0
  phase := .idle
  cur := none
  res := .output []
  blk := 0
  chaining := Chaining.zero c.n
  btPending := none
  btLog := []
  readData := 0
  commands := 0
  epoch := 0
  inputs := []

/-- The machine right after reset, with the parameters and the transform of the spec's vectors and programs
(95_test_vectors.md sections 1 and 11; DESIGN CHOICE, log 1, log 2). -/
def State.reset : State := State.resetWith Config.vectors .rotateXor

end Sys2Proof.Machine
end

