-- ==== Sys2Proof/Machine/Ops.lean ====
section
/-! DEFINITION. The named operations over memory and registers: the storage of the three windows (10_state.md section 4),
accepting a command (43_facade.md R220), dropping a write (R221, R233), the completion of a command, which is what MOCE has for
taking an exception (R230, R231; 60_exceptions.md R261), and reset (70_reset_and_hazards.md R290). -/

namespace Sys2Proof.Machine

/-- Offset of the IV window, 20_memory.md R78. -/
def ivBase : Nat := 0x100

/-- Offset of the IN window, 20_memory.md R79. -/
def inBase : Nat := 0x10000

/-- Offset of the OUT window, 20_memory.md R80. -/
def outBase : Nat := 0x20000

namespace Memory

/-- What an offset that memory does not list reads as: 0x00 in the IV window, whose storage resets to zero (10_state.md R48),
and no value elsewhere, where reset leaves the storage unspecified (R49, R50). -/
def unlisted (off : Nat) : Option Byte :=
  if ivBase ≤ off ∧ off < ivBase + 0x100 then some 0#8 else none

/-- The byte stored at an offset; `none` for a byte unwritten since reset. -/
def read : List Host.Cell → Nat → Option Byte
  | [], off => unlisted off
  | (k, v) :: m, off => if k = off then some v else read m off

/-- The cell at the head of a memory, left out if it says what an unlisted offset reads as. -/
def put (off : Nat) (v : Byte) (m : List Host.Cell) : List Host.Cell :=
  if unlisted off = some v then m else (off, v) :: m

/-- Store a byte, keeping the canonical form. -/
def write : List Host.Cell → Nat → Byte → List Host.Cell
  | [], off, v => put off v []
  | (k, x) :: m, off, v =>
    if off < k then put off v ((k, x) :: m)
    else if off = k then put off v m
    else (k, x) :: write m off v

/-- Store a byte sequence at increasing offsets: `MemWrite`, 00_scope.md R19. -/
def writeBytes : List Host.Cell → Nat → Bytes → List Host.Cell
  | m, _, [] => m
  | m, off, v :: vs => writeBytes (write m off v) (off + 1) vs

/-- The offsets of a memory rise strictly, from one above `lo` on. -/
def rising : Option Nat → List Host.Cell → Bool
  | _, [] => true
  | none, (k, _) :: m => rising (some k) m
  | some lo, (k, _) :: m => decide (lo < k) && rising (some k) m

/-- The canonical form: offsets strictly rising, and no cell that says what its offset reads as unlisted. -/
def wf (m : List Host.Cell) : Bool := rising none m && m.all fun c => decide (unlisted c.1 ≠ some c.2)

end Memory

/-- The byte a host read finds in the storage at an offset. A byte unwritten since reset is a free value (log 4, log 6),
the same for two reads with no write or completion between them (20_memory.md R81). -/
def storedByte (s : State) (off : Nat) : Byte := (Memory.read s.mem off).getD (Config.readDraw s.epoch off)

/-- `IV[0..N)`, 10_state.md R48. -/
def ivBytes (s : State) : Bytes := (List.range s.cfg.n).map fun j => storedByte s (ivBase + j)

/-- `OUT[0..len)`, 10_state.md R50. -/
def outBytes (s : State) (len : Nat) : Bytes := (List.range len).map fun j => storedByte s (outBase + j)

/-- The chaining state an accept loads: CHAIN and CTRV from the IV storage, 10_state.md R52, 41_block_modes.md R160, 42_stream_modes.md
R195. DESIGN CHOICE (log 25): KS, which no rule gives a value before the first answer, is N bytes of 0x00, and CHAIN and CTRV are
loaded for the commands that use neither. -/
def initialChaining (s : State) : Chaining :=
  { chain := ivBytes s, ctrv := intBe (ivBytes s), ks := List.replicate s.cfg.n 0#8 }

/-- The accept of the command word `w`, 43_facade.md R220: one indivisible event. -/
def accept (s : State) (w : Word) (cur : Option Instr) (res : Result) : State :=
  { s with
    lastCmd := w
    status := { done := false, ok := false, busyErr := s.status.busyErr }
    error := { cls := .none, cause := .none }
    outLen := 0
    phase := .busy
    cur := cur
    res := res
    blk := 0
    chaining := initialChaining s
    btPending := none
    btLog := [] }

/-- A dropped write sets STATUS.BUSY_ERR and changes nothing else, 43_facade.md R221, R233. -/
def dropWrite (s : State) : State := { s with status := { s.status with busyErr := true } }

/-- A command word presented to CMD: ignored in reset (70_reset_and_hazards.md R290), dropped while BUSY (43_facade.md R221), accepted
otherwise (R220). -/
def present (s : State) (w : Word) (cur : Option Instr) (res : Result) : State :=
  if s.rstN = false then s
  else if s.phase = .busy then dropWrite s
  else accept s w cur res

/-- The class of a cause, 60_exceptions.md R252. -/
def Cause.cls : Cause → ErrorClass
  | .none => .none
  | .illegalCmd => .command
  | .padBlockSize => .state
  | .lenExceedsCap => .input
  | .ivLength => .input
  | .notAligned => .input
  | .badPadding => .input

/-- Successful completion with the output `y`, 43_facade.md R230. -/
def completeOk (s : State) (y : Bytes) : State :=
  { s with
    mem := Memory.writeBytes s.mem outBase y
    outLen := BitVec.ofNat 32 y.length
    error := { cls := .none, cause := .none }
    status := { s.status with done := true, ok := true }
    phase := .idle
    btPending := none
    commands := s.commands + 1
    epoch := s.epoch + 1 }

/-- Failing completion with a cause and its class, 43_facade.md R231. -/
def completeError (s : State) (c : Cause) : State :=
  { s with
    outLen := 0
    error := { cls := c.cls, cause := c }
    status := { s.status with done := true, ok := false }
    phase := .idle
    btPending := none
    commands := s.commands + 1
    epoch := s.epoch + 1 }

/-- The completion of the running command: RES is committed, 43_facade.md R230, R231. It is the only entry MOCE has
(60_exceptions.md R261): it saves nothing and changes no mode. -/
def complete (s : State) : State :=
  match s.res with
  | .output y => completeOk s y
  | .error c => completeError s c

/-- Every register at its reset value and the input buffer unwritten, 70_reset_and_hazards.md R290 to R292: a running command
and an outstanding request are abandoned. The stamps move on, so that the draws after the reset are fresh. -/
def resetRegisters (s : State) (rstN : Bool) : State :=
  { State.resetWith s.cfg s.bt with
    rstN := rstN
    commands := s.commands + 1
    epoch := s.epoch + 1
    inputs := s.inputs }

/-- `rst_n` falls, 70_reset_and_hazards.md R290 (log 15). -/
def enterReset (s : State) : State := resetRegisters s false

/-- `rst_n` rises, 70_reset_and_hazards.md R290; a rise without a fall before it is no event (log 15). -/
def leaveReset (s : State) : State := if s.rstN then s else resetRegisters s true

end Sys2Proof.Machine
end

