-- ==== Sys2Proof/Machine/Transform.lean ====
section
/-! DEFINITION. The block transform as the model sees it: the functions `E` and `D` (00_scope.md R14) and the lanes of the BT
port (20_memory.md R94). -/

namespace Sys2Proof.Machine

/-- Apply a permutation of N-byte blocks to a block. MOCE gives the transform exactly N bytes in every request
(43_facade.md R235), so the other branch is never used (log 23). -/
def applyPermutation (n : Nat) (e : Equiv.Perm { b : Bytes // b.length = n }) (b : Bytes) : Bytes :=
  if h : b.length = n then (e ⟨b, h⟩).1 else b

/-- The key bytes `K[j] = (0x11 * (j+1)) mod 256` of TR, 95_test_vectors.md section 1. -/
def rotateXorKey (n : Nat) : Bytes := (List.range n).map fun j => BitVec.ofNat 8 (0x11 * (j + 1))

/-- `E`, 00_scope.md R14; the test transforms are those of 95_test_vectors.md section 1. -/
def encryptBlock (t : BlockTransform) (n : Nat) (b : Bytes) : Bytes :=
  match t with
  | .keyed key => applyPermutation n (Config.keyedPermutation key n) b
  | .identity => b
  | .rotateXor => xorBytes (b.drop 1 ++ b.take 1) (rotateXorKey n)

/-- `D`, the inverse of `E`, 00_scope.md R14. -/
def decryptBlock (t : BlockTransform) (n : Nat) (c : Bytes) : Bytes :=
  match t with
  | .keyed key => applyPermutation n (Config.keyedPermutation key n).symm c
  | .identity => c
  | .rotateXor =>
    let x := xorBytes c (rotateXorKey n)
    x.drop (n - 1) ++ x.take (n - 1)

/-- The attached transform's answer to a request, 43_facade.md R235. -/
def answer (t : BlockTransform) (n : Nat) (q : BtRequest) : Bytes :=
  match q.dir with
  | .enc => encryptBlock t n q.block
  | .dec => decryptBlock t n q.block

/-- A block on the data lines of the BT port, as the value of the `8N` bits: byte `j` on bits `[8j+7:8j]`, 20_memory.md R94. -/
def portBits (b : Bytes) : Nat := b.foldr (fun x acc => x.toNat + 256 * acc) 0

/-- The block that `8N` bits of the BT port carry, 20_memory.md R94. -/
def blockOfPortBits (n v : Nat) : Bytes := (List.range n).map fun j => BitVec.ofNat 8 (v / 256 ^ j)

end Sys2Proof.Machine
end

