-- ==== Sys2Proof/Machine/Operands.lean ====
section
/-! DEFINITION. The operands of a command (30_encoding.md R105), the checks on them (43_facade.md R224 to R226), the shape of a
command's work, and the presentation of a command with its result (R220, R222). -/

namespace Sys2Proof.Machine

/-- What a step ends in. -/
abbrev Outcome := Host.Outcome State Fault Refusal

/-- The message `P = IN[0..IN_LEN)` that the command reads, 00_scope.md R20, 20_memory.md R85. Each byte unwritten since reset is a
draw of this command (70_reset_and_hazards.md R291; log 3). -/
def message (s : State) : Bytes :=
  (List.range s.inLen.toNat).map fun j => (Memory.read s.mem (inBase + j)).getD (Config.commandDraw s.commands j)

/-- Check 2, 43_facade.md R224, for a command that uses padding. -/
def schemeTooWide (s : State) (p : Padding) : Bool := (p == .pkcs7 || p == .x923) && decide (255 < s.cfg.n)

/-- Check 3, 43_facade.md R225. -/
def exceedsCapacity (s : State) : Bool := decide (s.cfg.inCap < s.inLen.toNat)

/-- Check 4, 43_facade.md R226, for a command that needs an IV. -/
def ivLengthWrong (s : State) : Bool := decide (s.ivLen.toNat ≠ s.cfg.n)

/-- Check 5, 43_facade.md R227, where the command asks for it. -/
def misaligned (s : State) : Bool := decide (s.inLen.toNat % s.cfg.n ≠ 0)

/-- What a mode does with one block (41_block_modes.md, 42_stream_modes.md): the request it makes from the chaining state and
the input block, and, with the answer, the output block and the next chaining state. The first argument is `N`. -/
structure BlockRule where
  request : Nat → Chaining → Bytes → BtRequest
  output : Chaining → Bytes → Bytes → Bytes
  next : Nat → Chaining → Bytes → Bytes → Chaining

/-- The work of a command whose checks 1 to 5 have passed, 43_facade.md R222. -/
structure Work where
  /-- The byte sequence the blocks are cut from: `pad(P, p)` for a block-aligned ENC and for PAD, `P` otherwise. -/
  input : Bytes
  /-- The mode's rule; none for PAD and UNPAD, which make no request. -/
  rule : Option BlockRule
  /-- Whether the command's rule writes each output block as it is made (log 18). -/
  writesBlocks : Bool
  /-- Check 7 and the stripping of padding for DEC in a block-aligned mode and UNPAD; the output itself otherwise. -/
  finish : Bytes → Result

/-- What the checks 1 to 5 of a command leave: the first failing check's error, or its work. -/
inductive Job where
  | stop (c : Cause)
  | work (w : Work)

/-- One check of 43_facade.md R222: "The first check that fails ends the command with its error". -/
def Job.failIf (bad : Bool) (c : Cause) (rest : Job) : Job := if bad then .stop c else rest

/-- What a run over blocks leaves. -/
structure BlockRun where
  output : Bytes
  requests : List BtRequest
  last : Chaining

/-- Phase 6 over the blocks in increasing order, 43_facade.md R228: one request for each. -/
def runBlocks (t : BlockTransform) (n : Nat) (r : BlockRule) : Chaining → List Bytes → BlockRun
  | c, [] => { output := [], requests := [], last := c }
  | c, x :: xs =>
    let q := r.request n c x
    let a := answer t n q
    let rest := runBlocks t n r (r.next n c x a) xs
    { output := r.output c x a ++ rest.output, requests := q :: rest.requests, last := rest.last }

/-- Phase 6 of a command's work from the state at its accept. -/
def Work.run (w : Work) (s : State) : BlockRun :=
  match w.rule with
  | none => { output := w.input, requests := [], last := initialChaining s }
  | some r => runBlocks s.bt s.cfg.n r (initialChaining s) (blocks s.cfg.n w.input)

/-- `Exec`, 43_facade.md R222: the result of a command, over the state at its accept. -/
def Job.result (j : Job) (s : State) : Result :=
  match j with
  | .stop c => .error c
  | .work w => w.finish (w.run s).output

/-- The BT requests of a command in order, 43_facade.md R237: none when a check 1 to 5 fails. -/
def Job.requests (j : Job) (s : State) : List BtRequest :=
  match j with
  | .stop _ => []
  | .work w => (w.run s).requests

/-- A command presented to CMD with the job its rule gives it, 43_facade.md R220, R221. LAST_CMD takes the command's own word,
the only one that decodes to it (log 19). -/
def presentCommand (i : Instr) (j : Job) (s : State) : Outcome :=
  .next (present s (encode i) (some i) (j.result s))

end Sys2Proof.Machine
end

