-- ==== Sys2Proof/Machine/Padding.lean ====
section
/-! DEFINITION. The padding schemes, the block-aligned padding validator, and the commands PAD and UNPAD (40_padding.md). -/

namespace Sys2Proof.Machine

/-- `k = N - (L mod N)`, 40_padding.md R120. -/
def padCount (n len : Nat) : Nat := n - len % n

/-- `pad(X, s)`, 40_padding.md R121 to R125. -/
def pad (n : Nat) (p : Padding) (x : Bytes) : Result :=
  let k := padCount n x.length
  match p with
  | .none => if x.length % n ≠ 0 then .error .notAligned else .output x
  | .bit => .output (x ++ [0x80#8] ++ List.replicate (k - 1) 0x00#8)
  | .pkcs7 => .output (x ++ List.replicate k (BitVec.ofNat 8 k))
  | .x923 => .output (x ++ List.replicate (k - 1) 0x00#8 ++ [BitVec.ofNat 8 k])
  | .iso7816 => .output (x ++ [0x80#8] ++ List.replicate (k - 1) 0x00#8)

/-- How many bytes the marker 0x80 and the zero bytes after it take at the end of a block, given backwards; none when the
first byte that is not 0x00 is not 0x80, or there is none: the scan of 40_padding.md R130. -/
def markerLength : Bytes → Option Nat
  | [] => none
  | b :: bs => if b = 0x00#8 then (markerLength bs).map (· + 1) else if b = 0x80#8 then some 1 else none

/-- `unpad(B, BIT)`, 40_padding.md R130: the scan stays in the final block. -/
def unpadMarker (n : Nat) (b : Bytes) : Result :=
  if b.length = 0 then .error .badPadding
  else
    match markerLength (b.drop (b.length - n)).reverse with
    | none => .error .badPadding
    | some k => .output (b.take (b.length - k))

/-- `unpad(B, PKCS7)` and `unpad(B, X923)`, 40_padding.md R128, R129: the last byte `k` is in `1..N` and the bytes before it in the
padding all hold the filler that goes with `k`. -/
def unpadCounted (n : Nat) (filler : Byte → Byte) (b : Bytes) : Result :=
  if b.length = 0 then .error .badPadding
  else
    let last := b.getLastD 0#8
    let k := last.toNat
    if k < 1 ∨ n < k then .error .badPadding
    else if ((b.drop (b.length - k)).take (k - 1)).any (fun x => x != filler last) then .error .badPadding
    else .output (b.take (b.length - k))

/-- `unpad(B, s)`, 40_padding.md R126 to R131: the padding validator. -/
def unpad (n : Nat) (p : Padding) (b : Bytes) : Result :=
  match p with
  | .none => .output b
  | .bit => unpadMarker n b
  | .pkcs7 => unpadCounted n (fun last => last) b
  | .x923 => unpadCounted n (fun _ => 0x00#8) b
  | .iso7816 => unpadMarker n b

/-- Go on with the padded message; `pad`'s own raise is check 5 of 43_facade.md R222 for None. -/
def Job.ofPadded (r : Result) (rest : Bytes → Work) : Job :=
  match r with
  | .output x => .work (rest x)
  | .error c => .stop c

/-- `PAD p`, 40_padding.md R134. -/
def padJob (p : Padding) (s : State) : Job :=
  .failIf (schemeTooWide s p) .padBlockSize <|
  .failIf (exceedsCapacity s) .lenExceedsCap <|
  .ofPadded (pad s.cfg.n p (message s)) fun y =>
    { input := y, rule := none, writesBlocks := false, finish := .output }

/-- `UNPAD p`, 40_padding.md R135: the block-aligned padding validator. -/
def unpadJob (p : Padding) (s : State) : Job :=
  .failIf (schemeTooWide s p) .padBlockSize <|
  .failIf (exceedsCapacity s) .lenExceedsCap <|
  .failIf (misaligned s) .notAligned <|
  .work { input := message s, rule := none, writesBlocks := false, finish := unpad s.cfg.n p }

/-- PAD, 40_padding.md R134. -/
def execPad (p : Padding) (s : State) : Outcome := presentCommand (.pad p) (padJob p s) s

/-- UNPAD, 40_padding.md R135. -/
def execUnpad (p : Padding) (s : State) : Outcome := presentCommand (.unpad p) (unpadJob p s) s

end Sys2Proof.Machine
end

