-- ==== Sys2Proof/Machine/BlockModes.lean ====
section
/-! DEFINITION. The block-aligned modes ECB, CBC and PCBC (41_block_modes.md). -/

namespace Sys2Proof.Machine

/-- ENC in a block-aligned mode, 41_block_modes.md R160 with the checks of 43_facade.md R222: pad first, then the blocks. -/
def blockEncrypt (p : Padding) (needsIv : Bool) (r : BlockRule) (s : State) : Job :=
  .failIf (schemeTooWide s p) .padBlockSize <|
  .failIf (exceedsCapacity s) .lenExceedsCap <|
  .failIf (needsIv && ivLengthWrong s) .ivLength <|
  .ofPadded (pad s.cfg.n p (message s)) fun x =>
    { input := x, rule := some r, writesBlocks := true, finish := .output }

/-- DEC in a block-aligned mode, 41_block_modes.md R160 with the checks of 43_facade.md R222: alignment first, then the blocks,
then `unpad` over the decrypted blocks. -/
def blockDecrypt (p : Padding) (needsIv : Bool) (r : BlockRule) (s : State) : Job :=
  .failIf (schemeTooWide s p) .padBlockSize <|
  .failIf (exceedsCapacity s) .lenExceedsCap <|
  .failIf (needsIv && ivLengthWrong s) .ivLength <|
  .failIf (misaligned s) .notAligned <|
  .work { input := message s, rule := some r, writesBlocks := false, finish := unpad s.cfg.n p }

/-- `E(X_i)`, 41_block_modes.md R161. -/
def ecbEncRule : BlockRule where
  request _ _ x := ⟨.enc, x⟩
  output _ _ a := a
  next _ c _ _ := c

/-- `D(C_i)`, 41_block_modes.md R162. -/
def ecbDecRule : BlockRule where
  request _ _ x := ⟨.dec, x⟩
  output _ _ a := a
  next _ c _ _ := c

/-- `C_i = E(X_i xor CHAIN)`, CHAIN then `C_i`, 41_block_modes.md R163. -/
def cbcEncRule : BlockRule where
  request _ c x := ⟨.enc, xorBytes x c.chain⟩
  output _ _ a := a
  next _ c _ a := { c with chain := a }

/-- `D(C_i) xor CHAIN`, CHAIN then `C_i`, 41_block_modes.md R164. -/
def cbcDecRule : BlockRule where
  request _ _ x := ⟨.dec, x⟩
  output c _ a := xorBytes a c.chain
  next _ c x _ := { c with chain := x }

/-- `C_i = E(X_i xor CHAIN)`, CHAIN then `X_i xor C_i`, 41_block_modes.md R165. -/
def pcbcEncRule : BlockRule where
  request _ c x := ⟨.enc, xorBytes x c.chain⟩
  output _ _ a := a
  next _ c x a := { c with chain := xorBytes x a }

/-- `P_i = D(C_i) xor CHAIN`, CHAIN then `P_i xor C_i`, 41_block_modes.md R166. -/
def pcbcDecRule : BlockRule where
  request _ _ x := ⟨.dec, x⟩
  output c _ a := xorBytes a c.chain
  next _ c x a := { c with chain := xorBytes (xorBytes a c.chain) x }

/-- `ENC.ECB p`, 41_block_modes.md R161: the IV is neither read nor checked. -/
def encEcbJob (p : Padding) (s : State) : Job := blockEncrypt p false ecbEncRule s

/-- `DEC.ECB p`, 41_block_modes.md R162. -/
def decEcbJob (p : Padding) (s : State) : Job := blockDecrypt p false ecbDecRule s

/-- `ENC.CBC p`, 41_block_modes.md R163. -/
def encCbcJob (p : Padding) (s : State) : Job := blockEncrypt p true cbcEncRule s

/-- `DEC.CBC p`, 41_block_modes.md R164. -/
def decCbcJob (p : Padding) (s : State) : Job := blockDecrypt p true cbcDecRule s

/-- `ENC.PCBC p`, 41_block_modes.md R165. -/
def encPcbcJob (p : Padding) (s : State) : Job := blockEncrypt p true pcbcEncRule s

/-- `DEC.PCBC p`, 41_block_modes.md R166. -/
def decPcbcJob (p : Padding) (s : State) : Job := blockDecrypt p true pcbcDecRule s

/-- ENC.ECB, 41_block_modes.md R161. -/
def execEncEcb (p : Padding) (s : State) : Outcome := presentCommand (.encEcb p) (encEcbJob p s) s

/-- DEC.ECB, 41_block_modes.md R162. -/
def execDecEcb (p : Padding) (s : State) : Outcome := presentCommand (.decEcb p) (decEcbJob p s) s

/-- ENC.CBC, 41_block_modes.md R163. -/
def execEncCbc (p : Padding) (s : State) : Outcome := presentCommand (.encCbc p) (encCbcJob p s) s

/-- DEC.CBC, 41_block_modes.md R164. -/
def execDecCbc (p : Padding) (s : State) : Outcome := presentCommand (.decCbc p) (decCbcJob p s) s

/-- ENC.PCBC, 41_block_modes.md R165. -/
def execEncPcbc (p : Padding) (s : State) : Outcome := presentCommand (.encPcbc p) (encPcbcJob p s) s

/-- DEC.PCBC, 41_block_modes.md R166. -/
def execDecPcbc (p : Padding) (s : State) : Outcome := presentCommand (.decPcbc p) (decPcbcJob p s) s

end Sys2Proof.Machine
end

