-- ==== Sys2Proof/Machine/StreamModes.lean ====
section
/-! DEFINITION. The stream-like modes CFB, OFB and CTR (42_stream_modes.md). -/

namespace Sys2Proof.Machine

/-- A stream-like command, 42_stream_modes.md R190 with the checks of 43_facade.md R222: no padding, no alignment. -/
def streamCrypt (r : BlockRule) (s : State) : Job :=
  .failIf (exceedsCapacity s) .lenExceedsCap <|
  .failIf (ivLengthWrong s) .ivLength <|
  .work { input := message s, rule := some r, writesBlocks := true, finish := .output }

/-- `KS = E(CHAIN)`, `C_i = P_i xor take(|P_i|, KS)`, CHAIN then `C_i`, 42_stream_modes.md R191. After a partial last block CHAIN is
that partial block, with no other bytes, until the next accept: DESIGN CHOICE (log 26). -/
def cfbEncRule : BlockRule where
  request _ c _ := ⟨.enc, c.chain⟩
  output _ x a := xorKeystream x a
  next _ c x a := { c with chain := xorKeystream x a, ks := a }

/-- The same keystream, CHAIN then the input ciphertext block, 42_stream_modes.md R192; it too requests `E`. After a partial last
block CHAIN is that partial block: DESIGN CHOICE (log 26). -/
def cfbDecRule : BlockRule where
  request _ c _ := ⟨.enc, c.chain⟩
  output _ x a := xorKeystream x a
  next _ c x a := { c with chain := x, ks := a }

/-- `CHAIN = E(CHAIN)` is the keystream block, 42_stream_modes.md R193. -/
def ofbRule : BlockRule where
  request _ c _ := ⟨.enc, c.chain⟩
  output _ x a := xorKeystream x a
  next _ c _ a := { c with chain := a }

/-- `KS = E(be_N(CTRV))`, CTRV one up modulo `2^(8N)`, 42_stream_modes.md R195, R197. -/
def ctrRule : BlockRule where
  request n c _ := ⟨.enc, beBytes n c.ctrv⟩
  output _ x a := xorKeystream x a
  next n c _ a := { c with ctrv := (c.ctrv + 1) % 2 ^ (8 * n), ks := a }

/-- `ENC.CFB p`, 42_stream_modes.md R191; `p` is ignored (30_encoding.md R106). -/
def encCfbJob (_p : Padding) (s : State) : Job := streamCrypt cfbEncRule s

/-- `DEC.CFB p`, 42_stream_modes.md R192. -/
def decCfbJob (_p : Padding) (s : State) : Job := streamCrypt cfbDecRule s

/-- `ENC.OFB p`, 42_stream_modes.md R193. -/
def encOfbJob (_p : Padding) (s : State) : Job := streamCrypt ofbRule s

/-- `DEC.OFB p`, 42_stream_modes.md R194: "exactly that of rule R193". -/
def decOfbJob (_p : Padding) (s : State) : Job := streamCrypt ofbRule s

/-- `ENC.CTR p`, 42_stream_modes.md R195. -/
def encCtrJob (_p : Padding) (s : State) : Job := streamCrypt ctrRule s

/-- `DEC.CTR p`, 42_stream_modes.md R196: "exactly that of rule R195". -/
def decCtrJob (_p : Padding) (s : State) : Job := streamCrypt ctrRule s

/-- ENC.CFB, 42_stream_modes.md R191. -/
def execEncCfb (p : Padding) (s : State) : Outcome := presentCommand (.encCfb p) (encCfbJob p s) s

/-- DEC.CFB, 42_stream_modes.md R192. -/
def execDecCfb (p : Padding) (s : State) : Outcome := presentCommand (.decCfb p) (decCfbJob p s) s

/-- ENC.OFB, 42_stream_modes.md R193. -/
def execEncOfb (p : Padding) (s : State) : Outcome := presentCommand (.encOfb p) (encOfbJob p s) s

/-- DEC.OFB, 42_stream_modes.md R194. -/
def execDecOfb (p : Padding) (s : State) : Outcome := presentCommand (.decOfb p) (decOfbJob p s) s

/-- ENC.CTR, 42_stream_modes.md R195. -/
def execEncCtr (p : Padding) (s : State) : Outcome := presentCommand (.encCtr p) (encCtrJob p s) s

/-- DEC.CTR, 42_stream_modes.md R196. -/
def execDecCtr (p : Padding) (s : State) : Outcome := presentCommand (.decCtr p) (decCtrJob p s) s

end Sys2Proof.Machine
end

