-- ==== Sys2Proof/Machine/Dispatch.lean ====
section
/-! DEFINITION. The meaning of each command, one arm per constructor (30_encoding.md R108). -/

namespace Sys2Proof.Machine

def exec (i : Instr) (s : State) : Host.Outcome State Fault Refusal :=
  match i with
  | .encEcb p => Sys2Proof.Machine.execEncEcb p s
  | .encCbc p => Sys2Proof.Machine.execEncCbc p s
  | .encPcbc p => Sys2Proof.Machine.execEncPcbc p s
  | .encCfb p => Sys2Proof.Machine.execEncCfb p s
  | .encOfb p => Sys2Proof.Machine.execEncOfb p s
  | .encCtr p => Sys2Proof.Machine.execEncCtr p s
  | .decEcb p => Sys2Proof.Machine.execDecEcb p s
  | .decCbc p => Sys2Proof.Machine.execDecCbc p s
  | .decPcbc p => Sys2Proof.Machine.execDecPcbc p s
  | .decCfb p => Sys2Proof.Machine.execDecCfb p s
  | .decOfb p => Sys2Proof.Machine.execDecOfb p s
  | .decCtr p => Sys2Proof.Machine.execDecCtr p s
  | .pad p => Sys2Proof.Machine.execPad p s
  | .unpad p => Sys2Proof.Machine.execUnpad p s

end Sys2Proof.Machine
end

