-- ==== Sys2Proof/Machine/Engine.lean ====
section
/-! DEFINITION. The engine between accept and completion (43_facade.md R228, R232, R234): the job of the running command, and one
move of the engine and the BT port. -/

namespace Sys2Proof.Machine

/-- The job of each command: its checks 1 to 5 and its work, 43_facade.md R222. -/
def commandJob (i : Instr) (s : State) : Job :=
  match i with
  | .encEcb p => encEcbJob p s
  | .encCbc p => encCbcJob p s
  | .encPcbc p => encPcbcJob p s
  | .encCfb p => encCfbJob p s
  | .encOfb p => encOfbJob p s
  | .encCtr p => encCtrJob p s
  | .decEcb p => decEcbJob p s
  | .decCbc p => decCbcJob p s
  | .decPcbc p => decPcbcJob p s
  | .decCfb p => decCfbJob p s
  | .decOfb p => decOfbJob p s
  | .decCtr p => decCtrJob p s
  | .pad p => padJob p s
  | .unpad p => unpadJob p s

/-- The job of CUR; an illegal word stops at check 1, 43_facade.md R223. -/
def curJob (cur : Option Instr) (s : State) : Job :=
  match cur with
  | none => .stop .illegalCmd
  | some i => commandJob i s

/-- Send the request of block BLK, 43_facade.md R234. -/
def issueRequest (r : BlockRule) (x : Bytes) (s : State) : State :=
  let q := r.request s.cfg.n s.chaining x
  { s with btPending := some q, btLog := s.btLog ++ [q] }

/-- Take the transform's answer for block BLK: write the output block where the command's rule writes it (`MemWrite`), load
the chaining state, and go to the next block; 43_facade.md R228, R235. After the last answer BLK stands at M until the completion:
DESIGN CHOICE (log 24), 10_state.md R51 names only the block being processed. -/
def takeAnswer (w : Work) (r : BlockRule) (x : Bytes) (q : BtRequest) (s : State) : State :=
  let a := answer s.bt s.cfg.n q
  { s with
    mem := if w.writesBlocks then
        Memory.writeBytes s.mem (outBase + s.blk * s.cfg.n) (r.output s.chaining x a)
      else s.mem
    chaining := r.next s.cfg.n s.chaining x a
    blk := s.blk + 1
    btPending := none }

/-- One move of the engine and the BT port. Nothing moves in reset or while IDLE (70_reset_and_hazards.md R290, R293). A command
that a check stopped, or whose blocks are done, completes; otherwise the request of block BLK goes out, and then its answer
comes in: at most one request is outstanding (43_facade.md R234). -/
def engineMove (s : State) : State :=
  if s.rstN = false ∨ s.phase = .idle then s
  else
    match curJob s.cur s with
    | .stop _ => complete s
    | .work w =>
      match w.rule with
      | none => complete s
      | some r =>
        if s.blk < blockCount s.cfg.n w.input.length then
          match s.btPending with
          | none => issueRequest r (blockAt s.cfg.n w.input s.blk) s
          | some q => takeAnswer w r (blockAt s.cfg.n w.input s.blk) q s
        else complete s

/-- A number of moves with no host event between them. -/
def engineMoves : Nat → State → State
  | 0, s => s
  | k + 1, s => engineMoves k (engineMove s)

end Sys2Proof.Machine
end

