-- ==== Sys2Proof/Machine/Flags.lean ====
section
/-! DEFINITION. STATUS, ERROR and IE as the bus reads and writes them, and `irq` (10_state.md R39 to R42, R54): the registers
that play the part of flags. The acknowledge of a completion, MOCE's counterpart of a return (60_exceptions.md R263), is
`writeStatus`. -/

namespace Sys2Proof.Machine

/-- The word STATUS reads as, 10_state.md R39. -/
def statusWord (s : State) : Word :=
  0#28 ++ BitVec.ofBool s.status.busyErr ++ BitVec.ofBool s.status.ok ++ BitVec.ofBool s.status.done ++
    BitVec.ofBool (s.phase == .busy)

/-- The code of an error class, 60_exceptions.md R251. -/
def ErrorClass.code : ErrorClass → BitVec 2
  | .none => 0
  | .input => 1
  | .state => 2
  | .command => 3

/-- The code of a cause, 60_exceptions.md R252. -/
def Cause.code : Cause → BitVec 8
  | .none => 0x00
  | .illegalCmd => 0x01
  | .padBlockSize => 0x02
  | .lenExceedsCap => 0x03
  | .ivLength => 0x04
  | .notAligned => 0x05
  | .badPadding => 0x06

/-- The word ERROR reads as, 10_state.md R41. -/
def errorWord (s : State) : Word := 0#16 ++ s.error.cause.code ++ 0#6 ++ s.error.cls.code

/-- The word IE reads as, 10_state.md R42. -/
def ieWord (s : State) : Word := 0#30 ++ BitVec.ofBool s.ie.busyErrIe ++ BitVec.ofBool s.ie.doneIe

/-- A write to STATUS, 10_state.md R40: write 1 to clear DONE and BUSY_ERR, in lane 0 only, performed while BUSY too. -/
def writeStatus (s : State) (w : Word) (strb : Strobe) : State :=
  { s with
    status := { s.status with
      done := s.status.done && !(strb.getLsbD 0 && w.getLsbD 1)
      busyErr := s.status.busyErr && !(strb.getLsbD 0 && w.getLsbD 3) } }

/-- A write to IE, 10_state.md R42: lane 0 only, performed while BUSY too. -/
def writeIe (s : State) (w : Word) (strb : Strobe) : State :=
  if strb.getLsbD 0 then { s with ie := { doneIe := w.getLsbD 0, busyErrIe := w.getLsbD 1 } } else s

/-- The interrupt output, 10_state.md R54; held 0 while `rst_n` is low, 70_reset_and_hazards.md R290. -/
def State.irq (s : State) : Bool :=
  s.rstN && ((s.status.done && s.ie.doneIe) || (s.status.busyErr && s.ie.busyErrIe))

end Sys2Proof.Machine
end

