-- ==== Sys2Proof/Machine/Bus.lean ====
section
/-! DEFINITION. The register bus (20_memory.md): the register map (10_state.md R33), reads, writes, and the events of the total
order (20_memory.md R83). -/

namespace Sys2Proof.Machine

/-- The registers of the map, 10_state.md R33. -/
inductive Reg where
  | blockBytes | inCap | version | cmd | status | error | ie | ivLen | inLen | outLen | lastCmd
  deriving DecidableEq, Repr

/-- What a word offset of the register space addresses: a register, a word of a window by the offset of its first byte in
the window, or nothing. -/
inductive Place where
  | reg (r : Reg)
  | iv (b : Nat)
  | inp (b : Nat)
  | out (b : Nat)
  | reserved
  deriving DecidableEq, Repr

/-- The register map, 10_state.md R33, 20_memory.md R70, on a word offset. -/
def place (off : Nat) : Place :=
  if off = 0x000 then .reg .blockBytes
  else if off = 0x004 then .reg .inCap
  else if off = 0x008 then .reg .version
  else if off = 0x010 then .reg .cmd
  else if off = 0x014 then .reg .status
  else if off = 0x018 then .reg .error
  else if off = 0x01C then .reg .ie
  else if off = 0x020 then .reg .ivLen
  else if off = 0x024 then .reg .inLen
  else if off = 0x028 then .reg .outLen
  else if off = 0x02C then .reg .lastCmd
  else if 0x100 ≤ off ∧ off < 0x200 then .iv (off - 0x100)
  else if 0x10000 ≤ off ∧ off < 0x20000 then .inp (off - 0x10000)
  else if 0x20000 ≤ off ∧ off < 0x30000 then .out (off - 0x20000)
  else .reserved

/-- "MOCE ignores offset bits [1:0]", 20_memory.md R76. -/
def wordOffset (off : Nat) : Nat := off / 4 * 4

/-- What a register reads as, 10_state.md R34 to R46; CMD reads 0. -/
def readReg (s : State) : Reg → Word
  | .blockBytes => BitVec.ofNat 32 s.cfg.n
  | .inCap => BitVec.ofNat 32 s.cfg.inCap
  | .version => s.cfg.version
  | .cmd => 0
  | .status => statusWord s
  | .error => errorWord s
  | .ie => ieWord s
  | .ivLen => s.ivLen
  | .inLen => s.inLen
  | .outLen => s.outLen
  | .lastCmd => s.lastCmd

/-- Window byte `b` of the IV window, 20_memory.md R78. -/
def readIv (s : State) (b : Nat) : Byte := if b < s.cfg.n then storedByte s (ivBase + b) else 0

/-- Window byte `b` of the IN window, 20_memory.md R79. -/
def readIn (s : State) (b : Nat) : Byte := if b < s.cfg.inCap then storedByte s (inBase + b) else 0

/-- Window byte `b` of the OUT window, 20_memory.md R80. -/
def readOut (s : State) (b : Nat) : Byte :=
  if s.status.ok = true ∧ s.phase = .idle ∧ b < s.outLen.toNat then storedByte s (outBase + b) else 0

/-- `BusRead(off)`, 20_memory.md R71 to R73, R77; 0 while in reset (70_reset_and_hazards.md R290). -/
def busRead (s : State) (off : Nat) : Word :=
  if s.rstN = false then 0
  else
    match place (wordOffset off) with
    | .reg r => readReg s r
    | .iv b => ofLanes fun j => readIv s (b + j)
    | .inp b => ofLanes fun j => readIn s (b + j)
    | .out b => ofLanes fun j => readOut s (b + j)
    | .reserved => 0

/-- An operand write, 43_facade.md R233: dropped while BUSY, performed otherwise. -/
def operandWrite (s : State) (performed : State) : State := if s.phase = .busy then dropWrite s else performed

/-- Store the strobed lanes of a word into the bytes of a window below `limit`, 20_memory.md R74, R77 to R79. -/
def writeWindow (m : List Host.Cell) (base b limit : Nat) (data : Word) (strb : Strobe) : List Host.Cell :=
  [0, 1, 2, 3].foldl
    (fun m j => if strb.getLsbD j = true ∧ b + j < limit then Memory.write m (base + (b + j)) (lane data j) else m) m

/-- Whether a write to the window word at `b` is an operand write, 43_facade.md R233: a strobed lane is below the storage's limit,
or no lane is strobed and the word begins there (20_memory.md R74; log 11). A write that strobes only bytes beyond the storage is
none (R77). -/
def reachesStorage (b limit : Nat) (strb : Strobe) : Bool :=
  decide (b < limit) && (strb == 0#4 || [0, 1, 2, 3].any fun j => strb.getLsbD j && decide (b + j < limit))

/-- A write to a word of the IV or IN window, 20_memory.md R77 to R79: an operand write, or ignored. -/
def windowWrite (s : State) (base b limit : Nat) (data : Word) (strb : Strobe) : State :=
  if reachesStorage b limit strb then
    operandWrite s { s with mem := writeWindow s.mem base b limit data strb }
  else s

/-- A command word presented to CMD, 43_facade.md R220 to R223: the command's meaning, or, for a word that spells no command, a
command that stops at check 1. -/
def presentWord (s : State) (w : Word) : Outcome :=
  match decode w with
  | .ok i => exec i s
  | .error _ => .next (present s w none (.error .illegalCmd))

/-- `BusWrite(off, data, strb)` out of reset, 20_memory.md R74 to R82. -/
def writePlace (s : State) (p : Place) (data : Word) (strb : Strobe) : Outcome :=
  match p with
  | .reg .cmd => presentWord s (maskLanes data strb)
  | .reg .status => .next (writeStatus s data strb)
  | .reg .ie => .next (writeIe s data strb)
  | .reg .ivLen => .next (operandWrite s { s with ivLen := mergeLanes s.ivLen data strb })
  | .reg .inLen => .next (operandWrite s { s with inLen := mergeLanes s.inLen data strb })
  | .iv b => .next (windowWrite s ivBase b s.cfg.n data strb)
  | .inp b => .next (windowWrite s inBase b s.cfg.inCap data strb)
  | .out _ => .next s
  | .reg _ => .next s
  | .reserved => .next s

/-- A host write: ignored in reset (70_reset_and_hazards.md R290). Every write moves the stamp of host reads (log 4). -/
def busWrite (s : State) (off : Nat) (data : Word) (strb : Strobe) : Outcome :=
  if s.rstN = false then .next s
  else writePlace { s with epoch := s.epoch + 1 } (place (wordOffset off)) data strb

/-- Whether a platform address is in MOCE's register space, 20_memory.md R70. -/
def inRegisterSpace (s : State) (addr : Nat) : Bool :=
  decide (s.cfg.base ≤ addr) && decide (addr < s.cfg.base + 0x40000)

/-- The bus access at the offset of a platform address, 00_scope.md R13; an address outside the register space is none of
MOCE's (log 12). -/
def atOffset (s : State) (addr : Nat) (access : Nat → Outcome) : Outcome :=
  if inRegisterSpace s addr then access (addr - s.cfg.base) else .fault .outsideRegisterSpace

/-- `poll` reads once; unless the masked result is the value it reads again, after the engine has moved once (30_encoding.md R111;
the weak fairness of 43_facade.md R232; log 9). -/
def pollOnce (s : State) (addr off : Nat) (mask value : Word) : State :=
  let r := busRead s off
  if r &&& mask = value then { s with readData := r }
  else { s with readData := r, inputs := .engine :: .poll addr mask value :: s.inputs }

/-- What one event does; `s` no longer holds the event. -/
def handleEvent (e : Event) (s : State) : Outcome :=
  match e with
  | .read addr => atOffset s addr fun off => .next { s with readData := busRead s off }
  | .write addr data strb => atOffset s addr fun off => busWrite s off data strb
  | .poll addr mask value => atOffset s addr fun off => .next (pollOnce s addr off mask value)
  | .engine => .next (engineMove s)
  | .resetLow => .next (enterReset s)
  | .resetHigh => .next (leaveReset s)
  | .rekey t => if s.phase = .busy then .refused .keyChangeWhileBusy else .next { s with bt := t }
  | .strayBtAnswer _ => if s.btPending.isSome then .refused .btAnswerOutsidePremises else .next s

end Sys2Proof.Machine
end

