-- ==== Sys2Proof/Machine/Step.lean ====
section
/-! DEFINITION. One step of MOCE: the next event, or, when none is to come, a move of the engine (20_memory.md R83, 43_facade.md R232). -/

namespace Sys2Proof.Machine

/-- One step. With no event to come, the engine moves, so a running command completes (weak fairness, 43_facade.md R232), and an
idle MOCE waits (70_reset_and_hazards.md R293). -/
def step (s : State) : Host.Outcome State Fault Refusal :=
  match s.inputs with
  | [] => .next (engineMove s)
  | e :: rest => handleEvent e { s with inputs := rest }

/-- The state whose very next step presents the command word `w` to CMD of an idle MOCE out of reset (log 21): the write is
placed before the events to come. -/
def State.withFetchWord (s : State) (nbits w : Nat) : State :=
  { s with
    rstN := true
    phase := .idle
    inputs := .write (s.cfg.base + 0x010) (tableWord nbits w) 0xF#4 :: s.inputs }

end Sys2Proof.Machine
end

