-- ==== Sys2Proof/Safety.lean ====
section
/-! DEFINITION. What a safe run of MOCE is, in the terms the claims use: the invariants of 10_state.md R55, the invariant of the
model that contains them, the conditions under which a command runs (43_facade.md R222), written from that rule's text apart from
the commands' own rules, and what it is for a command to have run. -/

namespace Sys2Proof.Safety

open Sys2Proof.Machine

/-- The invariants of 10_state.md R55. -/
structure Consistent (s : State) : Prop where
  /-- "STATUS.BUSY = 1 implies STATUS.DONE = 0, STATUS.OK = 0, ERROR = 0 and OUT_LEN = 0." -/
  busyClean : s.phase = .busy →
    s.status.done = false ∧ s.status.ok = false ∧ s.error = { cls := .none, cause := .none } ∧ s.outLen = 0
  /-- "STATUS.OK = 1 implies ERROR.CLASS = 0." -/
  okNoError : s.status.ok = true → s.error.cls = .none
  /-- "ERROR.CLASS = 0 implies ERROR.CAUSE = 0." -/
  noClassNoCause : s.error.cls = .none → s.error.cause = .none
  /-- "OUT_LEN != 0 implies STATUS.OK = 1." -/
  outLenOk : s.outLen ≠ 0 → s.status.ok = true
  /-- "OUT_LEN <= OUT_CAP." -/
  outLenCap : s.outLen.toNat ≤ s.cfg.outCap

/-- Whether an offset is in the storage of a window, 10_state.md R48 to R50. -/
def inStorage (c : Config) (off : Nat) : Bool :=
  (decide (ivBase ≤ off) && decide (off < ivBase + c.n)) || (decide (inBase ≤ off) && decide (off < inBase + c.inCap)) ||
    (decide (outBase ≤ off) && decide (off < outBase + c.outCap))

/-- Every register is at its reset value and the input buffer unwritten: the state when `rst_n` rises, 70_reset_and_hazards.md R290 to
R292, and in the model from its fall on (log 15). -/
structure AtReset (s : State) : Prop where
  phase : s.phase = .idle
  status : s.status = { done := false, ok := false, busyErr := false }
  error : s.error = { cls := .none, cause := .none }
  ie : s.ie = { doneIe := false, busyErrIe := false }
  ivLen : s.ivLen = 0
  inLen : s.inLen = 0
  outLen : s.outLen = 0
  lastCmd : s.lastCmd = 0
  btPending : s.btPending = none
  iv : ivBytes s = List.replicate s.cfg.n 0#8
  input : ∀ j, j < s.cfg.inCap → Memory.read s.mem (inBase + j) = none

/-- The engine and the BT port are where the blocks done so far leave them: BLK and the chaining registers (10_state.md R51; what they
hold where the spec is silent is the model's, log 24, log 25, log 26), the requests made (43_facade.md R237), the outstanding request (R234), and the output blocks the command's rule has written (log 18). -/
def OnTrack (s : State) : Prop :=
  match curJob s.cur s with
  | .stop _ => s.btPending = none ∧ s.btLog = []
  | .work w =>
    match w.rule with
    | none => s.btPending = none ∧ s.btLog = []
    | some r =>
      let sofar := runBlocks s.bt s.cfg.n r (initialChaining s) ((blocks s.cfg.n w.input).take s.blk)
      s.blk ≤ blockCount s.cfg.n w.input.length ∧
      s.chaining = sofar.last ∧
      s.btLog = sofar.requests ++ s.btPending.toList ∧
      (∀ q, s.btPending = some q →
        s.blk < blockCount s.cfg.n w.input.length ∧
        q = r.request s.cfg.n s.chaining (blockAt s.cfg.n w.input s.blk)) ∧
      (w.writesBlocks = true → ∀ j b, sofar.output[j]? = some b → Memory.read s.mem (outBase + j) = some b)

/-- The invariant of the machine. -/
structure Inv (s : State) : Prop where
  /-- The parameters are legal, 00_scope.md R9, R10, R13. -/
  legal : s.cfg.legal = true
  /-- Memory has its canonical form. -/
  memCanonical : Memory.wf s.mem = true
  /-- Memory lists storage only, 20_memory.md R77. -/
  memInStorage : ∀ c, c ∈ s.mem → inStorage s.cfg c.1 = true
  /-- 10_state.md R55. -/
  consistent : Consistent s
  /-- RES is `Exec` of the operands as they stand, which are those of the accept, 43_facade.md R220, R233. -/
  resIsExec : s.phase = .busy → s.res = (curJob s.cur s).result s
  /-- Requests go out "only while BUSY", 43_facade.md R234. -/
  noRequestIdle : s.phase = .idle → s.btPending = none
  /-- The engine is on track while BUSY. -/
  onTrack : s.phase = .busy → OnTrack s
  /-- While `rst_n` is low every register holds its reset value: the model's (log 15); 70_reset_and_hazards.md R290 says it of the
  rise. -/
  inReset : s.rstN = false → AtReset s

/-- MOCE takes a command: out of reset and STATUS.BUSY = 0, 43_facade.md R220. -/
def Ready (s : State) : Prop := s.rstN = true ∧ s.phase = .idle

/-- The scheme of a command that uses padding, 00_scope.md R21; none for a stream-like command. -/
def paddingUsed : Instr → Option Padding
  | .encEcb p | .encCbc p | .encPcbc p | .decEcb p | .decCbc p | .decPcbc p | .pad p | .unpad p => some p
  | .encCfb _ | .encOfb _ | .encCtr _ | .decCfb _ | .decOfb _ | .decCtr _ => none

/-- Whether a command needs an IV, 30_encoding.md R103: ENC and DEC in every mode but ECB. -/
def needsIv : Instr → Bool
  | .encEcb _ | .decEcb _ | .pad _ | .unpad _ => false
  | .encCbc _ | .encPcbc _ | .decCbc _ | .decPcbc _ => true
  | .encCfb _ | .encOfb _ | .encCtr _ | .decCfb _ | .decOfb _ | .decCtr _ => true

/-- Whether a command checks that IN_LEN is a multiple of N, 43_facade.md R222 check 5. -/
def needsAlignment : Instr → Bool
  | .encEcb p | .encCbc p | .encPcbc p | .pad p => p == .none
  | .decEcb _ | .decCbc _ | .decPcbc _ | .unpad _ => true
  | .encCfb _ | .encOfb _ | .encCtr _ | .decCfb _ | .decOfb _ | .decCtr _ => false

/-- The first of the checks 2 to 5 of 43_facade.md R222 that fails, as that rule lists them; check 1 has passed for an `Instr`. -/
def firstFailing (i : Instr) (s : State) : Option Cause :=
  if (paddingUsed i = some .pkcs7 ∨ paddingUsed i = some .x923) ∧ 255 < s.cfg.n then some .padBlockSize
  else if s.cfg.inCap < s.inLen.toNat then some .lenExceedsCap
  else if needsIv i = true ∧ s.ivLen.toNat ≠ s.cfg.n then some .ivLength
  else if needsAlignment i = true ∧ s.inLen.toNat % s.cfg.n ≠ 0 then some .notAligned
  else none

/-- A command runs: the parameters are legal, MOCE takes it, and the checks 2 to 5 pass. The conditions are on the state and
the operands alone. -/
structure Runs (i : Instr) (s : State) : Prop where
  legal : s.cfg.legal = true
  ready : Ready s
  checks : firstFailing i s = none

/-- The output `Y` has been committed, 43_facade.md R230: what the host sees is exactly `Y`. -/
structure ShowsOutput (u : State) (y : Bytes) : Prop where
  idle : u.phase = .idle
  status : u.status.done = true ∧ u.status.ok = true
  error : u.error = { cls := .none, cause := .none }
  outLen : u.outLen.toNat = y.length
  window : ∀ b, readOut u b = y.getD b 0#8

/-- An error has been committed, 43_facade.md R231, R236: its class and cause are reported and no output is visible. -/
structure ShowsError (u : State) (c : Cause) : Prop where
  idle : u.phase = .idle
  status : u.status.done = true ∧ u.status.ok = false
  error : u.error = { cls := c.cls, cause := c }
  outLen : u.outLen = 0
  window : ∀ b, readOut u b = 0#8

/-- What a result looks like once it is committed. -/
def Shows (u : State) : Result → Prop
  | .output y => ShowsOutput u y
  | .error c => ShowsError u c

/-- What a command must leave alone from its accept to its completion, 10_state.md R53, 43_facade.md R238: the parameters, the
transform, IE, IV_LEN, IN_LEN, BUSY_ERR, the bus and every byte of the IV storage and the input buffer. -/
structure OperandsKept (s u : State) : Prop where
  cfg : u.cfg = s.cfg
  bt : u.bt = s.bt
  rstN : u.rstN = s.rstN
  ie : u.ie = s.ie
  ivLen : u.ivLen = s.ivLen
  inLen : u.inLen = s.inLen
  busyErr : u.status.busyErr = s.status.busyErr
  readData : u.readData = s.readData
  inputs : u.inputs = s.inputs
  storage : ∀ off, off < outBase → Memory.read u.mem off = Memory.read s.mem off

/-- An event whose bus address, if it has one, is in MOCE's register space, 20_memory.md R70. -/
def addressed (s : State) : Event → Bool
  | .read a => inRegisterSpace s a
  | .write a _ _ => inRegisterSpace s a
  | .poll a _ _ => inRegisterSpace s a
  | .engine | .resetLow | .resetHigh | .rekey _ | .strayBtAnswer _ => true

end Sys2Proof.Safety
end

