-- ==== Sys2Proof/Certificates/Slice0/Obligations.lean ====
section
/-! DEFINITION. The statements about MOCE for the provers. Each docstring names the rules of spec/ it formalises. A statement
about every state holds for every legal choice of the parameters and for every block transform, since both are fields of the
state (log 1, log 2), and for every value of the free values. -/

open Sys2Proof Sys2Proof.Machine Sys2Proof.Safety

/-! ## Encoding (30_encoding.md) -/

/-- Decoding and encoding agree on all 2^32 words: a word decodes to a command exactly when it is that command's word
(30_encoding.md R108, R110). -/
def Obligations.DecodeAndEncodeAgree : Prop :=
  ∀ (w : Word) (i : Instr), decode w = .ok i ↔ encode i = w

/-- 30_encoding.md R108: a word spells a command exactly when it matches a row and its PAD field is at most 4; the full word of
a row and a scheme decodes to that row's command; no two rows match one word. -/
def Obligations.DecodeFollowsTheOpcodeMap : Prop :=
  (∀ w : Word, (∃ i, decode w = .ok i) ↔
    ∃ row ∈ opcodeRows, w &&& 0xFFFF8FFF#32 = row.1 ∧ (w.extractLsb' 12 3).toNat ≤ 4) ∧
  (∀ row ∈ opcodeRows, ∀ p : Padding, decode (row.1 ||| (p.field.zeroExtend 32 <<< 12)) = .ok (row.2 p)) ∧
  (opcodeRows.map Prod.fst).Nodup

/-- 30_encoding.md R109: a word is illegal exactly when one of the five items holds, and exactly when its fields are not well
formed by the field tables of R101 to R104 and R107. -/
def Obligations.IllegalWordsAreTheFiveItems : Prop :=
  ∀ w : Word,
    ((∃ e, decode w = .error e) ↔
      (w &&& 0xFFFF88F0#32 ≠ 0#32 ∨
        (w.extractLsb' 0 4).toNat ∉ [1, 2, 3, 4] ∨
        ((w.extractLsb' 0 4).toNat ∈ [1, 2] ∧ (w.extractLsb' 8 3).toNat ∈ [6, 7]) ∨
        (w.extractLsb' 12 3).toNat ∈ [5, 6, 7] ∨
        ((w.extractLsb' 0 4).toNat ∈ [3, 4] ∧ w.extractLsb' 8 3 ≠ 0#3))) ∧
    ((∃ e, decode w = .error e) ↔ (Fields.split w).wellFormed = false)

/-- The bytes of a command's word, lane 0 first (20_memory.md R72), followed by any bytes, decode to the command and leave the
bytes after it. -/
def Obligations.BytesOfACommandDecodeToIt : Prop :=
  ∀ (i : Instr) (rest : Bytes),
    decodeBytes ([lane (encode i) 0, lane (encode i) 1, lane (encode i) 2, lane (encode i) 3] ++ rest) =
      some (.ok i, rest) ∧
    decodeTableWord 32 (encode i).toNat = some i

/-- Words written out from the spec: the examples of 30_encoding.md R108 and R111 and of 95_test_vectors.md section 3. -/
def Obligations.WordsOfTheSpecDecode : Prop :=
  decode 0x00002101#32 = .ok (.encCbc .pkcs7) ∧ decode 0x00001004#32 = .ok (.unpad .bit) ∧
  decode 0x00000501#32 = .ok (.encCtr .none) ∧ decode 0x00002102#32 = .ok (.decCbc .pkcs7) ∧
  decode 0x00004502#32 = .ok (.decCtr .iso7816) ∧ decode 0x00002003#32 = .ok (.pad .pkcs7) ∧
  decode 0x00000000#32 = .error .reservedOp ∧ decode 0x00000601#32 = .error .reservedMode ∧
  decode 0x00007301#32 = .error .reservedPad ∧ decode 0x00000103#32 = .error .modeWithPadding ∧
  decode 0x80000001#32 = .error .reservedBit

/-! ## Steps and accepts (43_facade.md sections 1 and 2) -/

/-- When the next event is a host write to CMD of a word that spells the command `i`, the step is `exec i` of the state without
the event and with the stamp of host reads one up (log 10): 20_memory.md R75, R76, 43_facade.md R220. -/
def Obligations.StepRunsTheCommandWritten : Prop :=
  ∀ (s : State) (addr : Nat) (data : Word) (strb : Strobe) (rest : List Event) (i : Instr),
    s.rstN = true → s.inputs = .write addr data strb :: rest → inRegisterSpace s addr = true →
    wordOffset (addr - s.cfg.base) = 0x010 → decode (maskLanes data strb) = .ok i →
    step s = exec i { s with inputs := rest, epoch := s.epoch + 1 }

/-- The very next step of `withFetchWord` runs the command its word decodes to. -/
def Obligations.FetchedWordIsRunNext : Prop :=
  ∀ (s : State) (nbits w : Nat) (i : Instr), decodeTableWord nbits w = some i →
    step (s.withFetchWord nbits w) = exec i { s with rstN := true, phase := .idle, epoch := s.epoch + 1 }

/-- 43_facade.md R220: what the accept of each of the fourteen commands writes, and its frame: no byte of memory changes, nor any
register but those the rule names. CHAIN and CTRV are loaded from the IV storage (10_state.md R52). Three clauses are the model's: that
BLK is 0, also in a command without blocks (log 24), that a command which uses neither CHAIN nor CTRV loads them too (log 25), and that
the record of requests is cleared (log 17). -/
def Obligations.AcceptWritesItsRegistersOnly : Prop :=
  ∀ (i : Instr) (s : State), Ready s →
    ∃ t, exec i s = .next t ∧
      t.lastCmd = encode i ∧ t.phase = .busy ∧ t.status.done = false ∧ t.status.ok = false ∧
      t.error = { cls := .none, cause := .none } ∧ t.outLen = 0 ∧ t.cur = some i ∧
      t.blk = 0 ∧ t.chaining.chain = ivBytes s ∧ t.chaining.ctrv = intBe (ivBytes s) ∧
      t.btPending = none ∧ t.btLog = [] ∧ OperandsKept s t ∧ (∀ off, Memory.read t.mem off = Memory.read s.mem off)

/-- 43_facade.md R221: a CMD write while BUSY is dropped and only sets BUSY_ERR, whatever its word and strobes. -/
def Obligations.CommandWriteWhileBusyIsDropped : Prop :=
  ∀ (s : State) (addr : Nat) (data : Word) (strb : Strobe) (rest : List Event),
    s.rstN = true → s.phase = .busy → s.inputs = .write addr data strb :: rest → inRegisterSpace s addr = true →
    wordOffset (addr - s.cfg.base) = 0x010 →
    step s = .next { s with
      status := { s.status with busyErr := true }
      epoch := s.epoch + 1
      inputs := rest }

/-- 60_exceptions.md R253, 43_facade.md R220, R223: a word that spells no command is accepted, and completes with CommandError
ILLEGAL_CMD with no BT request and no output. -/
def Obligations.IllegalWordCompletesWithCommandError : Prop :=
  ∀ (s : State) (addr : Nat) (data : Word) (strb : Strobe) (rest : List Event) (e : Illegal),
    Ready s → s.inputs = .write addr data strb :: rest → inRegisterSpace s addr = true →
    wordOffset (addr - s.cfg.base) = 0x010 → decode (maskLanes data strb) = .error e →
    ∃ t, step s = .next t ∧ t.phase = .busy ∧ t.lastCmd = maskLanes data strb ∧ t.status.done = false ∧
      ShowsError (engineMove t) .illegalCmd ∧ (engineMove t).btLog = [] ∧ errorWord (engineMove t) = 0x00000103#32

/-- 60_exceptions.md R259 and the checks 2 to 5 of 43_facade.md R222: the error reported is the first in the check order; when
those checks pass, the only error left is BAD_PADDING. -/
def Obligations.ErrorsAreReportedInCheckOrder : Prop :=
  ∀ (i : Instr) (s : State), Ready s →
    ∃ t, exec i s = .next t ∧
      (∀ c, firstFailing i s = some c → t.res = .error c ∧ (commandJob i s).requests s = []) ∧
      (firstFailing i s = none → ∀ c, t.res = .error c → c = .badPadding)

/-! ## What the commands compute (41_block_modes.md, 42_stream_modes.md, 40_padding.md)

Each statement says that the command completes: `exec` answers a next state whose RES is the result, and the engine, left to
itself, commits it. -/

/-- 41_block_modes.md R161, R162: ECB transforms each block of the padded message by itself; the IV and IV_LEN play no part. -/
def Obligations.EcbTransformsEachBlock : Prop :=
  (∀ (p : Padding) (s : State), Runs (.encEcb p) s →
    ∃ x y t k, pad s.cfg.n p (message s) = .output x ∧
      exec (.encEcb p) s = .next t ∧ t.res = .output y ∧ ShowsOutput (engineMoves k t) y ∧
      y.length = x.length ∧
      ∀ j, j < blockCount s.cfg.n x.length →
        blockAt s.cfg.n y j = encryptBlock s.bt s.cfg.n (blockAt s.cfg.n x j)) ∧
  (∀ (p : Padding) (s : State), Runs (.decEcb p) s →
    ∃ z t k, exec (.decEcb p) s = .next t ∧ t.res = unpad s.cfg.n p z ∧ Shows (engineMoves k t) (unpad s.cfg.n p z) ∧
      z.length = s.inLen.toNat ∧
      ∀ j, j < blockCount s.cfg.n s.inLen.toNat →
        blockAt s.cfg.n z j = decryptBlock s.bt s.cfg.n (blockAt s.cfg.n (message s) j))

/-- 41_block_modes.md R163, R164: "`C[0] = Encrypt(P[0] XOR IV)`; `C[i] = Encrypt(P[i] XOR C[i-1])`" and its inverse. -/
def Obligations.CbcChainsOnTheCiphertext : Prop :=
  (∀ (p : Padding) (s : State), Runs (.encCbc p) s →
    ∃ x y t k, pad s.cfg.n p (message s) = .output x ∧
      exec (.encCbc p) s = .next t ∧ t.res = .output y ∧ ShowsOutput (engineMoves k t) y ∧
      y.length = x.length ∧
      ∀ j, j < blockCount s.cfg.n x.length →
        blockAt s.cfg.n y j = encryptBlock s.bt s.cfg.n
          (xorBytes (blockAt s.cfg.n x j) (if j = 0 then ivBytes s else blockAt s.cfg.n y (j - 1)))) ∧
  (∀ (p : Padding) (s : State), Runs (.decCbc p) s →
    ∃ z t k, exec (.decCbc p) s = .next t ∧ t.res = unpad s.cfg.n p z ∧ Shows (engineMoves k t) (unpad s.cfg.n p z) ∧
      z.length = s.inLen.toNat ∧
      ∀ j, j < blockCount s.cfg.n s.inLen.toNat →
        blockAt s.cfg.n z j = xorBytes (decryptBlock s.bt s.cfg.n (blockAt s.cfg.n (message s) j))
          (if j = 0 then ivBytes s else blockAt s.cfg.n (message s) (j - 1)))

/-- 41_block_modes.md R165, R166: "`C[i] = Encrypt(P[i] XOR P[i-1] XOR C[i-1])` with `P[-1] XOR C[-1] = IV`" and its inverse. -/
def Obligations.PcbcChainsOnPlaintextAndCiphertext : Prop :=
  (∀ (p : Padding) (s : State), Runs (.encPcbc p) s →
    ∃ x y t k, pad s.cfg.n p (message s) = .output x ∧
      exec (.encPcbc p) s = .next t ∧ t.res = .output y ∧ ShowsOutput (engineMoves k t) y ∧
      y.length = x.length ∧
      ∀ j, j < blockCount s.cfg.n x.length →
        blockAt s.cfg.n y j = encryptBlock s.bt s.cfg.n
          (xorBytes (blockAt s.cfg.n x j)
            (if j = 0 then ivBytes s else xorBytes (blockAt s.cfg.n x (j - 1)) (blockAt s.cfg.n y (j - 1))))) ∧
  (∀ (p : Padding) (s : State), Runs (.decPcbc p) s →
    ∃ z t k, exec (.decPcbc p) s = .next t ∧ t.res = unpad s.cfg.n p z ∧ Shows (engineMoves k t) (unpad s.cfg.n p z) ∧
      z.length = s.inLen.toNat ∧
      ∀ j, j < blockCount s.cfg.n s.inLen.toNat →
        blockAt s.cfg.n z j = xorBytes (decryptBlock s.bt s.cfg.n (blockAt s.cfg.n (message s) j))
          (if j = 0 then ivBytes s
            else xorBytes (blockAt s.cfg.n z (j - 1)) (blockAt s.cfg.n (message s) (j - 1))))

/-- 42_stream_modes.md R191, R192: "`K[i] = Encrypt(C[i-1])` (`C[-1] = IV`); `C[i] = P[i] XOR K[i]`", decryption with the same
keystream; the last keystream block is cut to the length of the last block. -/
def Obligations.CfbFeedsTheCiphertextBack : Prop :=
  (∀ (p : Padding) (s : State), Runs (.encCfb p) s →
    ∃ y t k, exec (.encCfb p) s = .next t ∧ t.res = .output y ∧ ShowsOutput (engineMoves k t) y ∧
      y.length = s.inLen.toNat ∧
      ∀ j, j < blockCount s.cfg.n s.inLen.toNat →
        blockAt s.cfg.n y j = xorBytes (blockAt s.cfg.n (message s) j)
          ((encryptBlock s.bt s.cfg.n (if j = 0 then ivBytes s else blockAt s.cfg.n y (j - 1))).take
            (blockAt s.cfg.n (message s) j).length)) ∧
  (∀ (p : Padding) (s : State), Runs (.decCfb p) s →
    ∃ y t k, exec (.decCfb p) s = .next t ∧ t.res = .output y ∧ ShowsOutput (engineMoves k t) y ∧
      y.length = s.inLen.toNat ∧
      ∀ j, j < blockCount s.cfg.n s.inLen.toNat →
        blockAt s.cfg.n y j = xorBytes (blockAt s.cfg.n (message s) j)
          ((encryptBlock s.bt s.cfg.n (if j = 0 then ivBytes s else blockAt s.cfg.n (message s) (j - 1))).take
            (blockAt s.cfg.n (message s) j).length))

/-- 42_stream_modes.md R193, R194: "`K[0] = Encrypt(IV)`, `K[i] = Encrypt(K[i-1])`; `C[i] = P[i] XOR K[i]`", the same for ENC and
DEC; the keystream depends on the IV and the transform only. -/
def Obligations.OfbRunsTheKeystream : Prop :=
  ∀ (p : Padding) (i : Instr) (s : State), i = .encOfb p ∨ i = .decOfb p → Runs i s →
    ∃ y t k, exec i s = .next t ∧ t.res = .output y ∧ ShowsOutput (engineMoves k t) y ∧
      y.length = s.inLen.toNat ∧
      ∀ j, j < blockCount s.cfg.n s.inLen.toNat →
        blockAt s.cfg.n y j = xorBytes (blockAt s.cfg.n (message s) j)
          (((encryptBlock s.bt s.cfg.n)^[j + 1] (ivBytes s)).take (blockAt s.cfg.n (message s) j).length)

/-- 42_stream_modes.md R195, R196, R197: "`K[i] = Encrypt(IV + i)`" with the big-endian counter modulo `2^(8N)`; "`C[i] = P[i] XOR
K[i]`", the same for ENC and DEC. -/
def Obligations.CtrEncryptsTheCounter : Prop :=
  ∀ (p : Padding) (i : Instr) (s : State), i = .encCtr p ∨ i = .decCtr p → Runs i s →
    ∃ y t k, exec i s = .next t ∧ t.res = .output y ∧ ShowsOutput (engineMoves k t) y ∧
      y.length = s.inLen.toNat ∧
      ∀ j, j < blockCount s.cfg.n s.inLen.toNat →
        blockAt s.cfg.n y j = xorBytes (blockAt s.cfg.n (message s) j)
          ((encryptBlock s.bt s.cfg.n (beBytes s.cfg.n ((intBe (ivBytes s) + j) % 2 ^ (8 * s.cfg.n)))).take
            (blockAt s.cfg.n (message s) j).length)

/-- 40_padding.md R120 to R125, R134: PAD appends `k = N - (L mod N)` bytes, `1 <= k <= N`, as its scheme says; None appends nothing. -/
def Obligations.PadAppendsItsScheme : Prop :=
  ∀ (p : Padding) (s : State), Runs (.pad p) s →
    ∃ y t u, exec (.pad p) s = .next t ∧ t.res = .output y ∧ engineMove t = u ∧ ShowsOutput u y ∧ u.btLog = [] ∧
      let k := s.cfg.n - s.inLen.toNat % s.cfg.n
      1 ≤ k ∧ k ≤ s.cfg.n ∧
      y = message s ++ (match p with
        | .none => []
        | .bit => 0x80#8 :: List.replicate (k - 1) 0x00#8
        | .pkcs7 => List.replicate k (BitVec.ofNat 8 k)
        | .x923 => List.replicate (k - 1) 0x00#8 ++ [BitVec.ofNat 8 k]
        | .iso7816 => 0x80#8 :: List.replicate (k - 1) 0x00#8) ∧
      y.length % s.cfg.n = 0 ∧ y.length ≤ s.cfg.outCap

/-- 40_padding.md R126 to R131, R135: UNPAD gives the message without its padding when `pad` could have produced it, and raises
BAD_PADDING exactly otherwise; None takes the message as it is. -/
def Obligations.UnpadStripsExactlyWhatPadWrites : Prop :=
  ∀ (p : Padding) (s : State), Runs (.unpad p) s →
    ∃ t u, exec (.unpad p) s = .next t ∧ engineMove t = u ∧ Shows u t.res ∧ u.btLog = [] ∧
      (∀ x, t.res = .output x ↔ pad s.cfg.n p x = .output (message s)) ∧
      ((∀ x, pad s.cfg.n p x ≠ .output (message s)) → t.res = .error .badPadding)

/-! ## Padding laws (40_padding.md sections 2 and 3) -/

/-- 40_padding.md R126: the validator accepts exactly the block-aligned sequences that `pad` produces, strips exactly what it
appended, and raises BAD_PADDING on every other. -/
def Obligations.ValidatorAcceptsExactlyPaddedSequences : Prop :=
  ∀ (n : Nat) (p : Padding) (b : Bytes), 1 ≤ n → n ≤ 256 → (p = .pkcs7 ∨ p = .x923 → n ≤ 255) → b.length % n = 0 →
    (∀ x, unpad n p b = .output x ↔ pad n p x = .output b) ∧
    ((∀ x, pad n p x ≠ .output b) → unpad n p b = .error .badPadding)

/-- 40_padding.md R132: `unpad(pad(X, s), s) = X` for every scheme but None, whatever the length of `X`, and for None when it is
aligned. -/
def Obligations.UnpadUndoesPad : Prop :=
  ∀ (n : Nat) (p : Padding) (x : Bytes), 1 ≤ n → n ≤ 256 → (p = .pkcs7 ∨ p = .x923 → n ≤ 255) →
    (p = .none → x.length % n = 0) →
    ∃ b, pad n p x = .output b ∧ unpad n p b = .output x

/-- 40_padding.md R133: Bit-padding and ISO 7816-4 are indistinguishable; for `N = 1` PKCS#7 and X.923 both append 0x01, Bit and
ISO 7816-4 append 0x80. -/
def Obligations.BitAndIsoAreIndistinguishable : Prop :=
  (∀ (n : Nat) (x : Bytes), pad n .bit x = pad n .iso7816 x ∧ unpad n .bit x = unpad n .iso7816 x) ∧
  (∀ x : Bytes, pad 1 .pkcs7 x = .output (x ++ [0x01#8]) ∧ pad 1 .x923 x = .output (x ++ [0x01#8]) ∧
    pad 1 .bit x = .output (x ++ [0x80#8]) ∧ pad 1 .iso7816 x = .output (x ++ [0x80#8]))

/-! ## The block transform and its requests (43_facade.md section 5) -/

/-- 00_scope.md R14: `D` inverts `E` on N-byte blocks, and both give N bytes. -/
def Obligations.DecryptBlockInvertsEncryptBlock : Prop :=
  ∀ (t : BlockTransform) (n : Nat) (b : Bytes), b.length = n →
    (encryptBlock t n b).length = n ∧ (decryptBlock t n b).length = n ∧
    decryptBlock t n (encryptBlock t n b) = b ∧ encryptBlock t n (decryptBlock t n b) = b

/-- 41_block_modes.md R167, 43_facade.md R235: a block-aligned command whose checks pass makes one N-byte request for each block of
its padded message (ENC) or message (DEC), all `E` for ENC and all `D` for DEC; one whose checks fail makes none; PAD and UNPAD
make none. -/
def Obligations.BlockModesRequestOncePerBlock : Prop :=
  (∀ (i : Instr) (s : State) (p : Padding), i = .encEcb p ∨ i = .encCbc p ∨ i = .encPcbc p → Runs i s →
    ∃ x, pad s.cfg.n p (message s) = .output x ∧
      ((commandJob i s).requests s).length = x.length / s.cfg.n ∧
      ∀ q, q ∈ (commandJob i s).requests s → q.dir = .enc ∧ q.block.length = s.cfg.n) ∧
  (∀ (i : Instr) (s : State) (p : Padding), i = .decEcb p ∨ i = .decCbc p ∨ i = .decPcbc p → Runs i s →
    ((commandJob i s).requests s).length = s.inLen.toNat / s.cfg.n ∧
      ∀ q, q ∈ (commandJob i s).requests s → q.dir = .dec ∧ q.block.length = s.cfg.n) ∧
  (∀ (i : Instr) (s : State) (c : Cause), firstFailing i s = some c → (commandJob i s).requests s = []) ∧
  (∀ (p : Padding) (s : State), (padJob p s).requests s = [] ∧ (unpadJob p s).requests s = [])

/-- 42_stream_modes.md R198: a stream-like command makes `ceil(IN_LEN / N)` requests when its checks pass and none otherwise, every
one `E` and of N bytes. -/
def Obligations.StreamModesRequestEncryptOnly : Prop :=
  ∀ (i : Instr) (s : State), paddingUsed i = none →
    (Runs i s → ((commandJob i s).requests s).length = blockCount s.cfg.n s.inLen.toNat) ∧
    ((∃ c, firstFailing i s = some c) → (commandJob i s).requests s = []) ∧
    (s.cfg.legal = true → ∀ q, q ∈ (commandJob i s).requests s → q.dir = .enc ∧ q.block.length = s.cfg.n)

/-! ## Running to completion (43_facade.md section 3) -/

/-- 43_facade.md R220, R230 to R232, R237: the sequencer refines `Exec`. From the accept of any command the engine, one request and one
answer at a time, completes within `2M + 1` moves, where `M` is the number of its requests; it then shows exactly the result
that `Exec` gave at the accept, has made exactly the requests the command determines, and has kept the operands. -/
def Obligations.EngineCompletesWithTheResultOfExec : Prop :=
  ∀ (i : Instr) (s : State), s.cfg.legal = true → Ready s →
    ∃ t k, exec i s = .next t ∧ t.res = (commandJob i s).result s ∧
      k ≤ 2 * ((commandJob i s).requests s).length + 1 ∧
      (∀ j, j < k → (engineMoves j t).phase = .busy) ∧
      Shows (engineMoves k t) t.res ∧ (engineMoves k t).btLog = (commandJob i s).requests s ∧
      OperandsKept s (engineMoves k t)

/-- With no event to come, a step is a move of the engine: a number of steps is that number of moves. -/
def Obligations.StepsWithoutEventsAreEngineMoves : Prop :=
  ∀ (k : Nat) (s : State), s.inputs = [] → Sys2Proof.core.run k s = .next (engineMoves k s)

/-- 43_facade.md R230: what a successful completion writes, and that it writes nothing else: the bytes of `OUT[0..|Y|)` and no other byte
of memory. -/
def Obligations.SuccessfulCompletionCommitsTheOutput : Prop :=
  ∀ (s : State) (y : Bytes), s.res = .output y → y.length < 2 ^ 32 →
    ShowsOutput (complete s) y ∧ outBytes (complete s) y.length = y ∧ OperandsKept s (complete s) ∧
    (complete s).lastCmd = s.lastCmd ∧
    ∀ off, off < outBase ∨ outBase + y.length ≤ off → Memory.read (complete s).mem off = Memory.read s.mem off

/-- 43_facade.md R231: what a failing completion writes, and that no byte of memory and no other register changes. -/
def Obligations.FailingCompletionShowsNoOutput : Prop :=
  ∀ (s : State) (c : Cause), s.res = .error c →
    ShowsError (complete s) c ∧ OperandsKept s (complete s) ∧ (complete s).lastCmd = s.lastCmd ∧
    ∀ off, Memory.read (complete s).mem off = Memory.read s.mem off

/-- 20_memory.md R86, 43_facade.md R238, 10_state.md R53: a move of the engine keeps the operands and LAST_CMD, and the only bytes of memory
it may change are those of the output block it makes, `OUT[BLK*N .. BLK*N + |X_BLK|)`, where the command's rule writes each block as
it is made (log 18), and, at the completion, of the output. -/
def Obligations.EngineMoveWritesOutputOnly : Prop :=
  ∀ (s : State), Inv s →
    OperandsKept s (engineMove s) ∧ (engineMove s).lastCmd = s.lastCmd ∧
    ∀ off, Memory.read (engineMove s).mem off ≠ Memory.read s.mem off →
      s.phase = .busy ∧
      ((∃ w, curJob s.cur s = .work w ∧ w.writesBlocks = true ∧ s.btPending ≠ none ∧ outBase + s.blk * s.cfg.n ≤ off ∧
          off < outBase + s.blk * s.cfg.n + (blockAt s.cfg.n w.input s.blk).length) ∨
        (∃ y, s.res = .output y ∧ engineMove s = complete s ∧ outBase ≤ off ∧ off < outBase + y.length))

/-! ## Invariants and whole-machine rules -/

/-- Every step keeps the invariant `Inv`: the canonical form and the range of memory, the implications of 10_state.md R55, RES
being `Exec` of the frozen operands, the engine being on track, and the reset values while `rst_n` is low. These clauses are the
model's:
- the split of a command into moves and the record of its requests (log 8, log 17);
- that the output blocks of an ENC in a block-aligned mode and of a stream-like command stand in the output buffer as they are made
  (log 18);
- that the registers hold their reset values from the fall of `rst_n` on (log 15; 70_reset_and_hazards.md R290 says it of the rise);
- that BLK stands at M after the last answer (log 24);
- that KS is zero before the first answer, and what CHAIN, CTRV and KS hold in a command that does not use them (log 25);
- that CHAIN is the partial block alone after a partial last block of CFB (log 26). -/
def Obligations.StepKeepsTheInvariant : Prop :=
  ∀ s t : State, Inv s → step s = .next t → Inv t

/-- The state after reset meets the invariant, for every legal choice of the parameters and every transform. -/
def Obligations.ResetMeetsTheInvariant : Prop :=
  ∀ (c : Config) (t : BlockTransform), c.legal = true → Inv (State.resetWith c t)

/-- 10_state.md R55: "After a completion and before the next accept, exactly one of STATUS.OK = 1 and ERROR.CLASS != 0 holds": a
completion leaves exactly one, and a step that begins and ends IDLE out of reset keeps both. -/
def Obligations.ExactlyOneOfOkAndErrorAfterCompletion : Prop :=
  (∀ s : State, Inv s → s.phase = .busy → (engineMove s).phase = .idle →
    ((engineMove s).status.ok = true ↔ (engineMove s).error.cls = .none)) ∧
  (∀ s t : State, s.phase = .idle → step s = .next t → t.phase = .idle → t.rstN = true → s.rstN = true →
    t.status.ok = s.status.ok ∧ t.error = s.error ∧ t.outLen = s.outLen)

/-- 60_exceptions.md R250, 20_memory.md R71: MOCE never stops. A step on an event addressed to MOCE answers a next state, but for the
two events the spec puts outside the model: a key change while BUSY (70_reset_and_hazards.md R299) and an answer that the transform
did not give (43_facade.md R235). -/
def Obligations.MoceNeverStops : Prop :=
  ∀ s : State, (∀ e rest, s.inputs = e :: rest → addressed s e = true) →
    (∃ t, step s = .next t) ∨
    (step s = .refused .keyChangeWhileBusy ∧ s.phase = .busy ∧ ∃ t rest, s.inputs = .rekey t :: rest) ∨
    (step s = .refused .btAnswerOutsidePremises ∧ s.btPending ≠ none ∧ ∃ b rest, s.inputs = .strayBtAnswer b :: rest)

/-- 43_facade.md R233, 20_memory.md R90: while BUSY no event but a reset changes an input of `Exec`, and RES stays. -/
def Obligations.InputsAreFrozenWhileBusy : Prop :=
  ∀ s t : State, s.cfg.legal = true → s.phase = .busy → s.rstN = true → step s = .next t →
    (∀ rest, s.inputs ≠ .resetLow :: rest) →
    t.cfg = s.cfg ∧ t.bt = s.bt ∧ t.ivLen = s.ivLen ∧ t.inLen = s.inLen ∧ t.cur = s.cur ∧ t.res = s.res ∧
    t.lastCmd = s.lastCmd ∧ ivBytes t = ivBytes s ∧
    (∀ off, off < outBase → Memory.read t.mem off = Memory.read s.mem off) ∧
    (t.phase = .busy → ∀ i, (commandJob i t).result t = (commandJob i s).result s)

/-! ## The register bus (20_memory.md, 10_state.md section 3) -/

/-- 20_memory.md R81: a read changes nothing but the read data of the bus; and a step that is no write, no reset and no
completion leaves what every offset reads as: reads with nothing else between them return the same value. -/
def Obligations.ReadsHaveNoSideEffect : Prop :=
  (∀ (s : State) (a : Nat) (rest : List Event), s.inputs = .read a :: rest → inRegisterSpace s a = true →
    step s = .next { s with inputs := rest, readData := busRead s (a - s.cfg.base) }) ∧
  (∀ s t : State, s.cfg.legal = true → step s = .next t → t.phase = s.phase →
    (∀ a d b rest, s.inputs ≠ .write a d b :: rest) → (∀ rest, s.inputs ≠ .resetLow :: rest) →
    (∀ rest, s.inputs ≠ .resetHigh :: rest) →
    ∀ off, busRead t off = busRead s off)

/-- 20_memory.md R76: the offset bits [1:0] are ignored by reads and by writes. -/
def Obligations.LowOffsetBitsAreIgnored : Prop :=
  ∀ (s : State) (w j : Nat) (data : Word) (strb : Strobe), j < 4 →
    busRead s (4 * w + j) = busRead s (4 * w) ∧ busWrite s (4 * w + j) data strb = busWrite s (4 * w) data strb

/-- 20_memory.md R74 on the registers IV_LEN, IN_LEN and IE, out of reset and not BUSY: only the strobed lanes change, and nothing else
does. -/
def Obligations.StrobedLanesOfRegistersChange : Prop :=
  ∀ (s : State) (data : Word) (strb : Strobe), Ready s →
    (∃ t, busWrite s 0x020 data strb = .next t ∧
      t = { s with ivLen := t.ivLen, epoch := s.epoch + 1 } ∧
      ∀ j, j < 4 → lane t.ivLen j = if strb.getLsbD j then lane data j else lane s.ivLen j) ∧
    (∃ t, busWrite s 0x024 data strb = .next t ∧
      t = { s with inLen := t.inLen, epoch := s.epoch + 1 } ∧
      ∀ j, j < 4 → lane t.inLen j = if strb.getLsbD j then lane data j else lane s.inLen j) ∧
    (∃ t, busWrite s 0x01C data strb = .next t ∧
      t = { s with ie := t.ie, epoch := s.epoch + 1 } ∧
      t.ie = if strb.getLsbD 0 then { doneIe := data.getLsbD 0, busyErrIe := data.getLsbD 1 } else s.ie)

/-- 20_memory.md R74, R77 to R79: a write to a word of the IV or IN window, out of reset and not BUSY, stores the strobed lanes whose
bytes are in storage, and every other byte of memory reads as before. -/
def Obligations.StrobedLanesOfWindowsAreStored : Prop :=
  ∀ (s : State) (w : Nat) (data : Word) (strb : Strobe), s.cfg.legal = true → Memory.wf s.mem = true → Ready s →
    (4 * w < 0x100 → ∃ t, busWrite s (0x100 + 4 * w) data strb = .next t ∧ t = { s with mem := t.mem, epoch := s.epoch + 1 } ∧
      (∀ j, j < 4 → Memory.read t.mem (ivBase + (4 * w + j)) =
        if strb.getLsbD j = true ∧ 4 * w + j < s.cfg.n then some (lane data j)
        else Memory.read s.mem (ivBase + (4 * w + j))) ∧
      ∀ off, off < ivBase + 4 * w ∨ ivBase + 4 * w + 4 ≤ off → Memory.read t.mem off = Memory.read s.mem off) ∧
    (4 * w < 0x10000 → ∃ t, busWrite s (0x10000 + 4 * w) data strb = .next t ∧
      t = { s with mem := t.mem, epoch := s.epoch + 1 } ∧
      (∀ j, j < 4 → Memory.read t.mem (inBase + (4 * w + j)) =
        if strb.getLsbD j = true ∧ 4 * w + j < s.cfg.inCap then some (lane data j)
        else Memory.read s.mem (inBase + (4 * w + j))) ∧
      ∀ off, off < inBase + 4 * w ∨ inBase + 4 * w + 4 ≤ off → Memory.read t.mem off = Memory.read s.mem off)

/-- 20_memory.md R72, R78, R79: a read of a word of the IV or IN window, out of reset, returns byte `4w + j` of the storage in lane `j`,
0 for a byte beyond the storage. A byte that memory holds is the byte read, and the byte a command takes as `IV[4w + j]` or as
`P[4w + j]` (10_state.md R48, 30_encoding.md R105). -/
def Obligations.WindowReadsAreLittleEndian : Prop :=
  ∀ (s : State) (w j : Nat), s.rstN = true → j < 4 →
    (4 * w < 0x100 → lane (busRead s (0x100 + 4 * w)) j =
      if 4 * w + j < s.cfg.n then storedByte s (ivBase + (4 * w + j)) else 0#8) ∧
    (4 * w < 0x10000 → lane (busRead s (0x10000 + 4 * w)) j =
      if 4 * w + j < s.cfg.inCap then storedByte s (inBase + (4 * w + j)) else 0#8) ∧
    (∀ v, 4 * w < 0x100 → 4 * w + j < s.cfg.n → Memory.read s.mem (ivBase + (4 * w + j)) = some v →
      lane (busRead s (0x100 + 4 * w)) j = v ∧ (ivBytes s)[4 * w + j]? = some v) ∧
    (∀ v, 4 * w < 0x10000 → 4 * w + j < s.cfg.inCap → Memory.read s.mem (inBase + (4 * w + j)) = some v →
      lane (busRead s (0x10000 + 4 * w)) j = v ∧ (4 * w + j < s.inLen.toNat → (message s)[4 * w + j]? = some v))

/-- 20_memory.md R75: the word a CMD write presents has the strobed lanes of the data and zero elsewhere; a byte write of 0x01 to lane
0 presents `ENC.ECB NONE`. -/
def Obligations.UnstrobedLanesOfCmdReadAsZero : Prop :=
  (∀ (data : Word) (strb : Strobe) (j : Nat), j < 4 →
    lane (maskLanes data strb) j = if strb.getLsbD j then lane data j else 0x00#8) ∧
  (∀ (s : State) (data : Word), Ready s → lane data 0 = 0x01#8 →
    busWrite s 0x010 data 0x1#4 = exec (.encEcb .none) { s with epoch := s.epoch + 1 })

/-- 10_state.md R40: a write to STATUS clears DONE and BUSY_ERR where it writes 1 in lane 0, and changes nothing else, BUSY or not. -/
def Obligations.StatusIsWriteOneToClear : Prop :=
  ∀ (s : State) (w : Word) (strb : Strobe), s.rstN = true →
    ∃ t, busWrite s 0x014 w strb = .next t ∧
      t = { s with status := t.status, epoch := s.epoch + 1 } ∧ t.status.ok = s.status.ok ∧
      (t.status.done = true ↔ s.status.done = true ∧ ¬(strb.getLsbD 0 = true ∧ w.getLsbD 1 = true)) ∧
      (t.status.busyErr = true ↔ s.status.busyErr = true ∧ ¬(strb.getLsbD 0 = true ∧ w.getLsbD 3 = true))

/-- 10_state.md R39, R41, R42, R33: where the fields of STATUS, ERROR and IE stand in the words the bus reads; every other bit reads 0.
60_exceptions.md R251, R252: the codes of the classes and the causes, and the word ERROR reads as for each cause after a failing
completion. -/
def Obligations.FlagRegistersReadTheirFields : Prop :=
  ∀ s : State, s.rstN = true →
    (∀ k, (busRead s 0x014).getLsbD k =
      ((k == 0 && s.phase == .busy) || (k == 1 && s.status.done) || (k == 2 && s.status.ok) ||
        (k == 3 && s.status.busyErr))) ∧
    (busRead s 0x018).extractLsb' 0 2 = (match s.error.cls with
      | .none => 0#2
      | .input => 1#2
      | .state => 2#2
      | .command => 3#2) ∧
    (busRead s 0x018).extractLsb' 2 6 = 0#6 ∧
    (busRead s 0x018).extractLsb' 8 8 = (match s.error.cause with
      | .none => 0x00#8
      | .illegalCmd => 0x01#8
      | .padBlockSize => 0x02#8
      | .lenExceedsCap => 0x03#8
      | .ivLength => 0x04#8
      | .notAligned => 0x05#8
      | .badPadding => 0x06#8) ∧
    (busRead s 0x018).extractLsb' 16 16 = 0#16 ∧
    (∀ k, (busRead s 0x01C).getLsbD k = ((k == 0 && s.ie.doneIe) || (k == 1 && s.ie.busyErrIe))) ∧
    (∀ c, s.res = .error c → busRead (complete s) 0x018 = match c with
      | .none => 0x00000000#32
      | .illegalCmd => 0x00000103#32
      | .padBlockSize => 0x00000202#32
      | .lenExceedsCap => 0x00000301#32
      | .ivLength => 0x00000401#32
      | .notAligned => 0x00000501#32
      | .badPadding => 0x00000601#32)

/-- 10_state.md R33 to R38, R43 to R46: what the read-only registers, CMD, IV_LEN and IN_LEN read, and that a write to a read-only
register is ignored. -/
def Obligations.RegistersReadAndReadOnlyOnesIgnoreWrites : Prop :=
  ∀ s : State, s.rstN = true → s.cfg.legal = true →
    (busRead s 0x000).toNat = s.cfg.n ∧ (busRead s 0x004).toNat = s.cfg.inCap ∧ busRead s 0x008 = s.cfg.version ∧
    busRead s 0x010 = 0 ∧ busRead s 0x020 = s.ivLen ∧ busRead s 0x024 = s.inLen ∧ busRead s 0x028 = s.outLen ∧
    busRead s 0x02C = s.lastCmd ∧
    ∀ off data strb, off ∈ [0x000, 0x004, 0x008, 0x018, 0x028, 0x02C] →
      busWrite s off data strb = .next { s with epoch := s.epoch + 1 }

/-- 20_memory.md R77, 10_state.md R37: reserved and unmapped offsets read 0 and ignore writes, and so do the words of the IV and IN
windows that begin beyond their storage; none sets BUSY_ERR. In a word that lies partly in the storage, a write that strobes only bytes
beyond it is ignored too, BUSY or not. -/
def Obligations.OffsetsWithoutStorageAreInert : Prop :=
  ∀ (s : State) (off : Nat) (data : Word) (strb : Strobe), s.rstN = true → s.cfg.legal = true →
    ((0x00C ≤ off ∧ off < 0x010 ∨ 0x030 ≤ off ∧ off < 0x100 ∨ 0x200 ≤ off ∧ off < 0x10000 ∨
      0x30000 ≤ off ∧ off < 0x40000 ∨
      0x100 + s.cfg.n ≤ wordOffset off ∧ off < 0x200 ∨ 0x10000 + s.cfg.inCap ≤ wordOffset off ∧ off < 0x20000) →
      busRead s off = 0 ∧ busWrite s off data strb = .next { s with epoch := s.epoch + 1 }) ∧
    ((∃ j, j < 4 ∧ strb.getLsbD j = true) →
      (0x100 ≤ off ∧ off < 0x200 ∧ (∀ j, j < 4 → strb.getLsbD j = true → 0x100 + s.cfg.n ≤ wordOffset off + j) ∨
        0x10000 ≤ off ∧ off < 0x20000 ∧
          (∀ j, j < 4 → strb.getLsbD j = true → 0x10000 + s.cfg.inCap ≤ wordOffset off + j)) →
      busWrite s off data strb = .next { s with epoch := s.epoch + 1 })

/-- 20_memory.md R80: the OUT window shows `OUT[b]` only while OK = 1, BUSY = 0 and `b < OUT_LEN`, and 0 otherwise; writes to it are
ignored and never set BUSY_ERR. -/
def Obligations.OutputIsVisibleOnlyAfterSuccess : Prop :=
  ∀ (s : State) (w j : Nat) (data : Word) (strb : Strobe), s.rstN = true → 4 * w < 0x10000 → j < 4 →
    lane (busRead s (0x20000 + 4 * w)) j =
      (if s.status.ok = true ∧ s.phase = .idle ∧ 4 * w + j < s.outLen.toNat then storedByte s (outBase + (4 * w + j))
        else 0x00#8) ∧
    busWrite s (0x20000 + 4 * w) data strb = .next { s with epoch := s.epoch + 1 }

/-- 43_facade.md R233: an operand write while BUSY is dropped and sets BUSY_ERR: a write with any strobes to IV_LEN or IN_LEN, one that
strobes a byte of the IV or of the input buffer, or one without a strobe to a word that begins there (20_memory.md R74; that the word's
first byte decides it is the model's reading, log 11). Writes to STATUS and IE are performed and leave BUSY_ERR to W1C. -/
def Obligations.OperandWritesWhileBusyAreDropped : Prop :=
  ∀ (s : State) (off : Nat) (data : Word) (strb : Strobe), s.rstN = true → s.phase = .busy → s.cfg.legal = true →
    ((off = 0x020 ∨ off = 0x024 ∨
        0x100 ≤ off ∧ wordOffset off < 0x100 + s.cfg.n ∧
          (strb = 0#4 ∨ ∃ j, j < 4 ∧ strb.getLsbD j = true ∧ wordOffset off + j < 0x100 + s.cfg.n) ∨
        0x10000 ≤ off ∧ wordOffset off < 0x10000 + s.cfg.inCap ∧
          (strb = 0#4 ∨ ∃ j, j < 4 ∧ strb.getLsbD j = true ∧ wordOffset off + j < 0x10000 + s.cfg.inCap)) →
      busWrite s off data strb = .next { s with
        status := { s.status with busyErr := true }
        epoch := s.epoch + 1 }) ∧
    (∃ t, busWrite s 0x014 data strb = .next t ∧
      t.status.done = (s.status.done && !(strb.getLsbD 0 && data.getLsbD 1)) ∧
      t.status.busyErr = (s.status.busyErr && !(strb.getLsbD 0 && data.getLsbD 3))) ∧
    (∃ t, busWrite s 0x01C data strb = .next t ∧ t.status = s.status ∧
      t.ie = if strb.getLsbD 0 then { doneIe := data.getLsbD 0, busyErrIe := data.getLsbD 1 } else s.ie)

/-- 10_state.md R54, 60_exceptions.md R262: `irq` out of reset is the OR of the two enabled pending bits; a completion raises it when
DONE_IE is set, and an accept that finds no dropped write pending lowers it. -/
def Obligations.IrqFollowsStatusAndIe : Prop :=
  (∀ s : State, s.rstN = true →
    (s.irq = true ↔ (s.status.done = true ∧ s.ie.doneIe = true) ∨ (s.status.busyErr = true ∧ s.ie.busyErrIe = true))) ∧
  (∀ s : State, s.rstN = true → s.ie.doneIe = true → (complete s).irq = true) ∧
  (∀ (i : Instr) (s t : State), Ready s → exec i s = .next t → s.status.busyErr = false → t.irq = false) ∧
  (∀ (c : Config) (t : BlockTransform), (State.resetWith c t).irq = false)

/-- 20_memory.md R84, 70_reset_and_hazards.md R300, R301, R304: the access after an accepted CMD write, with no engine event between, sees BUSY
and nothing of the command before: STATUS has BUSY = 1, DONE = 0 and OK = 0, ERROR and OUT_LEN read 0, and the OUT window reads 0. -/
def Obligations.NextAccessSeesTheAccept : Prop :=
  ∀ (i : Instr) (s t : State), Ready s → exec i s = .next t →
    (busRead t 0x014).extractLsb' 0 3 = 1#3 ∧ busRead t 0x018 = 0 ∧ busRead t 0x028 = 0 ∧
    busRead t 0x02C = encode i ∧ ∀ w, w < 0x4000 → busRead t (0x20000 + 4 * w) = 0

/-! ## Reset and the platform (70_reset_and_hazards.md) -/

/-- 70_reset_and_hazards.md R290: while `rst_n` is low reads return 0, writes have no effect, the engine does nothing and `irq` is 0;
when it rises, every register holds its reset value and every byte of the input buffer is unwritten (R291). That they do so from the
fall on is the model's (log 15). -/
def Obligations.ResetGivesEveryRegisterItsValue : Prop :=
  (∀ s : State, s.rstN = false →
    s.irq = false ∧ engineMove s = s ∧ (∀ off, busRead s off = 0) ∧
    ∀ off data strb, busWrite s off data strb = .next s) ∧
  ∀ s : State, s.cfg.n ≤ 256 →
    (enterReset s).rstN = false ∧ AtReset (enterReset s) ∧ (enterReset s).cfg = s.cfg ∧
    (s.rstN = false → AtReset (leaveReset s) ∧ (leaveReset s).rstN = true ∧ (leaveReset s).irq = false ∧
      (leaveReset s).cfg = s.cfg)

/-- 70_reset_and_hazards.md R292: a reset while BUSY abandons the running command: it never completes, no result is committed, DONE stays
0, and an answer arriving after reset is ignored. -/
def Obligations.ResetAbandonsTheCommand : Prop :=
  ∀ (s : State) (k : Nat) (b : Bytes) (rest : List Event), s.phase = .busy → s.inputs = .resetLow :: .resetHigh :: .strayBtAnswer b :: rest →
    ∃ t u v, step s = .next t ∧ step t = .next u ∧ step u = .next v ∧
      v = { u with inputs := rest } ∧
      (engineMoves k v).phase = .idle ∧ (engineMoves k v).status.done = false ∧ (engineMoves k v).status.ok = false ∧
      (engineMoves k v).outLen = 0 ∧ (engineMoves k v).btPending = none

/-- 70_reset_and_hazards.md R291, 10_state.md R49: the message a command reads is the input buffer byte for byte; a byte the host has not
written since reset is a draw, and the draws of a command after a completed one carry a later stamp (log 3). -/
def Obligations.UnwrittenInputIsDrawnAfresh : Prop :=
  (∀ (s : State) (j : Nat) (h : j < (message s).length),
    (∀ v, Memory.read s.mem (inBase + j) = some v → (message s)[j] = v) ∧
    (Memory.read s.mem (inBase + j) = none → (message s)[j] = Config.commandDraw s.commands j)) ∧
  (∀ s : State, s.phase = .busy → (engineMove s).phase = .idle → (engineMove s).commands = s.commands + 1) ∧
  (∀ s : State, s.commands < (enterReset s).commands)

/-- 70_reset_and_hazards.md R299: a key change while BUSY is refused; while IDLE it replaces the transform and nothing else. -/
def Obligations.KeyChangeWhileBusyIsRefused : Prop :=
  ∀ (s : State) (t : BlockTransform) (rest : List Event), s.inputs = .rekey t :: rest →
    (s.phase = .busy → step s = .refused .keyChangeWhileBusy) ∧
    (s.phase = .idle → step s = .next { s with bt := t, inputs := rest })

/-! ## Properties of the modes (41_block_modes.md section 5, 42_stream_modes.md section 5, 70_reset_and_hazards.md R298) -/

/-- 41_block_modes.md R168: when ENC in a block-aligned mode succeeds with an output, DEC of that output, under the same IV and
transform, succeeds with the message; and in ECB identical whole blocks of the message give identical blocks of the output. -/
def Obligations.BlockModesRoundTrip : Prop :=
  (∀ (m : Mode) (p : Padding) (s t s' : State) (c : Bytes), m = .ecb ∨ m = .cbc ∨ m = .pcbc →
    s.cfg.legal = true → Ready s → Ready s' →
    exec (Instr.enc m p) s = .next t → t.res = .output c →
    s'.cfg = s.cfg → s'.bt = s.bt → s'.ivLen = s.ivLen → ivBytes s' = ivBytes s →
    message s' = c → c.length ≤ s.cfg.inCap →
    ∃ t', exec (Instr.dec m p) s' = .next t' ∧ t'.res = .output (message s)) ∧
  (∀ (p : Padding) (s t : State) (c : Bytes) (i j : Nat), s.cfg.legal = true → Ready s →
    exec (.encEcb p) s = .next t → t.res = .output c →
    (blockAt s.cfg.n (message s) i).length = s.cfg.n → blockAt s.cfg.n (message s) i = blockAt s.cfg.n (message s) j →
    blockAt s.cfg.n c i = blockAt s.cfg.n c j)

/-- 42_stream_modes.md R199: the output of ENC in a stream-like mode is as long as the message, and DEC of it, under the same IV and
transform and with any scheme in the PAD field, gives the message. -/
def Obligations.StreamModesRoundTrip : Prop :=
  ∀ (m : Mode) (p p' : Padding) (s t s' : State) (c : Bytes), m = .cfb ∨ m = .ofb ∨ m = .ctr →
    s.cfg.legal = true → Ready s → Ready s' →
    exec (Instr.enc m p) s = .next t → t.res = .output c →
    s'.cfg = s.cfg → s'.bt = s.bt → s'.ivLen = s.ivLen → ivBytes s' = ivBytes s → message s' = c →
    c.length = (message s).length ∧ ∃ t', exec (Instr.dec m p') s' = .next t' ∧ t'.res = .output (message s)

/-- 41_block_modes.md R169: changing one byte of `P_0` changes every ciphertext block of CBC, and block 0 only of ECB, whatever the IV
and IV_LEN are there; in PCBC it changes block 0, and a later block only when `P_0 xor C_0` changes, which it never does under the
identity transform. -/
def Obligations.ChangedByteDiffusesThroughBlockModes : Prop :=
  ∀ (p : Padding) (s s' : State) (b : Nat), s'.cfg = s.cfg → s'.bt = s.bt → s'.inLen = s.inLen →
    b < s.cfg.n → b < s.inLen.toNat →
    (∀ j, j < s.inLen.toNat → ((message s)[j]? = (message s')[j]? ↔ j ≠ b)) →
    (Runs (.encEcb p) s → Runs (.encEcb p) s' →
      ∃ t t' y y', exec (.encEcb p) s = .next t ∧ exec (.encEcb p) s' = .next t' ∧ t.res = .output y ∧ t'.res = .output y' ∧
      y.length = y'.length ∧
      ∀ j, j * s.cfg.n < y.length → (blockAt s.cfg.n y j ≠ blockAt s.cfg.n y' j ↔ j = 0)) ∧
    (Runs (.encCbc p) s → Runs (.encCbc p) s' → ivBytes s' = ivBytes s →
      ∃ t t' y y', exec (.encCbc p) s = .next t ∧ exec (.encCbc p) s' = .next t' ∧ t.res = .output y ∧ t'.res = .output y' ∧
      y.length = y'.length ∧
      ∀ j, j * s.cfg.n < y.length → blockAt s.cfg.n y j ≠ blockAt s.cfg.n y' j) ∧
    (Runs (.encPcbc p) s → Runs (.encPcbc p) s' → ivBytes s' = ivBytes s →
      ∃ x x' t t' y y', pad s.cfg.n p (message s) = .output x ∧ pad s.cfg.n p (message s') = .output x' ∧
      exec (.encPcbc p) s = .next t ∧ exec (.encPcbc p) s' = .next t' ∧ t.res = .output y ∧ t'.res = .output y' ∧
      y.length = y'.length ∧ blockAt s.cfg.n y 0 ≠ blockAt s.cfg.n y' 0 ∧
      (xorBytes (blockAt s.cfg.n x 0) (blockAt s.cfg.n y 0) = xorBytes (blockAt s.cfg.n x' 0) (blockAt s.cfg.n y' 0) →
        ∀ j, 1 ≤ j → blockAt s.cfg.n y j = blockAt s.cfg.n y' j) ∧
      (s.bt = .identity → ∀ j, 1 ≤ j → blockAt s.cfg.n y j = blockAt s.cfg.n y' j))

/-- 42_stream_modes.md R200: changing one byte of `P_0` changes that byte of the output of OFB and CTR and no other; in CFB it changes
every later full ciphertext block too. -/
def Obligations.ChangedByteDiffusesThroughStreamModes : Prop :=
  ∀ (p : Padding) (s s' : State) (b : Nat), Runs (.encCfb p) s → Runs (.encCfb p) s' →
    s'.cfg = s.cfg → s'.bt = s.bt → ivBytes s' = ivBytes s → s'.inLen = s.inLen →
    b < s.cfg.n → b < s.inLen.toNat →
    (∀ j, j < s.inLen.toNat → ((message s)[j]? = (message s')[j]? ↔ j ≠ b)) →
    (∃ t t' y y', exec (.encCfb p) s = .next t ∧ exec (.encCfb p) s' = .next t' ∧ t.res = .output y ∧ t'.res = .output y' ∧
      blockAt s.cfg.n y 0 ≠ blockAt s.cfg.n y' 0 ∧
      ∀ j, (j + 1) * s.cfg.n ≤ y.length → blockAt s.cfg.n y j ≠ blockAt s.cfg.n y' j) ∧
    ∀ i, i = .encOfb p ∨ i = .encCtr p →
      ∃ t t' y y', exec i s = .next t ∧ exec i s' = .next t' ∧ t.res = .output y ∧ t'.res = .output y' ∧
        y.length = y'.length ∧ ∀ j, j < y.length → (y[j]? = y'[j]? ↔ j ≠ b)

/-- 70_reset_and_hazards.md R298: two ENC commands in CBC, CFB, OFB or CTR over consecutive parts of a message, the first of whole
blocks, give one after the other the output of one command over the whole when the IV of the second is the last ciphertext block of
the first (CBC, CFB), the last keystream block (OFB), or the IV plus the first part's block count (CTR), and only then if the second
gives N bytes or more. (A shorter second output takes part of one keystream block, so another IV may happen to give it.) In CBC the
first part is not padded. -/
def Obligations.EncryptionInTwoPartsNeedsTheChainingIv : Prop :=
  ∀ (m : Mode) (p q : Padding) (s s1 s2 t : State) (y : Bytes),
    m = .cbc ∧ q = .none ∨ m = .cfb ∨ m = .ofb ∨ m = .ctr →
    Runs (Instr.enc m p) s → Runs (Instr.enc m q) s1 → Runs (Instr.enc m p) s2 →
    s1.cfg = s.cfg → s2.cfg = s.cfg → s1.bt = s.bt → s2.bt = s.bt →
    message s = message s1 ++ message s2 → message s1 ≠ [] → (message s1).length % s.cfg.n = 0 → ivBytes s1 = ivBytes s →
    exec (Instr.enc m q) s1 = .next t → t.res = .output y →
    let parts := (message s1).length / s.cfg.n
    let iv :=
      if m = .ctr then beBytes s.cfg.n ((intBe (ivBytes s) + parts) % 2 ^ (8 * s.cfg.n))
      else if m = .ofb then (encryptBlock s.bt s.cfg.n)^[parts] (ivBytes s)
      else y.drop (y.length - s.cfg.n)
    ∃ t' t2 y' y2, exec (Instr.enc m p) s = .next t' ∧ t'.res = .output y' ∧
      exec (Instr.enc m p) s2 = .next t2 ∧ t2.res = .output y2 ∧
      (ivBytes s2 = iv → y' = y ++ y2) ∧ (s.cfg.n ≤ y2.length → y' = y ++ y2 → ivBytes s2 = iv)

/-- 42_stream_modes.md R197, 00_scope.md R18: the counter block after one increment. The carry runs from the last byte towards the
first: a byte goes up by one, modulo 256, exactly when every byte after it is 0xFF, and the carry out of byte 0 is lost. -/
def Obligations.CounterIncrementsBigEndian : Prop :=
  ∀ (b : Bytes), 1 ≤ b.length →
    intBe b < 2 ^ (8 * b.length) ∧ beBytes b.length (intBe b) = b ∧
    (beBytes b.length ((intBe b + 1) % 2 ^ (8 * b.length))).length = b.length ∧
    ∀ j (h : j < b.length),
      (beBytes b.length ((intBe b + 1) % 2 ^ (8 * b.length)))[j]? =
        some (if ∀ x ∈ b.drop (j + 1), x = 0xFF#8 then b[j] + 1#8 else b[j])

/-- 20_memory.md R94: byte `j` of a block travels on bits [8j+7:8j] of the BT port, and the port's bits give the block back. -/
def Obligations.BtPortLanesAreLittleEndian : Prop :=
  ∀ b : Bytes, portBits b < 2 ^ (8 * b.length) ∧ blockOfPortBits b.length (portBits b) = b ∧
    ∀ j (h : j < b.length), (BitVec.ofNat (8 * b.length) (portBits b)).extractLsb' (8 * j) 8 = b[j]
end

