-- ==== Sys2Proof/Laws/Memory.lean ====
section
/-! SUPPORT. The laws of memory: a read after a write, the canonical form, and byte sequences stored and read back. -/

namespace Sys2Proof.Machine.Memory

@[simp] theorem read_nil (off : Nat) : read [] off = unlisted off := rfl

theorem read_cons (c : Host.Cell) (m : List Host.Cell) (off : Nat) :
    read (c :: m) off = if c.1 = off then some c.2 else read m off := rfl

/-- Outside the IV window nothing is listed by default. -/
theorem unlisted_eq_none {off : Nat} (h : ivBase + 0x100 ≤ off) : unlisted off = none := by
  unfold unlisted; rw [if_neg]; omega

/-- In the IV window an unlisted byte reads 0x00. -/
theorem unlisted_iv {j : Nat} (h : j < 0x100) : unlisted (ivBase + j) = some 0#8 := by
  unfold unlisted; rw [if_pos]; omega

theorem read_put_other {off a : Nat} (v : Byte) (m : List Host.Cell) (h : a ≠ off) :
    read (put off v m) a = read m a := by
  unfold put; split
  · rfl
  · rw [read_cons, if_neg (Ne.symm h)]

/-- A write leaves every other byte alone. -/
theorem read_write_other {off a : Nat} (v : Byte) (m : List Host.Cell) (h : a ≠ off) :
    read (write m off v) a = read m a := by
  induction m with
  | nil => exact read_put_other v [] h
  | cons c m ih =>
    obtain ⟨k, x⟩ := c
    unfold write
    split
    · exact read_put_other v _ h
    · split
      · next hk => rw [read_put_other v m h, read_cons, if_neg (by subst hk; exact Ne.symm h)]
      · rw [read_cons, read_cons, ih]

/-- An offset that no cell lists reads as unlisted. -/
theorem read_of_rising {lo : Nat} {m : List Host.Cell} (h : rising (some lo) m = true) {a : Nat} (ha : a ≤ lo) :
    read m a = unlisted a := by
  induction m generalizing lo with
  | nil => rfl
  | cons c m ih =>
    obtain ⟨k, x⟩ := c
    simp only [rising, Bool.and_eq_true, decide_eq_true_eq] at h
    rw [read_cons, if_neg (by simp only; omega)]
    exact ih h.2 (by omega)

/-- A head bound may be lowered. -/
theorem rising_mono {lo lo' : Nat} {m : List Host.Cell} (hl : lo' ≤ lo) (h : rising (some lo) m = true) :
    rising (some lo') m = true := by
  cases m with
  | nil => rfl
  | cons c m =>
    obtain ⟨k, x⟩ := c
    simp only [rising, Bool.and_eq_true, decide_eq_true_eq] at h ⊢
    exact ⟨by omega, h.2⟩

theorem rising_none_of_some {lo : Nat} {m : List Host.Cell} (h : rising (some lo) m = true) : rising none m = true := by
  cases m with
  | nil => rfl
  | cons c m =>
    obtain ⟨k, x⟩ := c
    simp only [rising, Bool.and_eq_true] at h ⊢
    exact h.2

/-- The value put at an offset is read there, if no cell after it lists the offset. -/
theorem read_put_same {off : Nat} (v : Byte) {m : List Host.Cell} (h : read m off = unlisted off) :
    read (put off v m) off = some v := by
  unfold put; split
  · next hu => rw [h, hu]
  · rw [read_cons, if_pos rfl]

/-- A read after a write gives the byte written. -/
theorem read_write_same (m : List Host.Cell) (hm : rising none m = true) (off : Nat) (v : Byte) :
    read (write m off v) off = some v := by
  have main : ∀ (m : List Host.Cell) (lo : Option Nat), rising lo m = true → read (write m off v) off = some v := by
    intro m
    induction m with
    | nil => intro _ _; exact read_put_same v rfl
    | cons c m ih =>
      intro lo h
      obtain ⟨k, x⟩ := c
      have hk : rising (some k) m = true := by
        cases lo <;> simp_all [rising]
      unfold write
      split
      · next hlt =>
        apply read_put_same
        rw [read_cons, if_neg (by simp only; omega)]
        exact read_of_rising hk (by omega)
      · split
        · next heq => exact read_put_same v (read_of_rising hk (by omega))
        · next hne => rw [read_cons, if_neg (by simp only; omega)]; exact ih (some k) hk
  exact main m none hm

/-- A read after a write gives the byte written, whatever the memory, where an unlisted byte has no value. -/
theorem read_write_same_of_unlisted_none {off : Nat} (h : unlisted off = none) (m : List Host.Cell) (v : Byte) :
    read (write m off v) off = some v := by
  have hput : ∀ m, read (put off v m) off = some v := by
    intro m; unfold put; rw [if_neg (by simp [h]), read_cons, if_pos rfl]
  induction m with
  | nil => exact hput []
  | cons c m ih =>
    obtain ⟨k, x⟩ := c
    unfold write
    split
    · exact hput _
    · split
      · exact hput _
      · next hne => rw [read_cons, if_neg (by simp only; omega)]; exact ih

theorem rising_put {lo : Option Nat} {off : Nat} (v : Byte) {m : List Host.Cell} (hm : rising (some off) m = true)
    (hlo : ∀ l, lo = some l → l < off) : rising lo (put off v m) = true := by
  unfold put; split
  · cases lo with
    | none => exact rising_none_of_some hm
    | some l => exact rising_mono (by have := hlo l rfl; omega) hm
  · cases lo with
    | none => simpa [rising] using hm
    | some l => simp [rising, hlo l rfl, hm]

/-- A write keeps the offsets rising. -/
theorem rising_write {lo : Option Nat} {m : List Host.Cell} (hm : rising lo m = true) (off : Nat) (v : Byte)
    (hlo : ∀ l, lo = some l → l < off) : rising lo (write m off v) = true := by
  induction m generalizing lo with
  | nil => exact rising_put v rfl hlo
  | cons c m ih =>
    obtain ⟨k, x⟩ := c
    have hk : rising (some k) m = true := by cases lo <;> simp_all [rising]
    have hlk : ∀ l, lo = some l → l < k := by rintro l rfl; simp_all [rising]
    unfold write
    split
    · next hlt =>
      exact rising_put v (by simp [rising, hlt, hk]) hlo
    · split
      · next heq => subst heq; exact rising_put v hk hlo
      · next hne =>
        have := ih hk (by rintro l ⟨⟩; omega)
        cases lo with
        | none => simpa [rising] using this
        | some l => simp [rising, hlk l rfl, this]

/-- Every cell of a memory after a write was there before or is the one written. -/
theorem mem_write {m : List Host.Cell} {off : Nat} {v : Byte} {c : Host.Cell} (h : c ∈ write m off v) :
    c ∈ m ∨ (c = (off, v) ∧ unlisted off ≠ some v) := by
  have hput : ∀ m, c ∈ put off v m → c ∈ m ∨ (c = (off, v) ∧ unlisted off ≠ some v) := by
    intro m; unfold put; split
    · exact .inl
    · next hu => intro h; rcases List.mem_cons.1 h with h | h
                 · exact .inr ⟨h, hu⟩
                 · exact .inl h
  induction m with
  | nil => exact hput [] h
  | cons d m ih =>
    obtain ⟨k, x⟩ := d
    unfold write at h
    split at h
    · exact hput _ h
    · split at h
      · exact (hput _ h).imp_left (List.mem_cons_of_mem _)
      · rcases List.mem_cons.1 h with h | h
        · exact .inl (h ▸ List.mem_cons_self)
        · exact (ih h).imp_left (List.mem_cons_of_mem _)

theorem wf_iff (m : List Host.Cell) :
    wf m = true ↔ rising none m = true ∧ ∀ c, c ∈ m → unlisted c.1 ≠ some c.2 := by
  simp [wf, List.all_eq_true]

/-- A write keeps the canonical form. -/
theorem wf_write {m : List Host.Cell} (hm : wf m = true) (off : Nat) (v : Byte) : wf (write m off v) = true := by
  rw [wf_iff] at hm ⊢
  refine ⟨rising_write hm.1 off v (by simp), fun c hc => ?_⟩
  rcases mem_write hc with h | ⟨rfl, h⟩
  · exact hm.2 c h
  · exact h

theorem wf_nil : wf [] = true := rfl

/-- `MemWrite` keeps the canonical form. -/
theorem wf_writeBytes {m : List Host.Cell} (hm : wf m = true) (off : Nat) (vs : Bytes) : wf (writeBytes m off vs) = true := by
  induction vs generalizing m off with
  | nil => exact hm
  | cons v vs ih => exact ih (wf_write hm off v) (off + 1)

/-- Every cell after `MemWrite` was there before or is in the range written. -/
theorem mem_writeBytes {m : List Host.Cell} {off : Nat} {vs : Bytes} {c : Host.Cell} (h : c ∈ writeBytes m off vs) :
    c ∈ m ∨ (off ≤ c.1 ∧ c.1 < off + vs.length) := by
  induction vs generalizing m off with
  | nil => exact .inl h
  | cons v vs ih =>
    rcases ih h with h | h
    · rcases mem_write h with h | ⟨rfl, _⟩
      · exact .inl h
      · exact .inr ⟨le_refl _, by simp⟩
    · exact .inr ⟨by omega, by simp only [List.length_cons]; omega⟩

/-- `MemWrite` leaves every byte outside its range alone. -/
theorem read_writeBytes_other {off a : Nat} (vs : Bytes) (m : List Host.Cell) (h : a < off ∨ off + vs.length ≤ a) :
    read (writeBytes m off vs) a = read m a := by
  induction vs generalizing m off with
  | nil => rfl
  | cons v vs ih =>
    simp only [List.length_cons] at h
    exact (ih _ (by omega)).trans (read_write_other v m (by omega))

/-- `MemWrite` above the IV window is read back byte for byte. -/
theorem read_writeBytes {off : Nat} (hoff : ivBase + 0x100 ≤ off) (vs : Bytes) (m : List Host.Cell) (j : Nat)
    (hj : j < vs.length) : read (writeBytes m off vs) (off + j) = some vs[j] := by
  induction vs generalizing m off j with
  | nil => simp at hj
  | cons v vs ih =>
    cases j with
    | zero =>
      simp only [writeBytes, Nat.add_zero, List.getElem_cons_zero]
      rw [read_writeBytes_other _ _ (by omega)]
      exact read_write_same_of_unlisted_none (unlisted_eq_none hoff) m v
    | succ j =>
      simp only [List.length_cons] at hj
      have := ih (off := off + 1) (by omega) (write m off v) j (by omega)
      simpa [writeBytes, Nat.add_comm, Nat.add_left_comm] using this

end Sys2Proof.Machine.Memory
end

