-- ==== Sys2Proof/Laws/Bytes.lean ====
section
/-! SUPPORT. Lengths and elements of byte sequences, blocks and lanes. -/

namespace Sys2Proof.Machine

@[simp] theorem xorBytes_length (a b : Bytes) : (xorBytes a b).length = min a.length b.length := by
  simp [xorBytes]

theorem xorBytes_getElem (a b : Bytes) (j : Nat) (h : j < (xorBytes a b).length) :
    (xorBytes a b)[j] = a[j]'(by simp at h; omega) ^^^ b[j]'(by simp at h; omega) := by
  simp [xorBytes]

/-- Exclusive-or undoes itself on sequences of one length. -/
theorem xorBytes_cancel {a b : Bytes} (h : a.length = b.length) : xorBytes (xorBytes a b) b = a := by
  apply List.ext_getElem
  · simp [h]
  · intro j h1 h2
    simp [xorBytes]

theorem xorBytes_comm (a b : Bytes) : xorBytes a b = xorBytes b a := by
  unfold xorBytes
  rw [List.zipWith_comm]
  congr; funext x y; exact BitVec.xor_comm y x

@[simp] theorem xorKeystream_length (x k : Bytes) : (xorKeystream x k).length = min x.length k.length := by
  simp only [xorKeystream, xorBytes_length, List.length_take]; omega

/-- A keystream applied twice gives the input back. -/
theorem xorKeystream_cancel {x k : Bytes} (h : x.length ≤ k.length) : xorKeystream (xorKeystream x k) k = x := by
  have hl : (xorKeystream x k).length = x.length := by simp; omega
  unfold xorKeystream at hl ⊢
  rw [hl]
  exact xorBytes_cancel (by simp; omega)

@[simp] theorem beBytes_length (n v : Nat) : (beBytes n v).length = n := by simp [beBytes]

/-- The block count of an aligned length. -/
theorem blockCount_of_aligned {n len : Nat} (hn : 1 ≤ n) (h : len % n = 0) : blockCount n len = len / n := by
  obtain ⟨q, rfl⟩ := Nat.dvd_of_mod_eq_zero h
  unfold blockCount
  rw [Nat.mul_div_cancel_left _ (by omega)]
  have : n * q + n - 1 = (n - 1) + n * q := by omega
  rw [this, Nat.add_mul_div_left _ _ (by omega), Nat.div_eq_of_lt (by omega), Nat.zero_add]

/-- A block index below the count starts inside the sequence, and only there. -/
theorem lt_blockCount_iff {n len i : Nat} (hn : 1 ≤ n) : i < blockCount n len ↔ i * n < len := by
  unfold blockCount
  rw [Nat.lt_div_iff_mul_lt (by omega)]
  rw [Nat.mul_comm]; omega

theorem blockAt_length (n : Nat) (x : Bytes) (i : Nat) : (blockAt n x i).length = min n (x.length - i * n) := by
  simp [blockAt]

@[simp] theorem blocks_length (n : Nat) (x : Bytes) : (blocks n x).length = blockCount n x.length := by simp [blocks]

theorem blocks_getElem (n : Nat) (x : Bytes) (i : Nat) (h : i < (blocks n x).length) :
    (blocks n x)[i] = blockAt n x i := by simp [blocks]

/-- The blocks of a sequence in order make the sequence. -/
theorem blocks_flatten {n : Nat} (hn : 1 ≤ n) (x : Bytes) : (blocks n x).flatten = x := by
  have key : ∀ k, ((List.range k).map (blockAt n x)).flatten = x.take (k * n) := by
    intro k
    induction k with
    | zero => simp
    | succ k ih =>
      rw [List.range_succ, List.map_append, List.flatten_append, ih, Nat.succ_mul, List.take_add]
      simp [blockAt]
  rw [blocks, key]
  apply List.take_of_length_le
  by_contra h
  have := (lt_blockCount_iff (len := x.length) (i := blockCount n x.length) hn).2 (by omega)
  omega

/-- The bits of a word built from lanes. -/
theorem getLsbD_ofLanes (f : Nat → Byte) (k : Nat) :
    (ofLanes f).getLsbD k =
      if k < 8 then (f 0).getLsbD k else if k < 16 then (f 1).getLsbD (k - 8)
      else if k < 24 then (f 2).getLsbD (k - 16) else (f 3).getLsbD (k - 24) := by
  change BitVec.getLsbD (w := 8 + 8 + 8 + 8) (f 3 ++ f 2 ++ f 1 ++ f 0) k = _
  simp only [BitVec.getLsbD_append, Nat.sub_sub]
  repeat' split
  all_goals first | rfl | omega

/-- Lane `j` of a word built from lanes. -/
@[simp] theorem lane_ofLanes (f : Nat → Byte) {j : Nat} (h : j < 4) : lane (ofLanes f) j = f j := by
  apply BitVec.eq_of_getLsbD_eq
  intro i hi
  rw [lane, BitVec.getLsbD_extractLsb', getLsbD_ofLanes]
  have : j = 0 ∨ j = 1 ∨ j = 2 ∨ j = 3 := by omega
  rcases this with rfl | rfl | rfl | rfl
  · simp [hi]
  · rw [if_neg (by omega), if_pos (by omega)]; simp [hi]
  · rw [if_neg (by omega), if_neg (by omega), if_pos (by omega)]; simp [hi]
  · rw [if_neg (by omega), if_neg (by omega), if_neg (by omega)]; simp [hi]

end Sys2Proof.Machine
end

