-- ==== Sys2Proof/Laws/Transform.lean ====
section
/-! SUPPORT. The block transform answers a block of N bytes with a block of N bytes. -/

namespace Sys2Proof.Machine

@[simp] theorem rotateXorKey_length (n : Nat) : (rotateXorKey n).length = n := by simp [rotateXorKey]

theorem applyPermutation_length (n : Nat) (e : Equiv.Perm { b : Bytes // b.length = n }) {b : Bytes} (h : b.length = n) :
    (applyPermutation n e b).length = n := by
  unfold applyPermutation; rw [dif_pos h]; exact (e _).2

/-- Applying a permutation and then its inverse gives the block back. -/
theorem applyPermutation_symm (n : Nat) (e : Equiv.Perm { b : Bytes // b.length = n }) {b : Bytes} (h : b.length = n) :
    applyPermutation n e.symm (applyPermutation n e b) = b := by
  have hl := applyPermutation_length n e h
  have hv : (⟨applyPermutation n e b, hl⟩ : { b : Bytes // b.length = n }) = e ⟨b, h⟩ := by
    apply Subtype.ext; simp only [applyPermutation, dif_pos h]
  rw [applyPermutation, dif_pos hl, hv, Equiv.symm_apply_apply]

theorem encryptBlock_length (t : BlockTransform) {n : Nat} {b : Bytes} (h : b.length = n) :
    (encryptBlock t n b).length = n := by
  cases t with
  | keyed key => exact applyPermutation_length n _ h
  | identity => exact h
  | rotateXor => simp only [encryptBlock, xorBytes_length, List.length_append, List.length_drop, List.length_take,
      rotateXorKey_length, h]; omega

theorem decryptBlock_length (t : BlockTransform) {n : Nat} {b : Bytes} (h : b.length = n) :
    (decryptBlock t n b).length = n := by
  cases t with
  | keyed key => exact applyPermutation_length n _ h
  | identity => exact h
  | rotateXor => simp only [decryptBlock, xorBytes_length, List.length_append, List.length_drop, List.length_take,
      rotateXorKey_length, h]; omega

theorem answer_length (t : BlockTransform) {n : Nat} {q : BtRequest} (h : q.block.length = n) :
    (answer t n q).length = n := by
  unfold answer
  cases q.dir
  · exact encryptBlock_length t h
  · exact decryptBlock_length t h

end Sys2Proof.Machine
end

