-- ==== Sys2Proof/Laws/Run.lean ====
section
/-! SUPPORT. What phase 6 of a command does over its blocks (43_facade.md R228): how a run is cut in two, what each block
contributes, and the widths of requests and outputs. -/

namespace Sys2Proof.Machine

@[simp] theorem runBlocks_nil (t : BlockTransform) (n : Nat) (r : BlockRule) (c : Chaining) :
    runBlocks t n r c [] = { output := [], requests := [], last := c } := rfl

theorem runBlocks_cons (t : BlockTransform) (n : Nat) (r : BlockRule) (c : Chaining) (x : Bytes) (xs : List Bytes) :
    runBlocks t n r c (x :: xs) =
      let a := answer t n (r.request n c x)
      let rest := runBlocks t n r (r.next n c x a) xs
      { output := r.output c x a ++ rest.output, requests := r.request n c x :: rest.requests, last := rest.last } := rfl

/-- A run over two lists of blocks is the run over the first and then, from where it ends, over the second. -/
theorem runBlocks_append (t : BlockTransform) (n : Nat) (r : BlockRule) (c : Chaining) (xs ys : List Bytes) :
    runBlocks t n r c (xs ++ ys) =
      let a := runBlocks t n r c xs
      let b := runBlocks t n r a.last ys
      { output := a.output ++ b.output, requests := a.requests ++ b.requests, last := b.last } := by
  induction xs generalizing c with
  | nil => rfl
  | cons x xs ih => simp [runBlocks_cons, ih]

/-- One block more. -/
theorem runBlocks_take_succ (t : BlockTransform) (n : Nat) (r : BlockRule) (c : Chaining) (xs : List Bytes) {i : Nat}
    (h : i < xs.length) :
    runBlocks t n r c (xs.take (i + 1)) =
      let s := runBlocks t n r c (xs.take i)
      let a := answer t n (r.request n s.last xs[i])
      { output := s.output ++ r.output s.last xs[i] a
        requests := s.requests ++ [r.request n s.last xs[i]]
        last := r.next n s.last xs[i] a } := by
  rw [List.take_add_one, List.getElem?_eq_getElem h, Option.toList_some, runBlocks_append]
  simp [runBlocks_cons]

/-- One request for each block. -/
@[simp] theorem runBlocks_requests_length (t : BlockTransform) (n : Nat) (r : BlockRule) (c : Chaining) (xs : List Bytes) :
    (runBlocks t n r c xs).requests.length = xs.length := by
  induction xs generalizing c with
  | nil => rfl
  | cons x xs ih => simp [runBlocks_cons, ih]

/-- The widths a mode's rule keeps: requests of N bytes, outputs as long as the input block, CHAIN of N bytes. A block-aligned
mode (`full`) sees whole blocks only. -/
structure BlockRule.Widths (r : BlockRule) (n : Nat) (full : Bool) : Prop where
  request : ∀ c x, c.chain.length = n → (full = true → x.length = n) → (r.request n c x).block.length = n
  output : ∀ c x a, c.chain.length = n → a.length = n → x.length ≤ n → (full = true → x.length = n) →
    (r.output c x a).length = x.length
  next : ∀ c x a, c.chain.length = n → a.length = n → x.length = n → (r.next n c x a).chain.length = n

theorem ecbEncRule_widths (n : Nat) : ecbEncRule.Widths n true := by
  constructor <;> simp_all [ecbEncRule]

theorem ecbDecRule_widths (n : Nat) : ecbDecRule.Widths n true := by
  constructor <;> simp_all [ecbDecRule]

theorem cbcEncRule_widths (n : Nat) : cbcEncRule.Widths n true := by
  constructor <;> simp_all [cbcEncRule]

theorem cbcDecRule_widths (n : Nat) : cbcDecRule.Widths n true := by
  constructor <;> simp_all [cbcDecRule]

theorem pcbcEncRule_widths (n : Nat) : pcbcEncRule.Widths n true := by
  constructor <;> simp_all [pcbcEncRule]

theorem pcbcDecRule_widths (n : Nat) : pcbcDecRule.Widths n true := by
  constructor <;> simp_all [pcbcDecRule]

theorem cfbEncRule_widths (n : Nat) : cfbEncRule.Widths n false := by
  constructor <;> simp_all [cfbEncRule]

theorem cfbDecRule_widths (n : Nat) : cfbDecRule.Widths n false := by
  constructor <;> simp_all [cfbDecRule]

theorem ofbRule_widths (n : Nat) : ofbRule.Widths n false := by
  constructor <;> simp_all [ofbRule]

theorem ctrRule_widths (n : Nat) : ctrRule.Widths n false := by
  constructor <;> simp_all [ctrRule]

/-- A list of blocks cut from a sequence: every block but the last has N bytes, and in the whole-block case the last too. -/
def Cut (n : Nat) (full : Bool) (bs : List Bytes) : Prop :=
  ∀ i (h : i < bs.length), bs[i].length ≤ n ∧ ((i + 1 < bs.length ∨ full = true) → bs[i].length = n)

theorem Cut.tail {n : Nat} {full : Bool} {x : Bytes} {xs : List Bytes} (h : Cut n full (x :: xs)) : Cut n full xs := by
  intro i hi
  have := h (i + 1) (by simp; omega)
  simpa using this

theorem Cut.take {n : Nat} {full : Bool} {xs : List Bytes} (h : Cut n full xs) (k : Nat) : Cut n full (xs.take k) := by
  intro i hi
  simp only [List.length_take] at hi
  have := h i (by omega)
  refine ⟨by simpa using this.1, fun hh => ?_⟩
  simp only [List.length_take] at hh
  simpa using this.2 (hh.imp_left (by omega))

/-- The blocks of a sequence are cut from it. -/
theorem blocks_cut {n : Nat} (hn : 1 ≤ n) (x : Bytes) : Cut n false (blocks n x) := by
  intro i h
  rw [blocks_getElem, blockAt_length]
  refine ⟨by omega, fun hh => ?_⟩
  simp only [blocks_length] at hh
  have h1 := (lt_blockCount_iff (len := x.length) (i := i + 1) hn).1 (by simpa using hh)
  have : (i + 1) * n = i * n + n := Nat.succ_mul i n
  omega

/-- The blocks of an aligned sequence are all whole. -/
theorem blocks_cut_full {n : Nat} (hn : 1 ≤ n) {x : Bytes} (hx : x.length % n = 0) : Cut n true (blocks n x) := by
  intro i h
  rw [blocks_getElem, blockAt_length]
  refine ⟨by omega, fun _ => ?_⟩
  simp only [blocks_length] at h
  have h1 := (lt_blockCount_iff (len := x.length) (i := i) hn).1 h
  obtain ⟨q, hq⟩ := Nat.dvd_of_mod_eq_zero hx
  rw [hq] at h1 ⊢
  have : i < q := by
    by_contra hc
    have := Nat.mul_le_mul_left n (Nat.le_of_not_lt hc)
    rw [Nat.mul_comm i n] at h1; omega
  have := Nat.mul_le_mul_left n this
  rw [Nat.mul_comm i n]
  simp only [Nat.succ_eq_add_one, Nat.mul_add, Nat.mul_one] at this
  omega

/-- Every request of a run has N bytes, 43_facade.md R235. -/
theorem runBlocks_request_width {t : BlockTransform} {n : Nat} {r : BlockRule} {full : Bool} (hw : r.Widths n full)
    {c : Chaining} (hc : c.chain.length = n) {xs : List Bytes} (hx : Cut n full xs) :
    ∀ q, q ∈ (runBlocks t n r c xs).requests → q.block.length = n := by
  induction xs generalizing c with
  | nil => simp
  | cons x xs ih =>
    have h0 := hx 0 (by simp)
    simp only [List.getElem_cons_zero, List.length_cons] at h0
    have hq : (r.request n c x).block.length = n := hw.request c x hc (fun hf => h0.2 (.inr hf))
    intro q hmem
    rw [runBlocks_cons, List.mem_cons] at hmem
    rcases hmem with rfl | hmem
    · exact hq
    · cases xs with
      | nil => simp at hmem
      | cons y ys =>
        exact ih (hw.next c x _ hc (answer_length t hq) (h0.2 (.inl (by simp)))) hx.tail q hmem

/-- The output of a run is as long as its input. -/
theorem runBlocks_output_length {t : BlockTransform} {n : Nat} {r : BlockRule} {full : Bool} (hw : r.Widths n full)
    {c : Chaining} (hc : c.chain.length = n) {xs : List Bytes} (hx : Cut n full xs) :
    (runBlocks t n r c xs).output.length = xs.flatten.length := by
  induction xs generalizing c with
  | nil => rfl
  | cons x xs ih =>
    have h0 := hx 0 (by simp)
    simp only [List.getElem_cons_zero, List.length_cons] at h0
    have hq : (r.request n c x).block.length = n := hw.request c x hc (fun hf => h0.2 (.inr hf))
    have ho := hw.output c x _ hc (answer_length t hq) h0.1 (fun hf => h0.2 (.inr hf))
    rw [runBlocks_cons]
    simp only [List.length_append, List.flatten_cons, ho, Nat.add_left_cancel_iff]
    cases xs with
    | nil => rfl
    | cons y ys => exact ih (hw.next c x _ hc (answer_length t hq) (h0.2 (.inl (by simp)))) hx.tail

/-- CHAIN keeps its N bytes up to any block that follows whole blocks only. -/
theorem runBlocks_chain_width {t : BlockTransform} {n : Nat} {r : BlockRule} {full : Bool} (hw : r.Widths n full)
    {c : Chaining} (hc : c.chain.length = n) {xs : List Bytes} (hx : Cut n full xs) {i : Nat} (hi : i < xs.length) :
    (runBlocks t n r c (xs.take i)).last.chain.length = n := by
  induction xs generalizing c i with
  | nil => simp at hi
  | cons x xs ih =>
    cases i with
    | zero => exact hc
    | succ i =>
      simp only [List.length_cons] at hi
      have h0 := hx 0 (by simp)
      simp only [List.getElem_cons_zero, List.length_cons] at h0
      have hq : (r.request n c x).block.length = n := hw.request c x hc (fun hf => h0.2 (.inr hf))
      rw [List.take_succ_cons, runBlocks_cons]
      exact ih (hw.next c x _ hc (answer_length t hq) (h0.2 (.inl (by omega)))) hx.tail (by omega)

/-- Block `j` of the output is what the rule gives for block `j` of the input, from where the blocks before it end. -/
theorem runBlocks_blockAt {t : BlockTransform} {n : Nat} {r : BlockRule} {full : Bool} (hw : r.Widths n full)
    {c : Chaining} (hc : c.chain.length = n) {xs : List Bytes} (hx : Cut n full xs) {j : Nat} (hj : j < xs.length) :
    blockAt n (runBlocks t n r c xs).output j =
      let cj := (runBlocks t n r c (xs.take j)).last
      r.output cj xs[j] (answer t n (r.request n cj xs[j])) := by
  induction xs generalizing c j with
  | nil => simp at hj
  | cons x xs ih =>
    have h0 := hx 0 (by simp)
    simp only [List.getElem_cons_zero, List.length_cons] at h0
    have hq : (r.request n c x).block.length = n := hw.request c x hc (fun hf => h0.2 (.inr hf))
    have ho := hw.output c x _ hc (answer_length t hq) h0.1 (fun hf => h0.2 (.inr hf))
    simp only [List.length_cons] at hj
    rw [runBlocks_cons]
    cases j with
    | zero =>
      simp only [blockAt, Nat.zero_mul, List.drop_zero, List.take_zero, runBlocks_nil, List.getElem_cons_zero]
      cases xs with
      | nil => rw [runBlocks_nil, List.append_nil, List.take_of_length_le (by omega)]
      | cons y ys =>
        have := h0.2 (.inl (by simp))
        rw [List.take_append_of_le_length (by omega), List.take_of_length_le (by omega)]
    | succ j =>
      have hfull := h0.2 (.inl (by omega))
      have := ih (hw.next c x _ hc (answer_length t hq) hfull) hx.tail (j := j) (by omega)
      simp only [List.take_succ_cons, runBlocks_cons, List.getElem_cons_succ]
      rw [← this]
      unfold blockAt
      rw [Nat.succ_mul, Nat.add_comm, ← List.drop_drop]
      congr 2
      rw [List.drop_append_of_le_length (by omega), List.drop_of_length_le (by omega), List.nil_append]

end Sys2Proof.Machine
end

