-- ==== Sys2Proof/Laws/State.lean ====
section
/-! SUPPORT. For each named update of State, what every field holds after it. -/

namespace Sys2Proof.Machine

/-! `accept`: 43_facade.md R220. -/

@[simp] theorem accept_cfg (s : State) (w : Word) (c : Option Instr) (r : Result) : (accept s w c r).cfg = s.cfg := rfl
@[simp] theorem accept_bt (s : State) (w : Word) (c : Option Instr) (r : Result) : (accept s w c r).bt = s.bt := rfl
@[simp] theorem accept_rstN (s : State) (w : Word) (c : Option Instr) (r : Result) : (accept s w c r).rstN = s.rstN := rfl
@[simp] theorem accept_mem (s : State) (w : Word) (c : Option Instr) (r : Result) : (accept s w c r).mem = s.mem := rfl
@[simp] theorem accept_status (s : State) (w : Word) (c : Option Instr) (r : Result) : (accept s w c r).status = { done := false, ok := false, busyErr := s.status.busyErr } := rfl
@[simp] theorem accept_error (s : State) (w : Word) (c : Option Instr) (r : Result) : (accept s w c r).error = { cls := .none, cause := .none } := rfl
@[simp] theorem accept_ie (s : State) (w : Word) (c : Option Instr) (r : Result) : (accept s w c r).ie = s.ie := rfl
@[simp] theorem accept_ivLen (s : State) (w : Word) (c : Option Instr) (r : Result) : (accept s w c r).ivLen = s.ivLen := rfl
@[simp] theorem accept_inLen (s : State) (w : Word) (c : Option Instr) (r : Result) : (accept s w c r).inLen = s.inLen := rfl
@[simp] theorem accept_outLen (s : State) (w : Word) (c : Option Instr) (r : Result) : (accept s w c r).outLen = 0 := rfl
@[simp] theorem accept_lastCmd (s : State) (w : Word) (c : Option Instr) (r : Result) : (accept s w c r).lastCmd = w := rfl
@[simp] theorem accept_phase (s : State) (w : Word) (c : Option Instr) (r : Result) : (accept s w c r).phase = .busy := rfl
@[simp] theorem accept_cur (s : State) (w : Word) (c : Option Instr) (r : Result) : (accept s w c r).cur = c := rfl
@[simp] theorem accept_res (s : State) (w : Word) (c : Option Instr) (r : Result) : (accept s w c r).res = r := rfl
@[simp] theorem accept_blk (s : State) (w : Word) (c : Option Instr) (r : Result) : (accept s w c r).blk = 0 := rfl
@[simp] theorem accept_chaining (s : State) (w : Word) (c : Option Instr) (r : Result) : (accept s w c r).chaining = initialChaining s := rfl
@[simp] theorem accept_btPending (s : State) (w : Word) (c : Option Instr) (r : Result) : (accept s w c r).btPending = none := rfl
@[simp] theorem accept_btLog (s : State) (w : Word) (c : Option Instr) (r : Result) : (accept s w c r).btLog = [] := rfl
@[simp] theorem accept_readData (s : State) (w : Word) (c : Option Instr) (r : Result) : (accept s w c r).readData = s.readData := rfl
@[simp] theorem accept_commands (s : State) (w : Word) (c : Option Instr) (r : Result) : (accept s w c r).commands = s.commands := rfl
@[simp] theorem accept_epoch (s : State) (w : Word) (c : Option Instr) (r : Result) : (accept s w c r).epoch = s.epoch := rfl
@[simp] theorem accept_inputs (s : State) (w : Word) (c : Option Instr) (r : Result) : (accept s w c r).inputs = s.inputs := rfl

/-! `dropWrite`: 43_facade.md R221, R233. -/

@[simp] theorem dropWrite_cfg (s : State) : (dropWrite s).cfg = s.cfg := rfl
@[simp] theorem dropWrite_bt (s : State) : (dropWrite s).bt = s.bt := rfl
@[simp] theorem dropWrite_rstN (s : State) : (dropWrite s).rstN = s.rstN := rfl
@[simp] theorem dropWrite_mem (s : State) : (dropWrite s).mem = s.mem := rfl
@[simp] theorem dropWrite_status (s : State) : (dropWrite s).status = { s.status with busyErr := true } := rfl
@[simp] theorem dropWrite_error (s : State) : (dropWrite s).error = s.error := rfl
@[simp] theorem dropWrite_ie (s : State) : (dropWrite s).ie = s.ie := rfl
@[simp] theorem dropWrite_ivLen (s : State) : (dropWrite s).ivLen = s.ivLen := rfl
@[simp] theorem dropWrite_inLen (s : State) : (dropWrite s).inLen = s.inLen := rfl
@[simp] theorem dropWrite_outLen (s : State) : (dropWrite s).outLen = s.outLen := rfl
@[simp] theorem dropWrite_lastCmd (s : State) : (dropWrite s).lastCmd = s.lastCmd := rfl
@[simp] theorem dropWrite_phase (s : State) : (dropWrite s).phase = s.phase := rfl
@[simp] theorem dropWrite_cur (s : State) : (dropWrite s).cur = s.cur := rfl
@[simp] theorem dropWrite_res (s : State) : (dropWrite s).res = s.res := rfl
@[simp] theorem dropWrite_blk (s : State) : (dropWrite s).blk = s.blk := rfl
@[simp] theorem dropWrite_chaining (s : State) : (dropWrite s).chaining = s.chaining := rfl
@[simp] theorem dropWrite_btPending (s : State) : (dropWrite s).btPending = s.btPending := rfl
@[simp] theorem dropWrite_btLog (s : State) : (dropWrite s).btLog = s.btLog := rfl
@[simp] theorem dropWrite_readData (s : State) : (dropWrite s).readData = s.readData := rfl
@[simp] theorem dropWrite_commands (s : State) : (dropWrite s).commands = s.commands := rfl
@[simp] theorem dropWrite_epoch (s : State) : (dropWrite s).epoch = s.epoch := rfl
@[simp] theorem dropWrite_inputs (s : State) : (dropWrite s).inputs = s.inputs := rfl

/-! `completeOk`: 43_facade.md R230. -/

@[simp] theorem completeOk_cfg (s : State) (y : Bytes) : (completeOk s y).cfg = s.cfg := rfl
@[simp] theorem completeOk_bt (s : State) (y : Bytes) : (completeOk s y).bt = s.bt := rfl
@[simp] theorem completeOk_rstN (s : State) (y : Bytes) : (completeOk s y).rstN = s.rstN := rfl
@[simp] theorem completeOk_mem (s : State) (y : Bytes) : (completeOk s y).mem = Memory.writeBytes s.mem outBase y := rfl
@[simp] theorem completeOk_status (s : State) (y : Bytes) : (completeOk s y).status = { s.status with done := true, ok := true } := rfl
@[simp] theorem completeOk_error (s : State) (y : Bytes) : (completeOk s y).error = { cls := .none, cause := .none } := rfl
@[simp] theorem completeOk_ie (s : State) (y : Bytes) : (completeOk s y).ie = s.ie := rfl
@[simp] theorem completeOk_ivLen (s : State) (y : Bytes) : (completeOk s y).ivLen = s.ivLen := rfl
@[simp] theorem completeOk_inLen (s : State) (y : Bytes) : (completeOk s y).inLen = s.inLen := rfl
@[simp] theorem completeOk_outLen (s : State) (y : Bytes) : (completeOk s y).outLen = BitVec.ofNat 32 y.length := rfl
@[simp] theorem completeOk_lastCmd (s : State) (y : Bytes) : (completeOk s y).lastCmd = s.lastCmd := rfl
@[simp] theorem completeOk_phase (s : State) (y : Bytes) : (completeOk s y).phase = .idle := rfl
@[simp] theorem completeOk_cur (s : State) (y : Bytes) : (completeOk s y).cur = s.cur := rfl
@[simp] theorem completeOk_res (s : State) (y : Bytes) : (completeOk s y).res = s.res := rfl
@[simp] theorem completeOk_blk (s : State) (y : Bytes) : (completeOk s y).blk = s.blk := rfl
@[simp] theorem completeOk_chaining (s : State) (y : Bytes) : (completeOk s y).chaining = s.chaining := rfl
@[simp] theorem completeOk_btPending (s : State) (y : Bytes) : (completeOk s y).btPending = none := rfl
@[simp] theorem completeOk_btLog (s : State) (y : Bytes) : (completeOk s y).btLog = s.btLog := rfl
@[simp] theorem completeOk_readData (s : State) (y : Bytes) : (completeOk s y).readData = s.readData := rfl
@[simp] theorem completeOk_commands (s : State) (y : Bytes) : (completeOk s y).commands = s.commands + 1 := rfl
@[simp] theorem completeOk_epoch (s : State) (y : Bytes) : (completeOk s y).epoch = s.epoch + 1 := rfl
@[simp] theorem completeOk_inputs (s : State) (y : Bytes) : (completeOk s y).inputs = s.inputs := rfl

/-! `completeError`: 43_facade.md R231. -/

@[simp] theorem completeError_cfg (s : State) (c : Cause) : (completeError s c).cfg = s.cfg := rfl
@[simp] theorem completeError_bt (s : State) (c : Cause) : (completeError s c).bt = s.bt := rfl
@[simp] theorem completeError_rstN (s : State) (c : Cause) : (completeError s c).rstN = s.rstN := rfl
@[simp] theorem completeError_mem (s : State) (c : Cause) : (completeError s c).mem = s.mem := rfl
@[simp] theorem completeError_status (s : State) (c : Cause) : (completeError s c).status = { s.status with done := true, ok := false } := rfl
@[simp] theorem completeError_error (s : State) (c : Cause) : (completeError s c).error = { cls := c.cls, cause := c } := rfl
@[simp] theorem completeError_ie (s : State) (c : Cause) : (completeError s c).ie = s.ie := rfl
@[simp] theorem completeError_ivLen (s : State) (c : Cause) : (completeError s c).ivLen = s.ivLen := rfl
@[simp] theorem completeError_inLen (s : State) (c : Cause) : (completeError s c).inLen = s.inLen := rfl
@[simp] theorem completeError_outLen (s : State) (c : Cause) : (completeError s c).outLen = 0 := rfl
@[simp] theorem completeError_lastCmd (s : State) (c : Cause) : (completeError s c).lastCmd = s.lastCmd := rfl
@[simp] theorem completeError_phase (s : State) (c : Cause) : (completeError s c).phase = .idle := rfl
@[simp] theorem completeError_cur (s : State) (c : Cause) : (completeError s c).cur = s.cur := rfl
@[simp] theorem completeError_res (s : State) (c : Cause) : (completeError s c).res = s.res := rfl
@[simp] theorem completeError_blk (s : State) (c : Cause) : (completeError s c).blk = s.blk := rfl
@[simp] theorem completeError_chaining (s : State) (c : Cause) : (completeError s c).chaining = s.chaining := rfl
@[simp] theorem completeError_btPending (s : State) (c : Cause) : (completeError s c).btPending = none := rfl
@[simp] theorem completeError_btLog (s : State) (c : Cause) : (completeError s c).btLog = s.btLog := rfl
@[simp] theorem completeError_readData (s : State) (c : Cause) : (completeError s c).readData = s.readData := rfl
@[simp] theorem completeError_commands (s : State) (c : Cause) : (completeError s c).commands = s.commands + 1 := rfl
@[simp] theorem completeError_epoch (s : State) (c : Cause) : (completeError s c).epoch = s.epoch + 1 := rfl
@[simp] theorem completeError_inputs (s : State) (c : Cause) : (completeError s c).inputs = s.inputs := rfl

/-! `resetRegisters`: 70_reset_and_hazards.md R290. -/

@[simp] theorem resetRegisters_cfg (s : State) (b : Bool) : (resetRegisters s b).cfg = s.cfg := rfl
@[simp] theorem resetRegisters_bt (s : State) (b : Bool) : (resetRegisters s b).bt = s.bt := rfl
@[simp] theorem resetRegisters_rstN (s : State) (b : Bool) : (resetRegisters s b).rstN = b := rfl
@[simp] theorem resetRegisters_mem (s : State) (b : Bool) : (resetRegisters s b).mem = [] := rfl
@[simp] theorem resetRegisters_status (s : State) (b : Bool) : (resetRegisters s b).status = { done := false, ok := false, busyErr := false } := rfl
@[simp] theorem resetRegisters_error (s : State) (b : Bool) : (resetRegisters s b).error = { cls := .none, cause := .none } := rfl
@[simp] theorem resetRegisters_ie (s : State) (b : Bool) : (resetRegisters s b).ie = { doneIe := false, busyErrIe := false } := rfl
@[simp] theorem resetRegisters_ivLen (s : State) (b : Bool) : (resetRegisters s b).ivLen = 0 := rfl
@[simp] theorem resetRegisters_inLen (s : State) (b : Bool) : (resetRegisters s b).inLen = 0 := rfl
@[simp] theorem resetRegisters_outLen (s : State) (b : Bool) : (resetRegisters s b).outLen = 0 := rfl
@[simp] theorem resetRegisters_lastCmd (s : State) (b : Bool) : (resetRegisters s b).lastCmd = 0 := rfl
@[simp] theorem resetRegisters_phase (s : State) (b : Bool) : (resetRegisters s b).phase = .idle := rfl
@[simp] theorem resetRegisters_cur (s : State) (b : Bool) : (resetRegisters s b).cur = none := rfl
@[simp] theorem resetRegisters_res (s : State) (b : Bool) : (resetRegisters s b).res = .output [] := rfl
@[simp] theorem resetRegisters_blk (s : State) (b : Bool) : (resetRegisters s b).blk = 0 := rfl
@[simp] theorem resetRegisters_chaining (s : State) (b : Bool) : (resetRegisters s b).chaining = Chaining.zero s.cfg.n := rfl
@[simp] theorem resetRegisters_btPending (s : State) (b : Bool) : (resetRegisters s b).btPending = none := rfl
@[simp] theorem resetRegisters_btLog (s : State) (b : Bool) : (resetRegisters s b).btLog = [] := rfl
@[simp] theorem resetRegisters_readData (s : State) (b : Bool) : (resetRegisters s b).readData = 0 := rfl
@[simp] theorem resetRegisters_commands (s : State) (b : Bool) : (resetRegisters s b).commands = s.commands + 1 := rfl
@[simp] theorem resetRegisters_epoch (s : State) (b : Bool) : (resetRegisters s b).epoch = s.epoch + 1 := rfl
@[simp] theorem resetRegisters_inputs (s : State) (b : Bool) : (resetRegisters s b).inputs = s.inputs := rfl

/-! `issueRequest`: 43_facade.md R234. -/

@[simp] theorem issueRequest_cfg (r : BlockRule) (x : Bytes) (s : State) : (issueRequest r x s).cfg = s.cfg := rfl
@[simp] theorem issueRequest_bt (r : BlockRule) (x : Bytes) (s : State) : (issueRequest r x s).bt = s.bt := rfl
@[simp] theorem issueRequest_rstN (r : BlockRule) (x : Bytes) (s : State) : (issueRequest r x s).rstN = s.rstN := rfl
@[simp] theorem issueRequest_mem (r : BlockRule) (x : Bytes) (s : State) : (issueRequest r x s).mem = s.mem := rfl
@[simp] theorem issueRequest_status (r : BlockRule) (x : Bytes) (s : State) : (issueRequest r x s).status = s.status := rfl
@[simp] theorem issueRequest_error (r : BlockRule) (x : Bytes) (s : State) : (issueRequest r x s).error = s.error := rfl
@[simp] theorem issueRequest_ie (r : BlockRule) (x : Bytes) (s : State) : (issueRequest r x s).ie = s.ie := rfl
@[simp] theorem issueRequest_ivLen (r : BlockRule) (x : Bytes) (s : State) : (issueRequest r x s).ivLen = s.ivLen := rfl
@[simp] theorem issueRequest_inLen (r : BlockRule) (x : Bytes) (s : State) : (issueRequest r x s).inLen = s.inLen := rfl
@[simp] theorem issueRequest_outLen (r : BlockRule) (x : Bytes) (s : State) : (issueRequest r x s).outLen = s.outLen := rfl
@[simp] theorem issueRequest_lastCmd (r : BlockRule) (x : Bytes) (s : State) : (issueRequest r x s).lastCmd = s.lastCmd := rfl
@[simp] theorem issueRequest_phase (r : BlockRule) (x : Bytes) (s : State) : (issueRequest r x s).phase = s.phase := rfl
@[simp] theorem issueRequest_cur (r : BlockRule) (x : Bytes) (s : State) : (issueRequest r x s).cur = s.cur := rfl
@[simp] theorem issueRequest_res (r : BlockRule) (x : Bytes) (s : State) : (issueRequest r x s).res = s.res := rfl
@[simp] theorem issueRequest_blk (r : BlockRule) (x : Bytes) (s : State) : (issueRequest r x s).blk = s.blk := rfl
@[simp] theorem issueRequest_chaining (r : BlockRule) (x : Bytes) (s : State) : (issueRequest r x s).chaining = s.chaining := rfl
@[simp] theorem issueRequest_btPending (r : BlockRule) (x : Bytes) (s : State) : (issueRequest r x s).btPending = some (r.request s.cfg.n s.chaining x) := rfl
@[simp] theorem issueRequest_btLog (r : BlockRule) (x : Bytes) (s : State) : (issueRequest r x s).btLog = s.btLog ++ [r.request s.cfg.n s.chaining x] := rfl
@[simp] theorem issueRequest_readData (r : BlockRule) (x : Bytes) (s : State) : (issueRequest r x s).readData = s.readData := rfl
@[simp] theorem issueRequest_commands (r : BlockRule) (x : Bytes) (s : State) : (issueRequest r x s).commands = s.commands := rfl
@[simp] theorem issueRequest_epoch (r : BlockRule) (x : Bytes) (s : State) : (issueRequest r x s).epoch = s.epoch := rfl
@[simp] theorem issueRequest_inputs (r : BlockRule) (x : Bytes) (s : State) : (issueRequest r x s).inputs = s.inputs := rfl

/-! `takeAnswer`: 43_facade.md R228, R235. -/

@[simp] theorem takeAnswer_cfg (w : Work) (r : BlockRule) (x : Bytes) (q : BtRequest) (s : State) : (takeAnswer w r x q s).cfg = s.cfg := rfl
@[simp] theorem takeAnswer_bt (w : Work) (r : BlockRule) (x : Bytes) (q : BtRequest) (s : State) : (takeAnswer w r x q s).bt = s.bt := rfl
@[simp] theorem takeAnswer_rstN (w : Work) (r : BlockRule) (x : Bytes) (q : BtRequest) (s : State) : (takeAnswer w r x q s).rstN = s.rstN := rfl
@[simp] theorem takeAnswer_mem (w : Work) (r : BlockRule) (x : Bytes) (q : BtRequest) (s : State) : (takeAnswer w r x q s).mem = if w.writesBlocks then
      Memory.writeBytes s.mem (outBase + s.blk * s.cfg.n) (r.output s.chaining x (answer s.bt s.cfg.n q)) else s.mem := rfl
@[simp] theorem takeAnswer_status (w : Work) (r : BlockRule) (x : Bytes) (q : BtRequest) (s : State) : (takeAnswer w r x q s).status = s.status := rfl
@[simp] theorem takeAnswer_error (w : Work) (r : BlockRule) (x : Bytes) (q : BtRequest) (s : State) : (takeAnswer w r x q s).error = s.error := rfl
@[simp] theorem takeAnswer_ie (w : Work) (r : BlockRule) (x : Bytes) (q : BtRequest) (s : State) : (takeAnswer w r x q s).ie = s.ie := rfl
@[simp] theorem takeAnswer_ivLen (w : Work) (r : BlockRule) (x : Bytes) (q : BtRequest) (s : State) : (takeAnswer w r x q s).ivLen = s.ivLen := rfl
@[simp] theorem takeAnswer_inLen (w : Work) (r : BlockRule) (x : Bytes) (q : BtRequest) (s : State) : (takeAnswer w r x q s).inLen = s.inLen := rfl
@[simp] theorem takeAnswer_outLen (w : Work) (r : BlockRule) (x : Bytes) (q : BtRequest) (s : State) : (takeAnswer w r x q s).outLen = s.outLen := rfl
@[simp] theorem takeAnswer_lastCmd (w : Work) (r : BlockRule) (x : Bytes) (q : BtRequest) (s : State) : (takeAnswer w r x q s).lastCmd = s.lastCmd := rfl
@[simp] theorem takeAnswer_phase (w : Work) (r : BlockRule) (x : Bytes) (q : BtRequest) (s : State) : (takeAnswer w r x q s).phase = s.phase := rfl
@[simp] theorem takeAnswer_cur (w : Work) (r : BlockRule) (x : Bytes) (q : BtRequest) (s : State) : (takeAnswer w r x q s).cur = s.cur := rfl
@[simp] theorem takeAnswer_res (w : Work) (r : BlockRule) (x : Bytes) (q : BtRequest) (s : State) : (takeAnswer w r x q s).res = s.res := rfl
@[simp] theorem takeAnswer_blk (w : Work) (r : BlockRule) (x : Bytes) (q : BtRequest) (s : State) : (takeAnswer w r x q s).blk = s.blk + 1 := rfl
@[simp] theorem takeAnswer_chaining (w : Work) (r : BlockRule) (x : Bytes) (q : BtRequest) (s : State) : (takeAnswer w r x q s).chaining = r.next s.cfg.n s.chaining x (answer s.bt s.cfg.n q) := rfl
@[simp] theorem takeAnswer_btPending (w : Work) (r : BlockRule) (x : Bytes) (q : BtRequest) (s : State) : (takeAnswer w r x q s).btPending = none := rfl
@[simp] theorem takeAnswer_btLog (w : Work) (r : BlockRule) (x : Bytes) (q : BtRequest) (s : State) : (takeAnswer w r x q s).btLog = s.btLog := rfl
@[simp] theorem takeAnswer_readData (w : Work) (r : BlockRule) (x : Bytes) (q : BtRequest) (s : State) : (takeAnswer w r x q s).readData = s.readData := rfl
@[simp] theorem takeAnswer_commands (w : Work) (r : BlockRule) (x : Bytes) (q : BtRequest) (s : State) : (takeAnswer w r x q s).commands = s.commands := rfl
@[simp] theorem takeAnswer_epoch (w : Work) (r : BlockRule) (x : Bytes) (q : BtRequest) (s : State) : (takeAnswer w r x q s).epoch = s.epoch := rfl
@[simp] theorem takeAnswer_inputs (w : Work) (r : BlockRule) (x : Bytes) (q : BtRequest) (s : State) : (takeAnswer w r x q s).inputs = s.inputs := rfl

/-! `writeStatus`: 10_state.md R40. -/

@[simp] theorem writeStatus_cfg (s : State) (w : Word) (b : Strobe) : (writeStatus s w b).cfg = s.cfg := rfl
@[simp] theorem writeStatus_bt (s : State) (w : Word) (b : Strobe) : (writeStatus s w b).bt = s.bt := rfl
@[simp] theorem writeStatus_rstN (s : State) (w : Word) (b : Strobe) : (writeStatus s w b).rstN = s.rstN := rfl
@[simp] theorem writeStatus_mem (s : State) (w : Word) (b : Strobe) : (writeStatus s w b).mem = s.mem := rfl
@[simp] theorem writeStatus_status (s : State) (w : Word) (b : Strobe) : (writeStatus s w b).status = { s.status with
      done := s.status.done && !(b.getLsbD 0 && w.getLsbD 1)
      busyErr := s.status.busyErr && !(b.getLsbD 0 && w.getLsbD 3) } := rfl
@[simp] theorem writeStatus_error (s : State) (w : Word) (b : Strobe) : (writeStatus s w b).error = s.error := rfl
@[simp] theorem writeStatus_ie (s : State) (w : Word) (b : Strobe) : (writeStatus s w b).ie = s.ie := rfl
@[simp] theorem writeStatus_ivLen (s : State) (w : Word) (b : Strobe) : (writeStatus s w b).ivLen = s.ivLen := rfl
@[simp] theorem writeStatus_inLen (s : State) (w : Word) (b : Strobe) : (writeStatus s w b).inLen = s.inLen := rfl
@[simp] theorem writeStatus_outLen (s : State) (w : Word) (b : Strobe) : (writeStatus s w b).outLen = s.outLen := rfl
@[simp] theorem writeStatus_lastCmd (s : State) (w : Word) (b : Strobe) : (writeStatus s w b).lastCmd = s.lastCmd := rfl
@[simp] theorem writeStatus_phase (s : State) (w : Word) (b : Strobe) : (writeStatus s w b).phase = s.phase := rfl
@[simp] theorem writeStatus_cur (s : State) (w : Word) (b : Strobe) : (writeStatus s w b).cur = s.cur := rfl
@[simp] theorem writeStatus_res (s : State) (w : Word) (b : Strobe) : (writeStatus s w b).res = s.res := rfl
@[simp] theorem writeStatus_blk (s : State) (w : Word) (b : Strobe) : (writeStatus s w b).blk = s.blk := rfl
@[simp] theorem writeStatus_chaining (s : State) (w : Word) (b : Strobe) : (writeStatus s w b).chaining = s.chaining := rfl
@[simp] theorem writeStatus_btPending (s : State) (w : Word) (b : Strobe) : (writeStatus s w b).btPending = s.btPending := rfl
@[simp] theorem writeStatus_btLog (s : State) (w : Word) (b : Strobe) : (writeStatus s w b).btLog = s.btLog := rfl
@[simp] theorem writeStatus_readData (s : State) (w : Word) (b : Strobe) : (writeStatus s w b).readData = s.readData := rfl
@[simp] theorem writeStatus_commands (s : State) (w : Word) (b : Strobe) : (writeStatus s w b).commands = s.commands := rfl
@[simp] theorem writeStatus_epoch (s : State) (w : Word) (b : Strobe) : (writeStatus s w b).epoch = s.epoch := rfl
@[simp] theorem writeStatus_inputs (s : State) (w : Word) (b : Strobe) : (writeStatus s w b).inputs = s.inputs := rfl

/-! `writeIe`: 10_state.md R42; every field but IE. -/

@[simp] theorem writeIe_cfg (s : State) (w : Word) (b : Strobe) : (writeIe s w b).cfg = s.cfg := by
  unfold writeIe; split <;> rfl
@[simp] theorem writeIe_bt (s : State) (w : Word) (b : Strobe) : (writeIe s w b).bt = s.bt := by
  unfold writeIe; split <;> rfl
@[simp] theorem writeIe_rstN (s : State) (w : Word) (b : Strobe) : (writeIe s w b).rstN = s.rstN := by
  unfold writeIe; split <;> rfl
@[simp] theorem writeIe_mem (s : State) (w : Word) (b : Strobe) : (writeIe s w b).mem = s.mem := by
  unfold writeIe; split <;> rfl
@[simp] theorem writeIe_status (s : State) (w : Word) (b : Strobe) : (writeIe s w b).status = s.status := by
  unfold writeIe; split <;> rfl
@[simp] theorem writeIe_error (s : State) (w : Word) (b : Strobe) : (writeIe s w b).error = s.error := by
  unfold writeIe; split <;> rfl
@[simp] theorem writeIe_ivLen (s : State) (w : Word) (b : Strobe) : (writeIe s w b).ivLen = s.ivLen := by
  unfold writeIe; split <;> rfl
@[simp] theorem writeIe_inLen (s : State) (w : Word) (b : Strobe) : (writeIe s w b).inLen = s.inLen := by
  unfold writeIe; split <;> rfl
@[simp] theorem writeIe_outLen (s : State) (w : Word) (b : Strobe) : (writeIe s w b).outLen = s.outLen := by
  unfold writeIe; split <;> rfl
@[simp] theorem writeIe_lastCmd (s : State) (w : Word) (b : Strobe) : (writeIe s w b).lastCmd = s.lastCmd := by
  unfold writeIe; split <;> rfl
@[simp] theorem writeIe_phase (s : State) (w : Word) (b : Strobe) : (writeIe s w b).phase = s.phase := by
  unfold writeIe; split <;> rfl
@[simp] theorem writeIe_cur (s : State) (w : Word) (b : Strobe) : (writeIe s w b).cur = s.cur := by
  unfold writeIe; split <;> rfl
@[simp] theorem writeIe_res (s : State) (w : Word) (b : Strobe) : (writeIe s w b).res = s.res := by
  unfold writeIe; split <;> rfl
@[simp] theorem writeIe_blk (s : State) (w : Word) (b : Strobe) : (writeIe s w b).blk = s.blk := by
  unfold writeIe; split <;> rfl
@[simp] theorem writeIe_chaining (s : State) (w : Word) (b : Strobe) : (writeIe s w b).chaining = s.chaining := by
  unfold writeIe; split <;> rfl
@[simp] theorem writeIe_btPending (s : State) (w : Word) (b : Strobe) : (writeIe s w b).btPending = s.btPending := by
  unfold writeIe; split <;> rfl
@[simp] theorem writeIe_btLog (s : State) (w : Word) (b : Strobe) : (writeIe s w b).btLog = s.btLog := by
  unfold writeIe; split <;> rfl
@[simp] theorem writeIe_readData (s : State) (w : Word) (b : Strobe) : (writeIe s w b).readData = s.readData := by
  unfold writeIe; split <;> rfl
@[simp] theorem writeIe_commands (s : State) (w : Word) (b : Strobe) : (writeIe s w b).commands = s.commands := by
  unfold writeIe; split <;> rfl
@[simp] theorem writeIe_epoch (s : State) (w : Word) (b : Strobe) : (writeIe s w b).epoch = s.epoch := by
  unfold writeIe; split <;> rfl
@[simp] theorem writeIe_inputs (s : State) (w : Word) (b : Strobe) : (writeIe s w b).inputs = s.inputs := by
  unfold writeIe; split <;> rfl

end Sys2Proof.Machine
end

