-- ==== Sys2Proof/Laws/Exec.lean ====
section
/-! SUPPORT. What each shared operation can do: presenting a command, completing it, one move of the engine; and that a command's
job and result depend on its operands alone. -/

namespace Sys2Proof.Machine

open Sys2Proof.Safety

/-- The legal ranges of the parameters, spelt out. -/
theorem legal_iff (c : Config) :
    c.legal = true ↔ 1 ≤ c.n ∧ c.n ≤ 256 ∧ 1 ≤ c.inCap ∧ c.inCap + c.n ≤ 65536 ∧ c.base % 0x40000 = 0 := by
  simp [Config.legal, and_assoc]

/-- Every command's meaning presents its word with its job's result. -/
theorem exec_eq (i : Instr) (s : State) :
    exec i s = .next (present s (encode i) (some i) ((commandJob i s).result s)) := by
  cases i <;> rfl

/-- A command presented while MOCE takes one is accepted. -/
theorem present_ready {s : State} (h : Ready s) (w : Word) (c : Option Instr) (r : Result) :
    present s w c r = accept s w c r := by
  simp [present, h.1, h.2]

theorem exec_ready {s : State} (h : Ready s) (i : Instr) :
    exec i s = .next (accept s (encode i) (some i) ((commandJob i s).result s)) := by
  rw [exec_eq, present_ready h]

/-- Presenting a command word does one of three things. -/
theorem present_cases (s : State) (w : Word) (c : Option Instr) (r : Result) :
    (s.rstN = false ∧ present s w c r = s) ∨
    (s.rstN = true ∧ s.phase = .busy ∧ present s w c r = dropWrite s) ∨
    (Ready s ∧ present s w c r = accept s w c r) := by
  unfold present Ready
  cases s.rstN <;> cases s.phase <;> simp

/-- A completion commits RES. -/
theorem complete_cases (s : State) :
    (∃ y, s.res = .output y ∧ complete s = completeOk s y) ∨ (∃ c, s.res = .error c ∧ complete s = completeError s c) := by
  unfold complete
  cases h : s.res
  · exact .inl ⟨_, rfl, rfl⟩
  · exact .inr ⟨_, rfl, rfl⟩

/-- One move of the engine: nothing, a completion, a request, or an answer. -/
theorem engineMove_cases (s : State) :
    ((s.rstN = false ∨ s.phase = .idle) ∧ engineMove s = s) ∨
    (s.rstN = true ∧ s.phase = .busy ∧
      ((engineMove s = complete s ∧
          ((∃ c, curJob s.cur s = .stop c) ∨
            ∃ w, curJob s.cur s = .work w ∧
              ∀ r, w.rule = some r → blockCount s.cfg.n w.input.length ≤ s.blk)) ∨
        ∃ w r, curJob s.cur s = .work w ∧ w.rule = some r ∧ s.blk < blockCount s.cfg.n w.input.length ∧
          ((s.btPending = none ∧ engineMove s = issueRequest r (blockAt s.cfg.n w.input s.blk) s) ∨
            ∃ q, s.btPending = some q ∧ engineMove s = takeAnswer w r (blockAt s.cfg.n w.input s.blk) q s))) := by
  by_cases h : s.rstN = false ∨ s.phase = .idle
  · exact .inl ⟨h, by simp [engineMove, h]⟩
  · obtain ⟨h1, h2⟩ := not_or.1 h
    have h1' : s.rstN = true := by simpa using h1
    have h2' : s.phase = .busy := by cases hp : s.phase <;> simp_all
    refine .inr ⟨h1', h2', ?_⟩
    unfold engineMove
    rw [if_neg h]
    cases hj : curJob s.cur s with
    | stop c => exact .inl ⟨rfl, .inl ⟨c, rfl⟩⟩
    | work w =>
      cases hr : w.rule with
      | none => exact .inl ⟨by simp only [hr], .inr ⟨w, rfl, by simp [hr]⟩⟩
      | some r =>
        simp only [hr]
        by_cases hb : s.blk < blockCount s.cfg.n w.input.length
        · refine .inr ⟨w, r, rfl, hr, hb, ?_⟩
          cases hp : s.btPending with
          | none => exact .inl ⟨rfl, by rw [if_pos hb]⟩
          | some q => exact .inr ⟨q, rfl, by rw [if_pos hb]⟩
        · refine .inl ⟨by rw [if_neg hb], .inr ⟨w, rfl, fun r' h' => ?_⟩⟩
          omega

/-- A byte of the IV window always has a value: its storage resets to zero (10_state.md R48). -/
theorem read_iv_isSome (m : List Host.Cell) {j : Nat} (h : j < 0x100) : ∃ v, Memory.read m (ivBase + j) = some v := by
  induction m with
  | nil => exact ⟨0, Memory.unlisted_iv h⟩
  | cons c m ih =>
    rw [Memory.read_cons]
    split
    · exact ⟨_, rfl⟩
    · exact ih

/-- The bytes of the IV storage depend on memory alone. -/
theorem ivBytes_congr {s u : State} (hc : u.cfg = s.cfg) (hl : s.cfg.legal = true)
    (h : ∀ off, off < outBase → Memory.read u.mem off = Memory.read s.mem off) : ivBytes u = ivBytes s := by
  obtain ⟨-, hn, -⟩ := (legal_iff _).1 hl
  unfold ivBytes
  rw [hc]
  apply List.map_congr_left
  intro j hj
  have hj' : j < 0x100 := by have := List.mem_range.1 hj; omega
  obtain ⟨v, hv⟩ := read_iv_isSome s.mem hj'
  have := h (ivBase + j) (by unfold ivBase outBase; omega)
  simp [storedByte, this, hv]

@[simp] theorem ivBytes_length (s : State) : (ivBytes s).length = s.cfg.n := by simp [ivBytes]

@[simp] theorem message_length (s : State) : (message s).length = s.inLen.toNat := by simp [message]

/-- What a command's result depends on. -/
structure SameOperands (s u : State) : Prop where
  cfg : u.cfg = s.cfg
  bt : u.bt = s.bt
  ivLen : u.ivLen = s.ivLen
  inLen : u.inLen = s.inLen
  commands : u.commands = s.commands
  storage : ∀ off, off < outBase → Memory.read u.mem off = Memory.read s.mem off

theorem SameOperands.refl (s : State) : SameOperands s s := ⟨rfl, rfl, rfl, rfl, rfl, fun _ _ => rfl⟩

theorem SameOperands.trans {s t u : State} (h : SameOperands s t) (k : SameOperands t u) : SameOperands s u :=
  ⟨k.cfg.trans h.cfg, k.bt.trans h.bt, k.ivLen.trans h.ivLen, k.inLen.trans h.inLen, k.commands.trans h.commands,
    fun o ho => (k.storage o ho).trans (h.storage o ho)⟩

/-- The message depends on the operands alone, when it fits the input buffer. -/
theorem message_congr {s u : State} (h : SameOperands s u) (hl : s.cfg.legal = true)
    (hfit : exceedsCapacity s = false) : message u = message s := by
  obtain ⟨-, -, -, hcap, -⟩ := (legal_iff _).1 hl
  unfold message
  rw [h.inLen, h.commands]
  apply List.map_congr_left
  intro j hj
  have hj' := List.mem_range.1 hj
  simp only [exceedsCapacity, decide_eq_false_iff_not] at hfit
  rw [h.storage (inBase + j) (by unfold inBase outBase; omega)]

theorem initialChaining_congr {s u : State} (h : SameOperands s u) (hl : s.cfg.legal = true) :
    initialChaining u = initialChaining s := by
  unfold initialChaining
  rw [ivBytes_congr h.cfg hl h.storage, h.cfg]

/-- The job of a command depends on the operands alone. -/
theorem commandJob_congr {s u : State} (h : SameOperands s u) (hl : s.cfg.legal = true) (i : Instr) :
    commandJob i u = commandJob i s := by
  have hcap : exceedsCapacity u = exceedsCapacity s := by simp [exceedsCapacity, h.cfg, h.inLen]
  have hm : exceedsCapacity s = false → message u = message s := message_congr h hl
  cases hx : exceedsCapacity s with
  | true =>
    cases i <;>
      simp [commandJob, encEcbJob, encCbcJob, encPcbcJob, encCfbJob, encOfbJob, encCtrJob, decEcbJob, decCbcJob, decPcbcJob,
        decCfbJob, decOfbJob, decCtrJob, padJob, unpadJob, blockEncrypt, blockDecrypt, streamCrypt, Job.failIf,
        schemeTooWide, h.cfg, hcap, hx]
  | false =>
    have hmsg := hm hx
    cases i <;>
      simp [commandJob, encEcbJob, encCbcJob, encPcbcJob, encCfbJob, encOfbJob, encCtrJob, decEcbJob, decCbcJob, decPcbcJob,
        decCfbJob, decOfbJob, decCtrJob, padJob, unpadJob, blockEncrypt, blockDecrypt, streamCrypt, Job.failIf,
        schemeTooWide, ivLengthWrong, misaligned, h.cfg, h.ivLen, h.inLen, hcap, hx, hmsg]

theorem curJob_congr {s u : State} (h : SameOperands s u) (hl : s.cfg.legal = true) (c : Option Instr) :
    curJob c u = curJob c s := by
  cases c with
  | none => rfl
  | some i => exact commandJob_congr h hl i

/-- The result of a job depends on the operands alone. -/
theorem result_congr {s u : State} (h : SameOperands s u) (hl : s.cfg.legal = true) (j : Job) : j.result u = j.result s := by
  cases j with
  | stop c => rfl
  | work w =>
    simp only [Job.result, Work.run, initialChaining_congr h hl, h.bt, h.cfg]

/-- An accept leaves the operands alone. -/
theorem accept_sameOperands (s : State) (w : Word) (c : Option Instr) (r : Result) : SameOperands s (accept s w c r) :=
  ⟨rfl, rfl, rfl, rfl, rfl, fun _ _ => rfl⟩

/-- Until it completes the command, a move of the engine leaves the operands alone. -/
theorem engineMove_sameOperands {s : State} (h : (engineMove s).phase = .busy) : SameOperands s (engineMove s) := by
  rcases engineMove_cases s with ⟨-, he⟩ | ⟨-, hb, ⟨he, -⟩ | ⟨w, r, -, -, -, ⟨-, he⟩ | ⟨q, -, he⟩⟩⟩
  · rw [he]; exact SameOperands.refl s
  · rw [he] at h
    rcases complete_cases s with ⟨y, -, hy⟩ | ⟨c, -, hc⟩
    · rw [hy] at h; simp at h
    · rw [hc] at h; simp at h
  · rw [he]; exact ⟨rfl, rfl, rfl, rfl, rfl, fun _ _ => rfl⟩
  · rw [he]
    refine ⟨rfl, rfl, rfl, rfl, rfl, fun off ho => ?_⟩
    rw [takeAnswer_mem]
    split
    · exact Memory.read_writeBytes_other _ _ (.inl (by omega))
    · rfl

/-- What a move of the engine never changes, 43_facade.md R238. -/
theorem engineMove_frame (s : State) :
    (engineMove s).cfg = s.cfg ∧ (engineMove s).bt = s.bt ∧ (engineMove s).rstN = s.rstN ∧ (engineMove s).ie = s.ie ∧
    (engineMove s).ivLen = s.ivLen ∧ (engineMove s).inLen = s.inLen ∧ (engineMove s).lastCmd = s.lastCmd ∧
    (engineMove s).status.busyErr = s.status.busyErr ∧ (engineMove s).readData = s.readData ∧
    (engineMove s).inputs = s.inputs ∧ (engineMove s).cur = s.cur ∧ (engineMove s).res = s.res ∧
    ∀ off, off < outBase → Memory.read (engineMove s).mem off = Memory.read s.mem off := by
  rcases engineMove_cases s with ⟨-, he⟩ | ⟨-, -, ⟨he, -⟩ | ⟨w, r, -, -, -, ⟨-, he⟩ | ⟨q, -, he⟩⟩⟩
  · rw [he]; simp
  · rcases complete_cases s with ⟨y, -, hy⟩ | ⟨c, -, hc⟩
    · rw [he, hy]
      simp only [completeOk_cfg, completeOk_bt, completeOk_rstN, completeOk_ie, completeOk_ivLen, completeOk_inLen,
        completeOk_lastCmd, completeOk_status, completeOk_readData, completeOk_inputs, completeOk_cur, completeOk_res,
        completeOk_mem, true_and]
      exact fun off ho => Memory.read_writeBytes_other _ _ (.inl ho)
    · rw [he, hc]; simp
  · rw [he]; simp
  · rw [he]
    simp only [takeAnswer_cfg, takeAnswer_bt, takeAnswer_rstN, takeAnswer_ie, takeAnswer_ivLen, takeAnswer_inLen,
      takeAnswer_lastCmd, takeAnswer_status, takeAnswer_readData, takeAnswer_inputs, takeAnswer_cur, takeAnswer_res,
      takeAnswer_mem, true_and]
    intro off ho
    split
    · exact Memory.read_writeBytes_other _ _ (.inl (by omega))
    · rfl

end Sys2Proof.Machine
end

