-- ==== Sys2Proof/Laws/Padding.lean ====
section
/-! SUPPORT. The padding count, the backward scan for the marker 0x80, and the shapes that `unpad` accepts (40_padding.md). -/

namespace Sys2Proof.Machine

theorem padCount_pos {n len : Nat} (hn : 1 ≤ n) : 1 ≤ padCount n len := by
  have := Nat.mod_lt len (show 0 < n by omega); unfold padCount; omega

theorem padCount_le (n len : Nat) : padCount n len ≤ n := by unfold padCount; omega

/-- The padded length is a whole number of blocks. -/
theorem add_padCount_mod {n len : Nat} (hn : 1 ≤ n) : (len + padCount n len) % n = 0 := by
  have h := Nat.mod_lt len (show 0 < n by omega)
  have h2 := Nat.div_add_mod len n
  have : len + padCount n len = n * (len / n + 1) := by unfold padCount; rw [Nat.mul_add, Nat.mul_one]; omega
  rw [this, Nat.mul_mod_right]

/-- The count that pads a length to a whole number of blocks, between 1 and N, is the padding count. -/
theorem padCount_eq_of_mod {n len k : Nat} (h1 : 1 ≤ k) (h2 : k ≤ n) (h : (len + k) % n = 0) : padCount n len = k := by
  have hn : 1 ≤ n := by omega
  have hp := padCount_pos (len := len) hn
  have hl := padCount_le n len
  have ha := add_padCount_mod (len := len) hn
  obtain ⟨a, ha⟩ := Nat.dvd_of_mod_eq_zero ha
  obtain ⟨b, hb⟩ := Nat.dvd_of_mod_eq_zero h
  rcases Nat.lt_trichotomy a b with hab | hab | hab
  · have := Nat.mul_le_mul_left n (show a + 1 ≤ b from hab); rw [Nat.mul_add] at this; omega
  · subst hab; omega
  · have := Nat.mul_le_mul_left n (show b + 1 ≤ a from hab); rw [Nat.mul_add] at this; omega

/-- The backward scan finds `k` bytes exactly when they are `k - 1` zero bytes and then the marker. -/
theorem markerLength_eq_some_iff (b : Bytes) (k : Nat) :
    markerLength b = some k ↔ ∃ r, 1 ≤ k ∧ b = List.replicate (k - 1) 0x00#8 ++ 0x80#8 :: r := by
  induction b generalizing k with
  | nil => simp [markerLength]
  | cons x b ih =>
    unfold markerLength
    split
    · next hx =>
      subst hx
      cases hm : markerLength b with
      | none =>
        simp only [Option.map_none, reduceCtorEq, false_iff, not_exists, not_and]
        intro r hk hb
        match k, hk with
        | 1, _ => simp at hb
        | k + 2, _ =>
          simp only [show k + 2 - 1 = k + 1 by omega, List.replicate_succ, List.cons_append,
            List.cons.injEq, true_and] at hb
          have := (ih (k + 1)).2 ⟨r, by omega, by simpa using hb⟩
          rw [hm] at this; simp at this
      | some j =>
        obtain ⟨r, hj, rfl⟩ := (ih j).1 hm
        simp only [Option.map_some, Option.some.injEq]
        constructor
        · rintro rfl
          refine ⟨r, by omega, ?_⟩
          obtain ⟨i, rfl⟩ : ∃ i, j = i + 1 := ⟨j - 1, by omega⟩
          simp [List.replicate_succ]
        · rintro ⟨r', hk, hb⟩
          match k, hk with
          | 1, _ => simp at hb
          | k + 2, _ =>
            simp only [show k + 2 - 1 = k + 1 by omega, List.replicate_succ, List.cons_append,
              List.cons.injEq, true_and] at hb
            have := (ih (k + 1)).2 ⟨r', by omega, by simpa using hb⟩
            rw [hm] at this
            simpa using this
    · next hx =>
      split
      · next h8 =>
        subst h8
        simp only [Option.some.injEq]
        constructor
        · rintro rfl; exact ⟨b, by omega, rfl⟩
        · rintro ⟨r, hk, hb⟩
          match k, hk with
          | 1, _ => rfl
          | k + 2, _ => simp [List.replicate_succ] at hb
      · next h8 =>
        simp only [reduceCtorEq, false_iff, not_exists, not_and]
        intro r hk hb
        match k, hk with
        | 1, _ => simp at hb; exact h8 hb.1
        | k + 2, _ => simp [List.replicate_succ] at hb; exact hx hb.1

/-- What `unpad` accepts for the schemes with a marker: a message and, inside the final block, 0x80 and zero bytes. -/
theorem unpadMarker_eq_output_iff {n : Nat} (hn : 1 ≤ n) {b : Bytes} (hb : b.length % n = 0) (x : Bytes) :
    unpadMarker n b = .output x ↔ ∃ k, 1 ≤ k ∧ k ≤ n ∧ b = x ++ 0x80#8 :: List.replicate (k - 1) 0x00#8 := by
  unfold unpadMarker
  split
  · next h0 =>
    have : b = [] := List.eq_nil_of_length_eq_zero h0
    subst this; simp
  · next h0 =>
    have hnb : n ≤ b.length := Nat.le_of_dvd (by omega) (Nat.dvd_of_mod_eq_zero hb)
    have hsplit : b = b.take (b.length - n) ++ b.drop (b.length - n) := (List.take_append_drop _ _).symm
    have hdl : (b.drop (b.length - n)).length = n := by simp; omega
    have scan : ∀ k, markerLength (b.drop (b.length - n)).reverse = some k ↔
        1 ≤ k ∧ k ≤ n ∧ b = b.take (b.length - k) ++ 0x80#8 :: List.replicate (k - 1) 0x00#8 := by
      intro k
      rw [markerLength_eq_some_iff]
      constructor
      · rintro ⟨r, hk, hr⟩
        have hl := congrArg List.length hr
        simp only [List.length_reverse, List.length_append, List.length_replicate, List.length_cons, hdl] at hl
        have hr' := congrArg List.reverse hr
        simp only [List.reverse_reverse, List.reverse_append, List.reverse_cons, List.reverse_replicate] at hr'
        refine ⟨hk, by omega, ?_⟩
        have hbig : b = (b.take (b.length - n) ++ r.reverse) ++ 0x80#8 :: List.replicate (k - 1) 0x00#8 := by
          conv_lhs => rw [hsplit, hr']
          simp
        have hlen : b.length - k = (b.take (b.length - n) ++ r.reverse).length := by simp; omega
        rw [hlen]
        conv_rhs => rw [hbig]
        rw [List.take_left' (by simp; omega)]
        exact hbig
      · rintro ⟨hk, hkn, hbk⟩
        refine ⟨((b.take (b.length - k)).drop (b.length - n)).reverse, hk, ?_⟩
        have : b.drop (b.length - n) = (b.take (b.length - k)).drop (b.length - n) ++
            0x80#8 :: List.replicate (k - 1) 0x00#8 := by
          conv_lhs => rw [hbk]
          rw [List.drop_append_of_le_length (by simp; omega)]
          congr 2; simp; omega
        rw [this]; simp
    constructor
    · intro h
      split at h
      · cases h
      · next k hk =>
        obtain ⟨h1, h2, h3⟩ := (scan k).1 hk
        simp only [Result.output.injEq] at h
        exact ⟨k, h1, h2, by rw [h] at h3; exact h3⟩
    · rintro ⟨k, h1, h2, h3⟩
      have hl : b.length - k = x.length := by rw [h3]; simp; omega
      have ht : b.take (b.length - k) = x := by rw [hl, h3]; simp
      rw [(scan k).2 ⟨h1, h2, by rw [ht]; exact h3⟩]
      simp only [ht]

/-- What `unpad` accepts for the schemes with a count: a message and `k` bytes, of which the last holds `k` and the others the
filler that goes with it. -/
theorem unpadCounted_eq_output_iff {n : Nat} (hn : 1 ≤ n) (hn' : n ≤ 255) (filler : Byte → Byte) {b : Bytes}
    (hb : b.length % n = 0) (x : Bytes) :
    unpadCounted n filler b = .output x ↔ ∃ k, 1 ≤ k ∧ k ≤ n ∧
      b = x ++ (List.replicate (k - 1) (filler (BitVec.ofNat 8 k)) ++ [BitVec.ofNat 8 k]) := by
  unfold unpadCounted
  split
  · next h0 =>
    have : b = [] := List.eq_nil_of_length_eq_zero h0
    subst this; simp
  · next h0 =>
    have hnb : n ≤ b.length := Nat.le_of_dvd (by omega) (Nat.dvd_of_mod_eq_zero hb)
    simp only []
    constructor
    · intro h
      split at h
      · cases h
      · next hk =>
        split at h
        · cases h
        · next hf =>
          simp only [Result.output.injEq] at h
          generalize hkdef : (b.getLastD 0#8).toNat = k at *
          have hlast : b.getLastD 0#8 = BitVec.ofNat 8 k := by rw [← hkdef]; simp
          refine ⟨k, by omega, by omega, ?_⟩
          rw [hlast] at hf
          have hd : b.drop (b.length - k) = (b.drop (b.length - k)).take (k - 1) ++ (b.drop (b.length - k)).drop (k - 1) :=
            (List.take_append_drop _ _).symm
          have hdlen : (b.drop (b.length - k)).length = k := by simp; omega
          have h1 : (b.drop (b.length - k)).take (k - 1) = List.replicate (k - 1) (filler (BitVec.ofNat 8 k)) := by
            rw [List.eq_replicate_iff]
            refine ⟨by rw [List.length_take, hdlen]; omega, fun y hy => ?_⟩
            by_contra hne
            exact hf (List.any_eq_true.2 ⟨y, hy, by simpa using hne⟩)
          have h2 : (b.drop (b.length - k)).drop (k - 1) = [BitVec.ofNat 8 k] := by
            rw [List.drop_drop, show b.length - k + (k - 1) = b.length - 1 by omega]
            rw [List.getLastD_eq_getLast?, List.getLast?_eq_getElem?, List.getElem?_eq_getElem (by omega)] at hlast
            rw [List.drop_eq_getElem_cons (by omega), List.drop_of_length_le (by omega)]
            simpa using hlast
          rw [← h, ← h1, ← h2, ← hd, List.take_append_drop]
    · rintro ⟨k, h1, h2, h3⟩
      have hlen : b.length = x.length + k := by rw [h3]; simp; omega
      have hlast : b.getLastD 0#8 = BitVec.ofNat 8 k := by rw [h3]; simp [List.getLastD_eq_getLast?]
      have hk : (BitVec.ofNat 8 k).toNat = k := by rw [BitVec.toNat_ofNat, Nat.mod_eq_of_lt (by omega)]
      rw [hlast, hk, if_neg (by omega), hlen, Nat.add_sub_cancel, h3, List.drop_left, List.take_left]
      rw [List.take_left' (by simp)]
      rw [if_neg]
      simp

end Sys2Proof.Machine
end

