-- ==== Sys2Proof/Laws/Jobs.lean ====
section
/-! SUPPORT. What the checks 1 to 5 of each command leave (43_facade.md R222): the error of the first that fails, or its work. -/

namespace Sys2Proof.Machine

open Sys2Proof.Safety

/-- `pad` raises only for None. -/
theorem pad_error_iff (n : Nat) (p : Padding) (x : Bytes) (c : Cause) :
    pad n p x = .error c ↔ p = .none ∧ x.length % n ≠ 0 ∧ c = .notAligned := by
  cases p <;> simp [pad]
  split <;> simp_all [eq_comm]

/-- A padded message is a whole number of blocks, and at most one block longer. -/
theorem pad_length {n : Nat} (hn : 1 ≤ n) {p : Padding} {x y : Bytes} (h : pad n p x = .output y) :
    y.length % n = 0 ∧ x.length ≤ y.length ∧ y.length ≤ x.length + n ∧ (p = .none → y = x) := by
  have h1 := add_padCount_mod (len := x.length) hn
  have h2 := padCount_pos (len := x.length) hn
  have h3 := padCount_le n x.length
  cases p with
  | none =>
    simp only [pad] at h
    split at h
    · cases h
    · next hx =>
      simp only [Result.output.injEq] at h
      subst h
      exact ⟨by simpa using hx, le_refl _, by omega, fun _ => rfl⟩
  | _ =>
    simp only [pad, Result.output.injEq] at h
    subst h
    simp only [List.length_append, List.length_replicate, List.length_cons, List.length_nil, reduceCtorEq, false_implies,
      and_true]
    refine ⟨?_, by omega, by omega⟩
    refine Eq.trans (congrArg (· % n) ?_) h1
    omega

/-- What the length of `pad`'s output depends on. -/
theorem pad_length_congr {n : Nat} {p : Padding} {x x' y y' : Bytes} (hl : x'.length = x.length)
    (h : pad n p x = .output y) (h' : pad n p x' = .output y') : y'.length = y.length := by
  cases p <;> simp only [pad, hl] at h h' <;> (try split at h) <;> (try split at h') <;> simp_all <;>
    (subst h h'; simp [hl])

/-- `unpad` raises nothing but BAD_PADDING. -/
theorem unpad_error {n : Nat} {p : Padding} {b : Bytes} {c : Cause} (h : unpad n p b = .error c) : c = .badPadding := by
  revert h
  cases p <;> simp only [unpad, unpadMarker, unpadCounted] <;> (repeat' split) <;>
    simp only [Result.error.injEq, reduceCtorEq, false_implies] <;> exact Eq.symm

/-- `unpad` never lengthens. -/
theorem unpad_length_le {n : Nat} {p : Padding} {b x : Bytes} (h : unpad n p b = .output x) : x.length ≤ b.length := by
  revert h
  cases p <;> simp only [unpad, unpadMarker, unpadCounted] <;> (repeat' split) <;> simp_all <;>
    (rintro rfl; simp)

/-- The work of a block-aligned ENC whose checks pass. -/
theorem blockEncrypt_cases (p : Padding) (iv : Bool) (r : BlockRule) (s : State) :
    (∃ c, blockEncrypt p iv r s = .stop c) ∨
    (∃ x, pad s.cfg.n p (message s) = .output x ∧ s.inLen.toNat ≤ s.cfg.inCap ∧
      blockEncrypt p iv r s = .work { input := x, rule := some r, writesBlocks := true, finish := .output }) := by
  unfold blockEncrypt Job.failIf Job.ofPadded
  by_cases h1 : schemeTooWide s p = true
  · exact .inl ⟨_, by rw [if_pos h1]⟩
  · by_cases h2 : exceedsCapacity s = true
    · exact .inl ⟨_, by rw [if_neg h1, if_pos h2]⟩
    · by_cases h3 : (iv && ivLengthWrong s) = true
      · exact .inl ⟨_, by rw [if_neg h1, if_neg h2, if_pos h3]⟩
      · rw [if_neg h1, if_neg h2, if_neg h3]
        cases h : pad s.cfg.n p (message s) with
        | error c => exact .inl ⟨c, rfl⟩
        | output x => exact .inr ⟨x, rfl, by simpa [exceedsCapacity] using h2, rfl⟩

/-- What the work of every command meets: its input fits the output buffer, `finish` never lengthens, and is the output itself
where the rule writes blocks, and the blocks suit the widths of the rule. -/
structure Work.Sound (w : Work) (c : Config) : Prop where
  fits : w.input.length ≤ c.outCap
  finish_le : ∀ z y, w.finish z = .output y → y.length ≤ z.length
  finish_writes : w.writesBlocks = true → w.finish = .output
  widths : ∀ r, w.rule = some r → ∃ full, r.Widths c.n full ∧ Cut c.n full (blocks c.n w.input)

/-- The work of every command is sound. -/
theorem commandJob_work {i : Instr} {s : State} {w : Work} (hl : s.cfg.legal = true) (h : commandJob i s = .work w) :
    w.Sound s.cfg := by
  obtain ⟨hn, -, -, -, -⟩ := (legal_iff _).1 hl
  have enc : ∀ (p : Padding) (iv : Bool) (r : BlockRule), r.Widths s.cfg.n true → blockEncrypt p iv r s = .work w → w.Sound s.cfg := fun p iv r hw hj => by
    rcases blockEncrypt_cases p iv r s with ⟨c, hc⟩ | ⟨x, hx, hcap, hc⟩
    · rw [hc] at hj; cases hj
    · rw [hc] at hj
      simp only [Job.work.injEq] at hj
      obtain ⟨h1, h2, h3, -⟩ := pad_length hn hx
      subst hj
      refine ⟨?_, ?_, fun _ => rfl, fun r' hr' => ⟨true, ?_, blocks_cut_full hn h1⟩⟩
      · rw [message_length] at h3; unfold Config.outCap; exact h3.trans (by omega)
      · intro z y hy; simp only [Result.output.injEq] at hy; rw [hy]
      · cases hr'; exact hw
  have dec : ∀ (p : Padding) (iv : Bool) (r : BlockRule), r.Widths s.cfg.n true → blockDecrypt p iv r s = .work w → w.Sound s.cfg := fun p iv r hw hj => by
    unfold blockDecrypt Job.failIf at hj
    split at hj
    · cases hj
    · split at hj
      · cases hj
      · next hcap =>
        split at hj
        · cases hj
        · split at hj
          · cases hj
          · next hm =>
            simp only [Job.work.injEq] at hj
            subst hj
            have hm' : (message s).length % s.cfg.n = 0 := by
              rw [message_length]; simpa [misaligned] using hm
            refine ⟨?_, fun z y hy => unpad_length_le hy, by simp, fun r' hr' => ⟨true, ?_, blocks_cut_full hn hm'⟩⟩
            · simp only [exceedsCapacity, decide_eq_true_eq, Nat.not_lt] at hcap
              rw [message_length]; unfold Config.outCap; omega
            · cases hr'; exact hw
  have str : ∀ r : BlockRule, r.Widths s.cfg.n false → streamCrypt r s = .work w → w.Sound s.cfg := fun r hw hj => by
    unfold streamCrypt Job.failIf at hj
    split at hj
    · cases hj
    · next hcap =>
      split at hj
      · cases hj
      · simp only [Job.work.injEq] at hj
        subst hj
        refine ⟨?_, ?_, fun _ => rfl, fun r' hr' => ⟨false, ?_, blocks_cut hn _⟩⟩
        · simp only [exceedsCapacity, decide_eq_true_eq, Nat.not_lt] at hcap
          rw [message_length]; unfold Config.outCap; omega
        · intro z y hy; simp only [Result.output.injEq] at hy; rw [hy]
        · cases hr'; exact hw
  cases i with
  | encEcb p => exact enc p _ _ (ecbEncRule_widths _) h
  | encCbc p => exact enc p _ _ (cbcEncRule_widths _) h
  | encPcbc p => exact enc p _ _ (pcbcEncRule_widths _) h
  | encCfb p => exact str _ (cfbEncRule_widths _) h
  | encOfb p => exact str _ (ofbRule_widths _) h
  | encCtr p => exact str _ (ctrRule_widths _) h
  | decEcb p => exact dec p _ _ (ecbDecRule_widths _) h
  | decCbc p => exact dec p _ _ (cbcDecRule_widths _) h
  | decPcbc p => exact dec p _ _ (pcbcDecRule_widths _) h
  | decCfb p => exact str _ (cfbDecRule_widths _) h
  | decOfb p => exact str _ (ofbRule_widths _) h
  | decCtr p => exact str _ (ctrRule_widths _) h
  | pad p =>
    change padJob p s = _ at h
    unfold padJob Job.failIf Job.ofPadded at h
    split at h
    · cases h
    · split at h
      · cases h
      · next hcap =>
        split at h
        · next x hx =>
          obtain ⟨h1, h2, h3, -⟩ := pad_length hn hx
          simp only [Job.work.injEq] at h
          subst h
          refine ⟨?_, ?_, by simp, by simp⟩
          · simp only [exceedsCapacity, decide_eq_true_eq, Nat.not_lt] at hcap
            rw [message_length] at h3; unfold Config.outCap; exact h3.trans (by omega)
          · intro z y hy; simp only [Result.output.injEq] at hy; rw [hy]
        · cases h
  | unpad p =>
    change unpadJob p s = _ at h
    unfold unpadJob Job.failIf at h
    split at h
    · cases h
    · split at h
      · cases h
      · next hcap =>
        split at h
        · cases h
        · simp only [Job.work.injEq] at h
          subst h
          refine ⟨?_, fun z y hy => unpad_length_le hy, by simp, by simp⟩
          simp only [exceedsCapacity, decide_eq_true_eq, Nat.not_lt] at hcap
          rw [message_length]; unfold Config.outCap; omega

/-- The output of a command's run is as long as its input, and every output of its result fits the output buffer. -/
theorem commandJob_output_length {i : Instr} {s : State} {w : Work} (hl : s.cfg.legal = true) (h : commandJob i s = .work w) :
    (w.run s).output.length = w.input.length ∧ ∀ y, w.finish (w.run s).output = .output y → y.length ≤ s.cfg.outCap := by
  obtain ⟨h1, h2, -, h4⟩ := commandJob_work hl h
  obtain ⟨hn, -⟩ := (legal_iff _).1 hl
  have hlen : (w.run s).output.length = w.input.length := by
    unfold Work.run
    cases hr : w.rule with
    | none => rfl
    | some r =>
      obtain ⟨full, hw, hc⟩ := h4 r hr
      simp only []
      rw [runBlocks_output_length hw (by simp [initialChaining]) hc, blocks_flatten hn]
  exact ⟨hlen, fun y hy => (h2 _ _ hy).trans (by omega)⟩

end Sys2Proof.Machine
end

