-- ==== Sys2Proof/Laws/Engine.lean ====
section
/-! SUPPORT. The engine stays on track (Safety.lean, `OnTrack`): an accept puts it there, and each request and each answer keeps it
there (43_facade.md R228, R234, R237). -/

namespace Sys2Proof.Machine

open Sys2Proof.Safety

/-- Bytes stored where the bytes already there end are read back after them. -/
theorem read_append {m : List Host.Cell} {x : Bytes} (h : ∀ j b, x[j]? = some b → Memory.read m (outBase + j) = some b)
    (v : Bytes) (j : Nat) (b : Byte) (hb : (x ++ v)[j]? = some b) :
    Memory.read (Memory.writeBytes m (outBase + x.length) v) (outBase + j) = some b := by
  by_cases hj : j < x.length
  · rw [List.getElem?_append_left hj] at hb
    rw [Memory.read_writeBytes_other _ _ (.inl (by omega))]
    exact h j b hb
  · rw [List.getElem?_append_right (by omega)] at hb
    obtain ⟨hlt, rfl⟩ := List.getElem?_eq_some_iff.1 hb
    have := Memory.read_writeBytes (off := outBase + x.length) (by unfold ivBase outBase; omega) v m (j - x.length) hlt
    rwa [show outBase + x.length + (j - x.length) = outBase + j by omega] at this

/-- The first blocks of a sequence, while more are to come, are whole. -/
theorem take_blocks_length {n : Nat} (hn : 1 ≤ n) (x : Bytes) {k : Nat} (hk : k < blockCount n x.length) :
    ((blocks n x).take k).flatten.length = k * n := by
  have hc := blocks_cut hn x
  induction k with
  | zero => simp
  | succ k ih =>
    rw [List.take_add_one, List.getElem?_eq_getElem (by simp; omega), List.flatten_append, List.length_append, ih (by omega)]
    have := (hc k (by simp; omega)).2 (.inl (by simpa using hk))
    simp [this, Nat.succ_mul]

/-- What the engine has done after some blocks of a command's work. -/
def Work.soFar (w : Work) (r : BlockRule) (s : State) (k : Nat) : BlockRun :=
  runBlocks s.bt s.cfg.n r (initialChaining s) ((blocks s.cfg.n w.input).take k)

theorem onTrack_stop {s : State} {c : Cause} (hj : curJob s.cur s = .stop c) :
    OnTrack s ↔ s.btPending = none ∧ s.btLog = [] := by
  unfold OnTrack; rw [hj]

theorem onTrack_plain {s : State} {w : Work} (hj : curJob s.cur s = .work w) (hr : w.rule = none) :
    OnTrack s ↔ s.btPending = none ∧ s.btLog = [] := by
  unfold OnTrack; simp only [hj, hr]

theorem onTrack_rule {s : State} {w : Work} {r : BlockRule} (hj : curJob s.cur s = .work w) (hr : w.rule = some r) :
    OnTrack s ↔ s.blk ≤ blockCount s.cfg.n w.input.length ∧
      s.chaining = (w.soFar r s s.blk).last ∧
      s.btLog = (w.soFar r s s.blk).requests ++ s.btPending.toList ∧
      (∀ q, s.btPending = some q →
        s.blk < blockCount s.cfg.n w.input.length ∧
        q = r.request s.cfg.n s.chaining (blockAt s.cfg.n w.input s.blk)) ∧
      (w.writesBlocks = true → ∀ j b, (w.soFar r s s.blk).output[j]? = some b → Memory.read s.mem (outBase + j) = some b) := by
  unfold OnTrack; simp only [hj, hr]; rfl

/-- `curJob` is the job of a command, or the stop of an illegal word. -/
theorem curJob_work {c : Option Instr} {s : State} {w : Work} (hj : curJob c s = .work w) :
    ∃ i, c = some i ∧ commandJob i s = .work w := by
  cases c with
  | none => cases hj
  | some i => exact ⟨i, rfl, hj⟩

/-- An accept puts the engine on track. -/
theorem onTrack_accept (s : State) (w : Word) (c : Option Instr) (res : Result) :
    OnTrack (accept s w c res) := by
  cases hj : curJob (accept s w c res).cur (accept s w c res) with
  | stop _ => exact (onTrack_stop hj).2 ⟨rfl, rfl⟩
  | work w' =>
    cases hr : w'.rule with
    | none => exact (onTrack_plain hj hr).2 ⟨rfl, rfl⟩
    | some r =>
      refine (onTrack_rule hj hr).2 ⟨Nat.zero_le _, rfl, rfl, by simp, fun _ => ?_⟩
      simp [Work.soFar]

/-- A request keeps the engine on track. -/
theorem onTrack_issueRequest {s : State} {w : Work} {r : BlockRule} (hl : s.cfg.legal = true) (h : OnTrack s)
    (hj : curJob s.cur s = .work w) (hr : w.rule = some r) (hb : s.blk < blockCount s.cfg.n w.input.length)
    (hp : s.btPending = none) : OnTrack (issueRequest r (blockAt s.cfg.n w.input s.blk) s) := by
  obtain ⟨h1, h2, h3, -, h5⟩ := (onTrack_rule hj hr).1 h
  have hs : SameOperands s (issueRequest r (blockAt s.cfg.n w.input s.blk) s) := ⟨rfl, rfl, rfl, rfl, rfl, fun _ _ => rfl⟩
  have hj' : curJob (issueRequest r (blockAt s.cfg.n w.input s.blk) s).cur
      (issueRequest r (blockAt s.cfg.n w.input s.blk) s) = .work w := (curJob_congr hs hl _).trans hj
  refine (onTrack_rule hj' hr).2 ⟨h1, h2, ?_, ?_, h5⟩
  · rw [hp] at h3
    simp only [Option.toList_none, List.append_nil] at h3
    simp only [issueRequest_btLog, issueRequest_btPending, Option.toList_some, h3]
    rfl
  · intro q hq
    simp only [issueRequest_btPending, Option.some.injEq] at hq
    exact ⟨hb, hq.symm⟩

/-- An answer keeps the engine on track. -/
theorem onTrack_takeAnswer {s : State} {w : Work} {r : BlockRule} {q : BtRequest} (hl : s.cfg.legal = true) (h : OnTrack s)
    (hj : curJob s.cur s = .work w) (hr : w.rule = some r) (hb : s.blk < blockCount s.cfg.n w.input.length)
    (hp : s.btPending = some q) : OnTrack (takeAnswer w r (blockAt s.cfg.n w.input s.blk) q s) := by
  obtain ⟨hn, -⟩ := (legal_iff _).1 hl
  obtain ⟨-, h2, h3, h4, h5⟩ := (onTrack_rule hj hr).1 h
  obtain ⟨i, -, hji⟩ := curJob_work hj
  obtain ⟨full, hw, hc⟩ := (commandJob_work hl hji).widths r hr
  obtain ⟨-, hq⟩ := h4 q hp
  set x := blockAt s.cfg.n w.input s.blk with hx
  have hs : SameOperands s (takeAnswer w r x q s) := by
    refine ⟨rfl, rfl, rfl, rfl, rfl, fun off ho => ?_⟩
    rw [takeAnswer_mem]; split
    · exact Memory.read_writeBytes_other _ _ (.inl (by omega))
    · rfl
  have hj' : curJob (takeAnswer w r x q s).cur (takeAnswer w r x q s) = .work w := (curJob_congr hs hl _).trans hj
  have hlen : s.blk < (blocks s.cfg.n w.input).length := by simpa using hb
  have hsucc : w.soFar r (takeAnswer w r x q s) (s.blk + 1) =
      { output := (w.soFar r s s.blk).output ++ r.output s.chaining x (answer s.bt s.cfg.n q)
        requests := (w.soFar r s s.blk).requests ++ [q]
        last := r.next s.cfg.n s.chaining x (answer s.bt s.cfg.n q) } := by
    unfold Work.soFar
    rw [initialChaining_congr hs hl]
    change runBlocks s.bt s.cfg.n r _ _ = _
    rw [show (blocks (takeAnswer w r x q s).cfg.n w.input) = blocks s.cfg.n w.input from rfl,
      runBlocks_take_succ _ _ _ _ _ hlen]
    simp only [blocks_getElem, ← hx]
    rw [show (runBlocks s.bt s.cfg.n r (initialChaining s) ((blocks s.cfg.n w.input).take s.blk)).last = s.chaining
      from h2.symm, ← hq]
  refine (onTrack_rule hj' hr).2 ⟨hb, ?_, ?_, by simp, fun hwb => ?_⟩
  · rw [takeAnswer_blk, hsucc]; rfl
  · rw [takeAnswer_blk, hsucc, takeAnswer_btLog, h3, hp]; simp
  · rw [takeAnswer_blk, hsucc]
    have hl1 : (w.soFar r s s.blk).output.length = s.blk * s.cfg.n := by
      unfold Work.soFar
      rw [runBlocks_output_length hw (by simp [initialChaining]) (hc.take _), take_blocks_length hn _ hb]
    rw [takeAnswer_mem, if_pos hwb, ← hl1]
    exact read_append (h5 hwb) _

/-- A move of the engine that does not complete the command keeps it on track. -/
theorem onTrack_engineMove {s : State} (hl : s.cfg.legal = true) (h : OnTrack s) (hb : (engineMove s).phase = .busy) :
    OnTrack (engineMove s) := by
  rcases engineMove_cases s with ⟨-, he⟩ | ⟨-, -, ⟨he, -⟩ | ⟨w, r, hj, hr, hlt, ⟨hp, he⟩ | ⟨q, hp, he⟩⟩⟩
  · rw [he]; exact h
  · rw [he] at hb
    rcases complete_cases s with ⟨y, -, hy⟩ | ⟨c, -, hc⟩
    · rw [hy] at hb; simp at hb
    · rw [hc] at hb; simp at hb
  · rw [he]; exact onTrack_issueRequest hl h hj hr hlt hp
  · rw [he]; exact onTrack_takeAnswer hl h hj hr hlt hp

end Sys2Proof.Machine
end

