-- ==== Sys2Proof/Laws/Bus.lean ====
section
/-! SUPPORT. What a host write and a host read can do (20_memory.md), and what the events of the total order can do. -/

namespace Sys2Proof.Machine

open Sys2Proof.Safety

/-- The bytes a window write stores, one lane after the other. -/
theorem writeWindow_eq (m : List Host.Cell) (base b limit : Nat) (data : Word) (strb : Strobe) :
    let w := fun (m : List Host.Cell) (j : Nat) =>
      if strb.getLsbD j = true ∧ b + j < limit then Memory.write m (base + (b + j)) (lane data j) else m
    writeWindow m base b limit data strb = w (w (w (w m 0) 1) 2) 3 := rfl

/-- A window write keeps what every byte write keeps. -/
theorem writeWindow_induct {P : List Host.Cell → Prop} {m : List Host.Cell} (base b limit : Nat) (data : Word) (strb : Strobe)
    (h0 : P m) (h : ∀ m j, P m → j < 4 → b + j < limit → P (Memory.write m (base + (b + j)) (lane data j))) :
    P (writeWindow m base b limit data strb) := by
  have step : ∀ (m : List Host.Cell) (j : Nat), P m → j < 4 →
      P (if strb.getLsbD j = true ∧ b + j < limit then Memory.write m (base + (b + j)) (lane data j) else m) := by
    intro m j hm hj
    split
    · next hc => exact h m j hm hj hc.2
    · exact hm
  rw [writeWindow_eq]
  exact step _ 3 (step _ 2 (step _ 1 (step _ 0 h0 (by omega)) (by omega)) (by omega)) (by omega)

/-- A window write keeps the canonical form. -/
theorem wf_writeWindow {m : List Host.Cell} (h : Memory.wf m = true) (base b limit : Nat) (data : Word) (strb : Strobe) :
    Memory.wf (writeWindow m base b limit data strb) = true :=
  writeWindow_induct (P := fun m => Memory.wf m = true) base b limit data strb h
    fun _ _ hm _ _ => Memory.wf_write hm _ _

/-- A window write leaves the bytes outside its word, and those beyond the storage, alone. -/
theorem read_writeWindow_other {m : List Host.Cell} {base b limit off : Nat} (data : Word) (strb : Strobe)
    (h : off < base + b ∨ base + b + 4 ≤ off ∨ base + limit ≤ off) :
    Memory.read (writeWindow m base b limit data strb) off = Memory.read m off :=
  writeWindow_induct (P := fun m' => Memory.read m' off = Memory.read m off) base b limit data strb rfl
    fun _ _ hm _ _ => (Memory.read_write_other _ _ (by omega)).trans hm

/-- A window write stores the strobed lanes that fall in the storage. -/
theorem read_writeWindow {m : List Host.Cell} (hm : Memory.wf m = true) (base b limit : Nat) (data : Word) (strb : Strobe)
    {j : Nat} (hj : j < 4) :
    Memory.read (writeWindow m base b limit data strb) (base + (b + j)) =
      if strb.getLsbD j = true ∧ b + j < limit then some (lane data j) else Memory.read m (base + (b + j)) := by
  have other : ∀ (m : List Host.Cell) (k : Nat), k ≠ j →
      Memory.read (if strb.getLsbD k = true ∧ b + k < limit then Memory.write m (base + (b + k)) (lane data k) else m)
        (base + (b + j)) = Memory.read m (base + (b + j)) := by
    intro m k hk
    split
    · exact Memory.read_write_other _ _ (by omega)
    · rfl
  have same : ∀ m : List Host.Cell, Memory.wf m = true →
      Memory.read (if strb.getLsbD j = true ∧ b + j < limit then Memory.write m (base + (b + j)) (lane data j) else m)
        (base + (b + j)) =
        if strb.getLsbD j = true ∧ b + j < limit then some (lane data j) else Memory.read m (base + (b + j)) := by
    intro m hm
    split
    · exact Memory.read_write_same m ((Memory.wf_iff m).1 hm).1 _ _
    · rfl
  have keep : ∀ (m : List Host.Cell) (k : Nat), Memory.wf m = true → Memory.wf
      (if strb.getLsbD k = true ∧ b + k < limit then Memory.write m (base + (b + k)) (lane data k) else m) = true := by
    intro m k hm
    split
    · exact Memory.wf_write hm _ _
    · exact hm
  rw [writeWindow_eq]
  have : j = 0 ∨ j = 1 ∨ j = 2 ∨ j = 3 := by omega
  rcases this with rfl | rfl | rfl | rfl
  · rw [other _ 3 (by omega), other _ 2 (by omega), other _ 1 (by omega), same _ hm]
  · rw [other _ 3 (by omega), other _ 2 (by omega), same _ (keep _ _ hm), other _ 0 (by omega)]
  · rw [other _ 3 (by omega), same _ (keep _ _ (keep _ _ hm)), other _ 1 (by omega), other _ 0 (by omega)]
  · rw [same _ (keep _ _ (keep _ _ (keep _ _ hm))), other _ 2 (by omega), other _ 1 (by omega), other _ 0 (by omega)]

/-- Every cell after a window write was there before or is in the storage of the window. -/
theorem mem_writeWindow {m : List Host.Cell} {base b limit : Nat} {data : Word} {strb : Strobe} {c : Host.Cell}
    (h : c ∈ writeWindow m base b limit data strb) : c ∈ m ∨ (base ≤ c.1 ∧ c.1 < base + limit) := by
  refine writeWindow_induct (P := fun m' => ∀ c, c ∈ m' → c ∈ m ∨ (base ≤ c.1 ∧ c.1 < base + limit)) base b limit data strb
    (fun c hc => .inl hc) (fun m' j hm hj hlt c hc => ?_) c h
  rcases Memory.mem_write hc with h | ⟨rfl, -⟩
  · exact hm c h
  · exact .inr ⟨by change base ≤ base + (b + j); omega, by change base + (b + j) < base + limit; omega⟩

/-- Which window writes are operand writes. -/
theorem reachesStorage_iff (b limit : Nat) (strb : Strobe) :
    reachesStorage b limit strb = true ↔
      b < limit ∧ (strb = 0#4 ∨ ∃ j, j < 4 ∧ strb.getLsbD j = true ∧ b + j < limit) := by
  simp only [reachesStorage, Bool.and_eq_true, decide_eq_true_eq, Bool.or_eq_true, beq_iff_eq, List.any_eq_true,
    List.mem_cons, List.not_mem_nil, or_false]
  refine and_congr_right fun _ => or_congr_right ⟨?_, ?_⟩
  · rintro ⟨j, hj, h⟩
    exact ⟨j, by omega, h⟩
  · rintro ⟨j, hj, h⟩
    exact ⟨j, by omega, h⟩

/-- A write to a window word does one of these: nothing, a dropped operand, or a performed operand write. -/
theorem windowWrite_cases (s : State) (base b limit : Nat) (data : Word) (strb : Strobe) :
    windowWrite s base b limit data strb = s ∨
    (s.phase = .busy ∧ windowWrite s base b limit data strb = dropWrite s) ∨
    (s.phase = .idle ∧ windowWrite s base b limit data strb = { s with mem := writeWindow s.mem base b limit data strb }) := by
  unfold windowWrite operandWrite
  split
  · cases h : s.phase with
    | busy => exact .inr (.inl ⟨rfl, rfl⟩)
    | idle => exact .inr (.inr ⟨rfl, rfl⟩)
  · exact .inl rfl

/-- While IDLE a write to a window word stores its strobed lanes, whether it is an operand write or not: one that is none
reaches no byte of the storage. -/
theorem windowWrite_idle {s : State} (h : s.phase = .idle) (base b limit : Nat) (data : Word) (strb : Strobe) :
    windowWrite s base b limit data strb = { s with mem := writeWindow s.mem base b limit data strb } := by
  unfold windowWrite
  split
  · simp [operandWrite, h]
  · next hr =>
    rw [reachesStorage_iff] at hr
    have skip : ∀ j, j < 4 → ¬(strb.getLsbD j = true ∧ b + j < limit) := fun j hj hc =>
      hr ⟨by omega, .inr ⟨j, hj, hc⟩⟩
    rw [writeWindow_eq]
    simp only [if_neg (skip 0 (by omega)), if_neg (skip 1 (by omega)), if_neg (skip 2 (by omega)),
      if_neg (skip 3 (by omega))]

/-- The write a host performs out of reset does one of these: nothing, a new STATUS or IE, a dropped operand, a performed operand
write, or the presentation of a command word. -/
theorem writePlace_cases (s : State) (p : Place) (data : Word) (strb : Strobe) :
    writePlace s p data strb = .next s ∨
    writePlace s p data strb = .next (writeStatus s data strb) ∨
    writePlace s p data strb = .next (writeIe s data strb) ∨
    (s.phase = .busy ∧ writePlace s p data strb = .next (dropWrite s)) ∨
    (s.phase = .idle ∧ ∃ l, writePlace s p data strb = .next { s with ivLen := l }) ∨
    (s.phase = .idle ∧ ∃ l, writePlace s p data strb = .next { s with inLen := l }) ∨
    (s.phase = .idle ∧ ∃ b, writePlace s p data strb = .next { s with mem := writeWindow s.mem ivBase b s.cfg.n data strb }) ∨
    (s.phase = .idle ∧ ∃ b, writePlace s p data strb = .next { s with mem := writeWindow s.mem inBase b s.cfg.inCap data strb }) ∨
    ∃ w c r, writePlace s p data strb = .next (present s w c r) ∧ r = (curJob c s).result s := by
  have hphase : s.phase = .idle ∨ s.phase = .busy := by cases s.phase <;> simp
  cases p with
  | reg r =>
    cases r with
    | cmd =>
      refine .inr (.inr (.inr (.inr (.inr (.inr (.inr (.inr ?_)))))))
      simp only [writePlace, presentWord]
      cases decode (maskLanes data strb) with
      | ok i => exact ⟨_, _, _, exec_eq i s, rfl⟩
      | error e => exact ⟨_, _, _, rfl, rfl⟩
    | status => exact .inr (.inl rfl)
    | ie => exact .inr (.inr (.inl rfl))
    | ivLen =>
      rcases hphase with h | h
      · exact .inr (.inr (.inr (.inr (.inl ⟨h, _, by simp only [writePlace, operandWrite, h]; rfl⟩))))
      · exact .inr (.inr (.inr (.inl ⟨h, by simp only [writePlace, operandWrite, h]; rfl⟩)))
    | inLen =>
      rcases hphase with h | h
      · exact .inr (.inr (.inr (.inr (.inr (.inl ⟨h, _, by simp only [writePlace, operandWrite, h]; rfl⟩)))))
      · exact .inr (.inr (.inr (.inl ⟨h, by simp only [writePlace, operandWrite, h]; rfl⟩)))
    | _ => exact .inl rfl
  | iv b =>
    simp only [writePlace]
    rcases windowWrite_cases s ivBase b s.cfg.n data strb with h | ⟨hp, h⟩ | ⟨hp, h⟩
    · exact .inl (congrArg _ h)
    · exact .inr (.inr (.inr (.inl ⟨hp, congrArg _ h⟩)))
    · exact .inr (.inr (.inr (.inr (.inr (.inr (.inl ⟨hp, b, congrArg _ h⟩))))))
  | inp b =>
    simp only [writePlace]
    rcases windowWrite_cases s inBase b s.cfg.inCap data strb with h | ⟨hp, h⟩ | ⟨hp, h⟩
    · exact .inl (congrArg _ h)
    · exact .inr (.inr (.inr (.inl ⟨hp, congrArg _ h⟩)))
    · exact .inr (.inr (.inr (.inr (.inr (.inr (.inr (.inl ⟨hp, b, congrArg _ h⟩)))))))
  | out b => exact .inl rfl
  | reserved => exact .inl rfl

/-- Whether the engine is on track depends on the operands, the output buffer and the engine's own registers. -/
theorem onTrack_congr {s u : State} (h : SameOperands s u) (hl : s.cfg.legal = true) (hm : u.mem = s.mem)
    (hc : u.cur = s.cur) (hb : u.blk = s.blk) (hch : u.chaining = s.chaining) (hp : u.btPending = s.btPending)
    (hlog : u.btLog = s.btLog) (ht : OnTrack s) : OnTrack u := by
  have hjob : curJob u.cur u = curJob s.cur s := by rw [hc]; exact curJob_congr h hl s.cur
  cases hj : curJob s.cur s with
  | stop c =>
    rw [onTrack_stop (hjob.trans hj), hp, hlog]; exact (onTrack_stop hj).1 ht
  | work w =>
    cases hr : w.rule with
    | none => rw [onTrack_plain (hjob.trans hj) hr, hp, hlog]; exact (onTrack_plain hj hr).1 ht
    | some r =>
      have hsf : w.soFar r u s.blk = w.soFar r s s.blk := by
        unfold Work.soFar; rw [initialChaining_congr h hl, h.bt, h.cfg]
      rw [onTrack_rule (hjob.trans hj) hr, h.cfg, hb, hch, hp, hlog, hsf, hm]
      exact (onTrack_rule hj hr).1 ht

end Sys2Proof.Machine
end

