-- ==== Sys2Proof/Laws/PerInstr.lean ====
section
/-! SUPPORT. Statements for all commands, one lemma per constructor. -/

namespace Sys2Proof.Laws

/-- The word of a command has well-formed fields, 30_encoding.md R101 to R104, R107. -/
def EncodedWellFormed.Statement (i : Instr) : Prop := (Fields.split (encode i)).wellFormed = true

theorem EncodedWellFormed.encEcb (p : Padding) : EncodedWellFormed.Statement (.encEcb p) := by
  cases p <;> (unfold EncodedWellFormed.Statement; decide)

theorem EncodedWellFormed.encCbc (p : Padding) : EncodedWellFormed.Statement (.encCbc p) := by
  cases p <;> (unfold EncodedWellFormed.Statement; decide)

theorem EncodedWellFormed.encPcbc (p : Padding) : EncodedWellFormed.Statement (.encPcbc p) := by
  cases p <;> (unfold EncodedWellFormed.Statement; decide)

theorem EncodedWellFormed.encCfb (p : Padding) : EncodedWellFormed.Statement (.encCfb p) := by
  cases p <;> (unfold EncodedWellFormed.Statement; decide)

theorem EncodedWellFormed.encOfb (p : Padding) : EncodedWellFormed.Statement (.encOfb p) := by
  cases p <;> (unfold EncodedWellFormed.Statement; decide)

theorem EncodedWellFormed.encCtr (p : Padding) : EncodedWellFormed.Statement (.encCtr p) := by
  cases p <;> (unfold EncodedWellFormed.Statement; decide)

theorem EncodedWellFormed.decEcb (p : Padding) : EncodedWellFormed.Statement (.decEcb p) := by
  cases p <;> (unfold EncodedWellFormed.Statement; decide)

theorem EncodedWellFormed.decCbc (p : Padding) : EncodedWellFormed.Statement (.decCbc p) := by
  cases p <;> (unfold EncodedWellFormed.Statement; decide)

theorem EncodedWellFormed.decPcbc (p : Padding) : EncodedWellFormed.Statement (.decPcbc p) := by
  cases p <;> (unfold EncodedWellFormed.Statement; decide)

theorem EncodedWellFormed.decCfb (p : Padding) : EncodedWellFormed.Statement (.decCfb p) := by
  cases p <;> (unfold EncodedWellFormed.Statement; decide)

theorem EncodedWellFormed.decOfb (p : Padding) : EncodedWellFormed.Statement (.decOfb p) := by
  cases p <;> (unfold EncodedWellFormed.Statement; decide)

theorem EncodedWellFormed.decCtr (p : Padding) : EncodedWellFormed.Statement (.decCtr p) := by
  cases p <;> (unfold EncodedWellFormed.Statement; decide)

theorem EncodedWellFormed.pad (p : Padding) : EncodedWellFormed.Statement (.pad p) := by
  cases p <;> (unfold EncodedWellFormed.Statement; decide)

theorem EncodedWellFormed.unpad (p : Padding) : EncodedWellFormed.Statement (.unpad p) := by
  cases p <;> (unfold EncodedWellFormed.Statement; decide)

end Sys2Proof.Laws
end

