-- ==== Sys2Proof/Machine/Asm.lean ====
section
/-! DEFINITION. The assembler syntax and the host statements (30_encoding.md R111, R112): names of commands, and statements and
pseudo-instructions as lists of events. A pseudo-instruction is host code, not a MOCE command. -/

namespace Sys2Proof.Machine.Asm

/-- PADNAME, 30_encoding.md R104, R111. -/
def padName : Padding → String
  | .none => "NONE"
  | .bit => "BIT"
  | .pkcs7 => "PKCS7"
  | .x923 => "X923"
  | .iso7816 => "ISO7816"

/-- `OPNAME[.MODE]` and PADNAME of a command, 30_encoding.md R111. -/
def parts : Instr → String × Padding
  | .encEcb p => ("ENC.ECB", p)
  | .encCbc p => ("ENC.CBC", p)
  | .encPcbc p => ("ENC.PCBC", p)
  | .encCfb p => ("ENC.CFB", p)
  | .encOfb p => ("ENC.OFB", p)
  | .encCtr p => ("ENC.CTR", p)
  | .decEcb p => ("DEC.ECB", p)
  | .decCbc p => ("DEC.CBC", p)
  | .decPcbc p => ("DEC.PCBC", p)
  | .decCfb p => ("DEC.CFB", p)
  | .decOfb p => ("DEC.OFB", p)
  | .decCtr p => ("DEC.CTR", p)
  | .pad p => ("PAD", p)
  | .unpad p => ("UNPAD", p)

/-- A command as it is written, 30_encoding.md R111. -/
def text (i : Instr) : String := (parts i).1 ++ " " ++ padName (parts i).2

/-- The command a text names; "An omitted `PADNAME` means NONE", 30_encoding.md R111. -/
def parse (t : String) : Option Instr :=
  let all := opcodeRows.flatMap fun row => [Padding.none, .bit, .pkcs7, .x923, .iso7816].map row.2
  all.find? fun i => text i == t || ((parts i).2 == Padding.none && (parts i).1 == t)

/-- `wr OFF, VALUE, STRB`, 30_encoding.md R111; `wr OFF, VALUE` has all four strobes. -/
def wr (c : Config) (off : Nat) (value : Word) (strb : Strobe := 0xF#4) : Event := .write (c.base + off) value strb

/-- `rd OFF`, 30_encoding.md R111. -/
def rd (c : Config) (off : Nat) : Event := .read (c.base + off)

/-- `poll OFF, MASK, VALUE`, 30_encoding.md R111. -/
def poll (c : Config) (off : Nat) (mask value : Word) : Event := .poll (c.base + off) mask value

/-- `RUN cmd`, 30_encoding.md R112. -/
def run (c : Config) (i : Instr) : List Event := [wr c 0x010 (encode i), poll c 0x014 1 0]

/-- `ACK`, 30_encoding.md R112. -/
def ack (c : Config) : List Event := [wr c 0x014 0x0000000B]

/-- The little-endian word of up to four bytes, zero where a byte is missing, 30_encoding.md R112. -/
def wordAt (b : Bytes) (k : Nat) : Word := ofLanes fun j => b.getD (k + j) 0

/-- The strobes of the bytes given in the word at `k`. -/
def strobesAt (b : Bytes) (k : Nat) : Strobe := BitVec.ofNat 4 (2 ^ min 4 (b.length - k) - 1)

/-- `LOADIV b0 .. b(N-1)`, 30_encoding.md R112. -/
def loadIv (c : Config) (b : Bytes) : List Event :=
  ((List.range (blockCount 4 b.length)).map fun w => wr c (ivBase + 4 * w) (wordAt b (4 * w))) ++
    [wr c 0x020 (BitVec.ofNat 32 c.n)]

/-- `LOADIN b0 .. b(L-1)`, 30_encoding.md R112. -/
def loadIn (c : Config) (b : Bytes) : List Event :=
  ((List.range (blockCount 4 b.length)).map fun w =>
      wr c (inBase + 4 * w) (wordAt b (4 * w)) (strobesAt b (4 * w))) ++
    [wr c 0x024 (BitVec.ofNat 32 b.length)]

end Sys2Proof.Machine.Asm
end

