-- ==== Sys2Proof/Tests/Slice0.lean ====
section
/-! SUPPORT. The model's own tests: the checks of WellFormed, decoded words, one step of each command against the vectors of
95_test_vectors.md, the register bus, and a witness for the hypotheses of every statement that has some. -/

namespace Sys2Proof.Tests

open Sys2Proof.Machine Sys2Proof.Safety

/-! ## Small states -/

/-- An idle MOCE with the parameters of the spec's vectors, an IV and a message loaded by the host. -/
def loaded (iv msg : Bytes) : State :=
  { State.reset with
    mem := Memory.writeBytes (Memory.writeBytes [] ivBase iv) inBase msg
    ivLen := BitVec.ofNat 32 iv.length
    inLen := BitVec.ofNat 32 msg.length }

/-- The IV of 95_test_vectors.md section 1. -/
def iv0 : Bytes := [0x00, 0x01, 0x02, 0x03]

/-- `P10` of 95_test_vectors.md section 1. -/
def p10 : Bytes := [0x41, 0x42, 0x43, 0x44, 0x45, 0x46, 0x47, 0x48, 0x49, 0x4A]

/-- The state of the vectors. -/
def vec (msg : Bytes) : State := loaded iv0 msg

/-- RES after a step. -/
def resOf : Outcome → Option Result
  | .next t => some t.res
  | _ => none

/-- The next state of a step that has one. -/
def nextOf : Outcome → Option State
  | .next t => some t
  | _ => none

/-- A MOCE running `ENC.CBC PKCS7` over `P10`. -/
def running : State := accept (vec p10) 0x00002101#32 (some (.encCbc .pkcs7)) ((commandJob (.encCbc .pkcs7) (vec p10)).result (vec p10))

/-! ## WellFormed: one ill-formed term for each check (30_encoding.md R101 to R104, R107) -/

/-- RSV0 is not 0 (vector E15). -/
theorem test_ill_formed_reserved :
    (Fields.wellFormed { op := 1, rsv0 := 1, mode := 0, rsv1 := 0, pad := 0, rsv2 := 0 }) = false := by decide

/-- OP is 5 (vector E7). -/
theorem test_ill_formed_op :
    (Fields.wellFormed { op := 5, rsv0 := 0, mode := 0, rsv1 := 0, pad := 0, rsv2 := 0 }) = false := by decide

/-- PAD is 5 (vector E11). -/
theorem test_ill_formed_pad :
    (Fields.wellFormed { op := 1, rsv0 := 0, mode := 0, rsv1 := 0, pad := 5, rsv2 := 0 }) = false := by decide

/-- MODE is 6 for ENC (vector E9). -/
theorem test_ill_formed_mode :
    (Fields.wellFormed { op := 1, rsv0 := 0, mode := 6, rsv1 := 0, pad := 0, rsv2 := 0 }) = false := by decide

/-- MODE is 5 for UNPAD (vector E14). -/
theorem test_ill_formed_mode_of_unpad :
    (Fields.wellFormed { op := 4, rsv0 := 0, mode := 5, rsv1 := 0, pad := 0, rsv2 := 0 }) = false := by decide

/-- The fields of `ENC.CBC PKCS7` are well formed. -/
theorem test_well_formed :
    (Fields.wellFormed { op := 1, rsv0 := 0, mode := 1, rsv1 := 0, pad := 2, rsv2 := 0 }) = true := by decide

/-! ## Decode: words written out field by field from 30_encoding.md R101, R108: RSV2, PAD, RSV1, MODE, RSV0, OP -/

theorem test_decode_enc_ecb : decode (0#17 ++ 0b000#3 ++ 0#1 ++ 0b000#3 ++ 0#4 ++ 0b0001#4) = .ok (.encEcb .none) := by decide
theorem test_decode_enc_cbc : decode (0#17 ++ 0b010#3 ++ 0#1 ++ 0b001#3 ++ 0#4 ++ 0b0001#4) = .ok (.encCbc .pkcs7) := by decide
theorem test_decode_enc_pcbc : decode (0#17 ++ 0b001#3 ++ 0#1 ++ 0b010#3 ++ 0#4 ++ 0b0001#4) = .ok (.encPcbc .bit) := by decide
theorem test_decode_enc_cfb : decode (0#17 ++ 0b000#3 ++ 0#1 ++ 0b011#3 ++ 0#4 ++ 0b0001#4) = .ok (.encCfb .none) := by decide
theorem test_decode_enc_ofb : decode (0#17 ++ 0b011#3 ++ 0#1 ++ 0b100#3 ++ 0#4 ++ 0b0001#4) = .ok (.encOfb .x923) := by decide
theorem test_decode_enc_ctr : decode (0#17 ++ 0b000#3 ++ 0#1 ++ 0b101#3 ++ 0#4 ++ 0b0001#4) = .ok (.encCtr .none) := by decide
theorem test_decode_dec_ecb : decode (0#17 ++ 0b010#3 ++ 0#1 ++ 0b000#3 ++ 0#4 ++ 0b0010#4) = .ok (.decEcb .pkcs7) := by decide
theorem test_decode_dec_cbc : decode (0#17 ++ 0b011#3 ++ 0#1 ++ 0b001#3 ++ 0#4 ++ 0b0010#4) = .ok (.decCbc .x923) := by decide
theorem test_decode_dec_pcbc : decode (0#17 ++ 0b000#3 ++ 0#1 ++ 0b010#3 ++ 0#4 ++ 0b0010#4) = .ok (.decPcbc .none) := by decide
theorem test_decode_dec_cfb : decode (0#17 ++ 0b001#3 ++ 0#1 ++ 0b011#3 ++ 0#4 ++ 0b0010#4) = .ok (.decCfb .bit) := by decide
theorem test_decode_dec_ofb : decode (0#17 ++ 0b000#3 ++ 0#1 ++ 0b100#3 ++ 0#4 ++ 0b0010#4) = .ok (.decOfb .none) := by decide
theorem test_decode_dec_ctr : decode (0#17 ++ 0b100#3 ++ 0#1 ++ 0b101#3 ++ 0#4 ++ 0b0010#4) = .ok (.decCtr .iso7816) := by decide
theorem test_decode_pad : decode (0#17 ++ 0b010#3 ++ 0#1 ++ 0b000#3 ++ 0#4 ++ 0b0011#4) = .ok (.pad .pkcs7) := by decide
theorem test_decode_unpad : decode (0#17 ++ 0b001#3 ++ 0#1 ++ 0b000#3 ++ 0#4 ++ 0b0100#4) = .ok (.unpad .bit) := by decide

/-- Vectors E1, E8, E10, E12, E14, E16, E17, E18: illegal words, by the item that makes them so. -/
theorem test_decode_illegal :
    decode 0x00000000#32 = .error .reservedOp ∧ decode 0x0000000F#32 = .error .reservedOp ∧
    decode 0x00000702#32 = .error .reservedMode ∧ decode 0x00007301#32 = .error .reservedPad ∧
    decode 0x00000504#32 = .error .modeWithPadding ∧ decode 0x00000801#32 = .error .reservedBit ∧
    decode 0x00008001#32 = .error .reservedBit ∧ decode 0x80000001#32 = .error .reservedBit := by decide

/-- 30_encoding.md R108, R110: 70 legal words among the words with bits [31:15] zero whose reserved fields are zero. -/
theorem test_seventy_words :
    ((opcodeRows.flatMap fun row => [Padding.none, .bit, .pkcs7, .x923, .iso7816].map fun p => encode (row.2 p)).eraseDups).length = 70 := by
  decide

/-- 30_encoding.md R111: the text of a command, and an omitted PADNAME. -/
theorem test_asm_text :
    Asm.text (.encCbc .pkcs7) = "ENC.CBC PKCS7" ∧ Asm.parse "ENC.CTR" = some (.encCtr .none) ∧
      Asm.parse "UNPAD ISO7816" = some (.unpad .iso7816) ∧ Asm.parse "ENC.XTS" = none := by decide

/-! ## One step of each command: vectors of 95_test_vectors.md sections 4 to 7 -/

/-- V-ECB-1. -/
theorem test_enc_ecb : resOf (exec (.encEcb .pkcs7) (vec p10)) =
    some (.output [0x53, 0x61, 0x77, 0x05, 0x57, 0x65, 0x7B, 0x01, 0x5B, 0x20, 0x31, 0x0D]) := by decide

/-- V-ECB-2. -/
theorem test_dec_ecb : resOf (exec (.decEcb .pkcs7)
    (vec [0x53, 0x61, 0x77, 0x05, 0x57, 0x65, 0x7B, 0x01, 0x5B, 0x20, 0x31, 0x0D])) = some (.output p10) := by decide

/-- V-CBC-1. -/
theorem test_enc_cbc : resOf (exec (.encCbc .pkcs7) (vec p10)) =
    some (.output [0x52, 0x63, 0x74, 0x05, 0x34, 0x11, 0x7E, 0x53, 0x4A, 0x5E, 0x62, 0x39]) := by decide

/-- V-CBC-9: a flipped bit, and no output. -/
theorem test_dec_cbc_bad_padding : resOf (exec (.decCbc .pkcs7)
    (vec [0x52, 0x63, 0x74, 0x05, 0x34, 0x11, 0x7E, 0x53, 0x4A, 0x5E, 0x63, 0x39])) = some (.error .badPadding) := by decide

/-- V-CBC-11. -/
theorem test_dec_cbc : resOf (exec (.decCbc .none)
    (vec [0x52, 0x63, 0x74, 0x05, 0x34, 0x11, 0x7E, 0x53, 0x4A, 0x5E, 0x62, 0x39])) =
    some (.output (p10 ++ [0x02, 0x02])) := by decide

/-- V-PCBC-1. -/
theorem test_enc_pcbc : resOf (exec (.encPcbc .pkcs7) (vec p10)) =
    some (.output [0x52, 0x63, 0x74, 0x05, 0x76, 0x52, 0x3A, 0x12, 0x4F, 0x5D, 0x6B, 0x3E]) := by decide

/-- V-PCBC-3: one flipped bit corrupts every later block. -/
theorem test_dec_pcbc : resOf (exec (.decPcbc .none)
    (vec [0x53, 0x63, 0x74, 0x05, 0x76, 0x52, 0x3A, 0x12, 0x4F, 0x5D, 0x6B, 0x3E])) =
    some (.output [0x41, 0x43, 0x43, 0x44, 0x44, 0x47, 0x47, 0x48, 0x48, 0x4B, 0x02, 0x02]) := by decide

/-- V-CFB-1. -/
theorem test_enc_cfb : resOf (exec (.encCfb .none) (vec p10)) =
    some (.output [0x51, 0x62, 0x73, 0x00, 0x36, 0x17, 0x74, 0x5D, 0x4F, 0x1C]) := by decide

/-- V-CFB-2. -/
theorem test_dec_cfb : resOf (exec (.decCfb .none)
    (vec [0x51, 0x62, 0x73, 0x00, 0x36, 0x17, 0x74, 0x5D, 0x4F, 0x1C])) = some (.output p10) := by decide

/-- V-OFB-1. -/
theorem test_enc_ofb : resOf (exec (.encOfb .none) (vec p10)) =
    some (.output [0x51, 0x62, 0x73, 0x00, 0x74, 0x54, 0x30, 0x1C, 0x4A, 0x1F]) := by decide

/-- V-OFB-2. -/
theorem test_dec_ofb : resOf (exec (.decOfb .none)
    (vec [0x51, 0x62, 0x73, 0x00, 0x74, 0x54, 0x30, 0x1C, 0x4A, 0x1F])) = some (.output p10) := by decide

/-- V-CTR-7: the counter wraps. -/
theorem test_enc_ctr_wraps : resOf (exec (.encCtr .none) (loaded [0xFF, 0xFF, 0xFF, 0xFF] (List.replicate 12 0x00))) =
    some (.output [0xEE, 0xDD, 0xCC, 0xBB, 0x11, 0x22, 0x33, 0x44, 0x11, 0x22, 0x32, 0x44]) := by decide

/-- V-CTR-6: IV_LEN is checked for an empty message too. -/
theorem test_enc_ctr_iv_length :
    resOf (exec (.encCtr .none) { vec [] with ivLen := 3 }) = some (.error .ivLength) := by decide

/-- V-CTR-2. -/
theorem test_dec_ctr : resOf (exec (.decCtr .none)
    (vec [0x51, 0x62, 0x73, 0x00, 0x55, 0x66, 0x70, 0x0C, 0x59, 0x6A])) = some (.output p10) := by decide

/-- V-PAD-11. -/
theorem test_pad : resOf (exec (.pad .x923) (vec [0x41, 0x42, 0x43, 0x44])) =
    some (.output [0x41, 0x42, 0x43, 0x44, 0x00, 0x00, 0x00, 0x04]) := by decide

/-- V-PAD-17: N = 256. -/
theorem test_pad_block_size :
    resOf (exec (.pad .pkcs7) { vec [0x41] with cfg := { Config.vectors with n := 256 } }) = some (.error .padBlockSize) := by
  decide

/-- V-UNP-22. -/
theorem test_unpad : resOf (exec (.unpad .bit) (vec [0x80, 0x41, 0x42, 0x43, 0x44, 0x80, 0x00, 0x00])) =
    some (.output [0x80, 0x41, 0x42, 0x43, 0x44]) := by decide

/-- V-UNP-19: the scan stays in the final block. -/
theorem test_unpad_stays_in_final_block :
    resOf (exec (.unpad .bit) (vec [0x41, 0x80, 0x00, 0x00, 0x00, 0x00, 0x00, 0x00])) = some (.error .badPadding) := by
  decide

/-- V-PRI-4: IV_LENGTH before NOT_ALIGNED. -/
theorem test_check_order :
    resOf (exec (.decCbc .pkcs7) { vec [0x41, 0x42, 0x43, 0x44, 0x45] with ivLen := 0 }) = some (.error .ivLength) := by
  decide

/-- The requests of V-CBC-1, one at a time: the first request of the running command, and the second after its answer. -/
theorem test_engine_requests :
    (engineMove running).btPending = some ⟨.enc, [0x41, 0x43, 0x41, 0x47]⟩ ∧
    (engineMoves 3 running).btLog = [⟨.enc, [0x41, 0x43, 0x41, 0x47]⟩, ⟨.enc, [0x17, 0x25, 0x33, 0x4D]⟩] := by decide

/-- The first step after reset runs the word that `withFetchWord` places. -/
theorem test_fetched_word :
    (nextOf (step (State.reset.withFetchWord 32 0x2101))).map (fun t => (t.lastCmd, t.cur, t.phase)) =
      some (0x00002101#32, some (.encCbc .pkcs7), .busy) := by decide

/-! ## The invariant in concrete states -/

/-- The machine right after reset meets the invariant. -/
theorem test_reset_inv : Inv State.reset where
  legal := by decide
  memCanonical := rfl
  memInStorage c hc := by cases hc
  consistent := by
    constructor <;> intros <;> first | rfl | contradiction | decide
  resIsExec h := by cases h
  noRequestIdle _ := rfl
  onTrack h := by cases h
  inReset h := by cases h

/-- An accepted command in a state that meets the invariant, with memory that lists nothing. -/
theorem accepted_inv (i : Instr) :
    Inv (accept State.reset (encode i) (some i) ((commandJob i State.reset).result State.reset)) where
  legal := show State.reset.cfg.legal = true by decide
  memCanonical := rfl
  memInStorage c hc := by cases hc
  consistent := by
    constructor
    · intro _; exact ⟨rfl, rfl, rfl, rfl⟩
    · intro h; cases h
    · intro _; rfl
    · intro h; exact absurd rfl h
    · exact Nat.zero_le _
  resIsExec _ := by
    have hs := accept_sameOperands State.reset (encode i) (some i) ((commandJob i State.reset).result State.reset)
    rw [accept_res, accept_cur, curJob_congr hs (by decide), result_congr hs (by decide), curJob]
  noRequestIdle h := by cases h
  onTrack _ := onTrack_accept _ _ _ _
  inReset h := by cases h

/-! ## Witnesses: hypotheses met by concrete states and operands

Each is named after the statement whose hypotheses it meets; a statement with several clauses has a witness for each. -/

/-- A CMD write at the boundary of the CMD word, with the upper lanes not strobed. -/
def cmdWrite (addr : Nat) (data : Word) (strb : Strobe) (s : State) : State := { s with inputs := [.write addr data strb] }

theorem witness_StepRunsTheCommandWritten :
    let s := cmdWrite 0x013 0xFFFF2101#32 0x3#4 (vec p10)
    s.rstN = true ∧ s.inputs = .write 0x013 0xFFFF2101#32 0x3#4 :: [] ∧ inRegisterSpace s 0x013 = true ∧
      wordOffset (0x013 - s.cfg.base) = 0x010 ∧ decode (maskLanes 0xFFFF2101#32 0x3#4) = .ok (.encCbc .pkcs7) := by
  decide

theorem witness_FetchedWordIsRunNext : decodeTableWord 32 0x4004 = some (.unpad .iso7816) := by decide

theorem witness_AcceptWritesItsRegistersOnly : Ready State.reset := ⟨rfl, rfl⟩

theorem witness_StrobedLanesOfRegistersChange : Ready (vec p10) := ⟨rfl, rfl⟩

theorem witness_EngineCompletesWithTheResultOfExec : (vec p10).cfg.legal = true ∧ Ready (vec p10) := ⟨by decide, rfl, rfl⟩

theorem witness_NextAccessSeesTheAccept :
    Ready (vec p10) ∧ exec (.encCbc .pkcs7) (vec p10) = .next running ∧ 0x3FFF < 0x4000 := ⟨⟨rfl, rfl⟩, rfl, by decide⟩

theorem witness_LowOffsetBitsAreIgnored : 0 < 4 ∧ 3 < 4 := by decide

/-- BUSY, and the first and the last cause after a failing completion. -/
theorem witness_FlagRegistersReadTheirFields :
    running.rstN = true ∧ busRead running 0x014 = 0x00000001#32 ∧
      (let s := { running with res := .error .illegalCmd }
       s.res = .error .illegalCmd ∧ busRead (complete s) 0x018 = 0x00000103#32) ∧
      (let s := { running with res := .error .badPadding }
       s.res = .error .badPadding ∧ busRead (complete s) 0x018 = 0x00000601#32) := by decide

theorem witness_CommandWriteWhileBusyIsDropped :
    let s := cmdWrite 0x010 0x00000001#32 0x0#4 running
    s.rstN = true ∧ s.phase = .busy ∧ s.inputs = .write 0x010 0x00000001#32 0x0#4 :: [] ∧ inRegisterSpace s 0x010 = true ∧
      wordOffset (0x010 - s.cfg.base) = 0x010 := by
  decide

theorem witness_IllegalWordCompletesWithCommandError :
    let s := cmdWrite 0x010 0x00000011#32 0xF#4 (vec p10)
    Ready s ∧ s.inputs = .write 0x010 0x00000011#32 0xF#4 :: [] ∧ inRegisterSpace s 0x010 = true ∧
      wordOffset (0x010 - s.cfg.base) = 0x010 ∧ decode (maskLanes 0x00000011#32 0xF#4) = .error .reservedBit :=
  ⟨⟨rfl, rfl⟩, rfl, by decide, by decide, by decide⟩

/-- Each check 2 to 5 fails somewhere, IN_LEN one above IN_CAP among them, and BAD_PADDING comes when none fails. -/
theorem witness_ErrorsAreReportedInCheckOrder :
    firstFailing (.encEcb .x923) { State.reset with cfg := { Config.vectors with n := 256 } } = some .padBlockSize ∧
    firstFailing (.encEcb .bit) { State.reset with inLen := 65 } = some .lenExceedsCap ∧
    firstFailing (.encEcb .bit) { State.reset with inLen := 64 } = none ∧
    firstFailing (.decCtr .none) { State.reset with ivLen := 5 } = some .ivLength ∧
    firstFailing (.unpad .none) { State.reset with inLen := 3 } = some .notAligned ∧
    firstFailing (.decEcb .pkcs7) State.reset = none ∧
    resOf (exec (.decEcb .pkcs7) State.reset) = some (.error .badPadding) := by decide

/-- For EcbTransformsEachBlock, CbcChainsOnTheCiphertext, PcbcChainsOnPlaintextAndCiphertext, CfbFeedsTheCiphertextBack,
OfbRunsTheKeystream, CtrEncryptsTheCounter, PadAppendsItsScheme, UnpadStripsExactlyWhatPadWrites, BlockModesRequestOncePerBlock and
StreamModesRequestEncryptOnly: every command runs on the IV of the vectors and a message of two blocks. -/
theorem witness_Runs (i : Instr) : Runs i (vec [0x41, 0x42, 0x43, 0x44, 0x45, 0x46, 0x47, 0x48]) where
  legal := by decide
  ready := ⟨rfl, rfl⟩
  checks := by cases i with | _ p => cases p <;> decide

/-- At the ends of the range of IN_LEN: the empty message, and a message that fills the input buffer. -/
theorem witness_Runs_at_the_ends :
    Runs (.encCbc .pkcs7) (vec []) ∧ Runs (.encCfb .none) { vec [] with inLen := 64 } ∧
      Runs (.pad .iso7816) { vec [] with inLen := 63 } :=
  ⟨⟨by decide, ⟨rfl, rfl⟩, by decide⟩, ⟨by decide, ⟨rfl, rfl⟩, by decide⟩, ⟨by decide, ⟨rfl, rfl⟩, by decide⟩⟩

theorem witness_ValidatorAcceptsExactlyPaddedSequences :
    (1 ≤ 255 ∧ 255 ≤ 256 ∧ (Padding.pkcs7 = .pkcs7 ∨ Padding.pkcs7 = .x923 → 255 ≤ 255) ∧ ([] : Bytes).length % 255 = 0) ∧
    (1 ≤ 256 ∧ 256 ≤ 256 ∧ (Padding.bit = .pkcs7 ∨ Padding.bit = .x923 → 256 ≤ 255) ∧ ([] : Bytes).length % 256 = 0) ∧
    unpad 4 .pkcs7 [0x41, 0x42, 0x02, 0x02] = .output [0x41, 0x42] ∧
    unpad 1 .bit [0x80, 0x00] = .error .badPadding := by decide

theorem witness_UnpadUndoesPad :
    1 ≤ 1 ∧ 1 ≤ 256 ∧ (Padding.none = .pkcs7 ∨ Padding.none = .x923 → 1 ≤ 255) ∧
      (Padding.none = .none → ([0x41] : Bytes).length % 1 = 0) := by decide

theorem witness_DecryptBlockInvertsEncryptBlock : ([0x00, 0x01, 0x02, 0x03] : Bytes).length = 4 := rfl

theorem witness_StreamModesRequestEncryptOnly :
    paddingUsed (.decOfb .pkcs7) = none ∧
      firstFailing (.decOfb .pkcs7) { State.reset with ivLen := 3 } = some .ivLength := by decide

theorem witness_StepsWithoutEventsAreEngineMoves : running.inputs = [] := rfl

theorem witness_SuccessfulCompletionCommitsTheOutput :
    ∃ y : Bytes, running.res = .output y ∧ y.length < 2 ^ 32 ∧ y.length = 12 :=
  ⟨[0x52, 0x63, 0x74, 0x05, 0x34, 0x11, 0x7E, 0x53, 0x4A, 0x5E, 0x62, 0x39], by decide, by decide, rfl⟩

theorem witness_FailingCompletionShowsNoOutput :
    ({ running with res := .error .badPadding } : State).res = .error .badPadding := rfl

/-- A move that changes a byte of memory in a state that meets the invariant: the completion of `PAD BIT` of the empty message. -/
theorem witness_EngineMoveWritesOutputOnly :
    let s := accept State.reset (encode (.pad .bit)) (some (.pad .bit)) ((commandJob (.pad .bit) State.reset).result State.reset)
    Inv s ∧ Memory.read (engineMove s).mem outBase ≠ Memory.read s.mem outBase :=
  ⟨accepted_inv _, by decide⟩

theorem witness_StepKeepsTheInvariant :
    let s := accept State.reset (encode (.unpad .bit)) (some (.unpad .bit)) ((commandJob (.unpad .bit) State.reset).result State.reset)
    Inv s ∧ step s = .next (engineMove s) := ⟨accepted_inv _, rfl⟩

theorem witness_ResetMeetsTheInvariant : Config.legal { n := 256, inCap := 65280, version := 0, base := 0x80000 } = true := by decide

theorem witness_ExactlyOneOfOkAndErrorAfterCompletion :
    (let s := accept State.reset (encode (.unpad .bit)) (some (.unpad .bit)) ((commandJob (.unpad .bit) State.reset).result State.reset)
     Inv s ∧ s.phase = .busy ∧ (engineMove s).phase = .idle) ∧
    (State.reset.phase = .idle ∧ step State.reset = .next State.reset ∧ State.reset.rstN = true) :=
  ⟨⟨accepted_inv _, rfl, by decide⟩, rfl, rfl, rfl⟩

/-- The last byte of the register space, and the two events outside the model. -/
theorem witness_MoceNeverStops :
    (∀ e rest, ({ State.reset with inputs := [.read 0x3FFFF] } : State).inputs = e :: rest → addressed State.reset e = true) ∧
    step { running with inputs := [.rekey .identity] } = .refused .keyChangeWhileBusy ∧
    step { engineMove running with inputs := [.strayBtAnswer []] } = .refused .btAnswerOutsidePremises := by
  refine ⟨?_, rfl, rfl⟩
  intro e rest h
  cases h
  decide

theorem witness_InputsAreFrozenWhileBusy :
    let s := { running with inputs := [.write 0x020 0#32 0xF#4] }
    s.cfg.legal = true ∧ s.phase = .busy ∧ s.rstN = true ∧ (∃ t, step s = .next t) ∧
      ∀ rest, s.inputs ≠ .resetLow :: rest :=
  ⟨by decide, rfl, rfl, ⟨_, rfl⟩, fun _ h => by cases h⟩

theorem witness_ReadsHaveNoSideEffect :
    (let s := { running with inputs := [.read 0x3FFFC] }
     s.inputs = .read 0x3FFFC :: [] ∧ inRegisterSpace s 0x3FFFC = true) ∧
    (let s := engineMove running
     s.cfg.legal = true ∧ step s = .next (engineMove s) ∧ (engineMove s).phase = s.phase ∧ s.inputs = []) :=
  ⟨⟨rfl, by decide⟩, by decide, rfl, by decide, rfl⟩

/-- For StrobedLanesOfWindowsAreStored and WindowReadsAreLittleEndian, at both ends of each window. -/
theorem witness_windows :
    ((vec p10).cfg.legal = true ∧ Memory.wf (vec p10).mem = true ∧ Ready (vec p10)) ∧
      3 < 4 ∧ 4 * 0 < 0x100 ∧ 4 * 63 < 0x100 ∧ 4 * 15 < 0x10000 ∧ 4 * 16383 < 0x10000 ∧
      Memory.read (vec p10).mem (ivBase + (4 * 0 + 3)) = some 0x03#8 ∧
      Memory.read (vec p10).mem (inBase + (4 * 2 + 1)) = some 0x4A#8 :=
  ⟨⟨by decide, by decide, rfl, rfl⟩, by decide⟩

/-- The IV and IN windows at the ends of their storage: the last byte stored, and the first beyond it. -/
theorem test_window_ends :
    (nextOf (busWrite (vec p10) 0x100 0xDDCCBBAA#32 0x9#4)).map (fun t => busRead t 0x100) = some 0xDD0201AA#32 ∧
    (nextOf (busWrite (vec p10) 0x104 0xDDCCBBAA#32 0xF#4)).map (fun t => busRead t 0x104) = some 0x00000000#32 ∧
    (nextOf (busWrite (vec p10) 0x1003C 0xDDCCBBAA#32 0xF#4)).map (fun t => busRead t 0x1003C) = some 0xDDCCBBAA#32 ∧
    (nextOf (busWrite (vec p10) 0x10040 0xDDCCBBAA#32 0xF#4)).map (fun t => busRead t 0x10040) = some 0x00000000#32 := by
  decide

/-- A BUSY MOCE with N = 6, whose IV ends in the middle of the word at 0x104. -/
def busySix : State := { running with cfg := { Config.vectors with n := 6 } }

/-- 20_memory.md R77, 43_facade.md R233 on that word: strobes beyond the storage only never set BUSY_ERR; one in it does; so does a
write without a strobe (R74). -/
theorem test_straddling_word_while_busy :
    (nextOf (busWrite busySix 0x104 0xFFFFFFFF#32 0xC#4)).map (fun t => busRead t 0x014) = some 0x00000001#32 ∧
    (nextOf (busWrite busySix 0x104 0xFFFFFFFF#32 0xE#4)).map (fun t => busRead t 0x014) = some 0x00000009#32 ∧
    (nextOf (busWrite busySix 0x104 0xFFFFFFFF#32 0x0#4)).map (fun t => busRead t 0x014) = some 0x00000009#32 ∧
    (nextOf (busWrite busySix 0x108 0xFFFFFFFF#32 0x0#4)).map (fun t => busRead t 0x014) = some 0x00000001#32 := by decide

theorem witness_UnstrobedLanesOfCmdReadAsZero : Ready State.reset ∧ lane 0xFFFFFF01#32 0 = 0x01#8 := ⟨⟨rfl, rfl⟩, by decide⟩

/-- V-BUS: CMD reads 0, BLOCK_BYTES, IN_CAP and VERSION read the parameters, and a write to BLOCK_BYTES is ignored. -/
theorem test_read_only_registers :
    busRead State.reset 0x000 = 4 ∧ busRead State.reset 0x004 = 64 ∧ busRead State.reset 0x008 = 0x00010000#32 ∧
      busRead State.reset 0x010 = 0 ∧
      (nextOf (busWrite State.reset 0x000 0xFFFFFFFF#32 0xF#4)).map (fun t => busRead t 0x000) = some 4 := by decide

theorem witness_StatusIsWriteOneToClear :
    State.reset.rstN = true ∧
    (let s := { State.reset with status := { done := true, ok := true, busyErr := true } }
     (nextOf (busWrite s 0x014 0x0000000B#32 0x1#4)).map (fun t => busRead t 0x014) = some 0x00000004#32 ∧
     (nextOf (busWrite s 0x014 0x0000000B#32 0xE#4)).map (fun t => busRead t 0x014) = some 0x0000000E#32) := by
  decide

theorem witness_RegistersReadAndReadOnlyOnesIgnoreWrites :
    State.reset.rstN = true ∧ State.reset.cfg.legal = true ∧ 0x000 ∈ [0x000, 0x004, 0x008, 0x018, 0x028, 0x02C] ∧
      0x02C ∈ [0x000, 0x004, 0x008, 0x018, 0x028, 0x02C] := by decide

/-- The ends of each range of offsets without storage. -/
theorem witness_OffsetsWithoutStorageAreInert :
    State.reset.rstN = true ∧ State.reset.cfg.legal = true ∧
      (∀ off, off ∈ [0x00C, 0x00F, 0x030, 0x0FF, 0x104, 0x1FF, 0x200, 0xFFFF, 0x10040, 0x1FFFF, 0x30000, 0x3FFFF] →
        0x00C ≤ off ∧ off < 0x010 ∨ 0x030 ≤ off ∧ off < 0x100 ∨ 0x200 ≤ off ∧ off < 0x10000 ∨
        0x30000 ≤ off ∧ off < 0x40000 ∨
        0x100 + State.reset.cfg.n ≤ wordOffset off ∧ off < 0x200 ∨
        0x10000 + State.reset.cfg.inCap ≤ wordOffset off ∧ off < 0x20000) := by decide

/-- A word partly in the storage: the lanes beyond it strobed, the first of them alone, and both. -/
theorem witness_OffsetsWithoutStorageAreInert_partial :
    busySix.rstN = true ∧ busySix.cfg.legal = true ∧
      ∀ strb, strb ∈ [0x4#4, 0x8#4, 0xC#4] →
        (∃ j, j < 4 ∧ strb.getLsbD j = true) ∧ 0x100 ≤ 0x105 ∧ 0x105 < 0x200 ∧
          ∀ j, j < 4 → strb.getLsbD j = true → 0x100 + busySix.cfg.n ≤ wordOffset 0x105 + j := by decide

/-- The OUT window shows the output after a success, and its last word is in the window. -/
theorem witness_OutputIsVisibleOnlyAfterSuccess :
    State.reset.rstN = true ∧ 4 * 16383 < 0x10000 ∧
      (let u := engineMoves 7 running
       busRead u 0x20000 = 0x05746352#32 ∧ busRead u 0x20008 = 0x39625E4A#32 ∧ busRead u 0x2000C = 0) ∧
      busRead running 0x20000 = 0 := by decide

/-- The ends of each range of operands. -/
theorem witness_OperandWritesWhileBusyAreDropped :
    running.rstN = true ∧ running.phase = .busy ∧ running.cfg.legal = true ∧
      (∀ off, off ∈ [0x020, 0x024, 0x100, 0x103, 0x10000, 0x1003F] → ∀ strb, strb ∈ [0x0#4, 0x1#4, 0x8#4, 0xF#4] →
        off = 0x020 ∨ off = 0x024 ∨
        0x100 ≤ off ∧ wordOffset off < 0x100 + running.cfg.n ∧
          (strb = 0#4 ∨ ∃ j, j < 4 ∧ strb.getLsbD j = true ∧ wordOffset off + j < 0x100 + running.cfg.n) ∨
        0x10000 ≤ off ∧ wordOffset off < 0x10000 + running.cfg.inCap ∧
          (strb = 0#4 ∨ ∃ j, j < 4 ∧ strb.getLsbD j = true ∧ wordOffset off + j < 0x10000 + running.cfg.inCap)) := by decide

theorem witness_IrqFollowsStatusAndIe :
    (let s := { running with ie := { doneIe := true, busyErrIe := false } }
     s.rstN = true ∧ s.ie.doneIe = true ∧ s.irq = false ∧ (complete s).irq = true) ∧
    (Ready (vec p10) ∧ (∃ t, exec (.encCbc .pkcs7) (vec p10) = .next t) ∧ (vec p10).status.busyErr = false) :=
  ⟨by decide, ⟨rfl, rfl⟩, ⟨_, rfl⟩, rfl⟩

theorem witness_ResetGivesEveryRegisterItsValue :
    running.cfg.n ≤ 256 ∧ (enterReset running).rstN = false := by decide

theorem witness_ResetAbandonsTheCommand :
    let s := { running with inputs := [.resetLow, .resetHigh, .strayBtAnswer [0x00]] }
    s.phase = .busy ∧ s.inputs = .resetLow :: .resetHigh :: .strayBtAnswer [0x00] :: [] := ⟨rfl, rfl⟩

theorem witness_UnwrittenInputIsDrawnAfresh :
    (0 < (message (vec p10)).length ∧ Memory.read (vec p10).mem (inBase + 9) = some 0x4A#8 ∧
      Memory.read State.reset.mem inBase = none) ∧
    (let s := accept State.reset (encode (.unpad .bit)) (some (.unpad .bit)) ((commandJob (.unpad .bit) State.reset).result State.reset)
     s.phase = .busy ∧ (engineMove s).phase = .idle) := by decide

theorem witness_KeyChangeWhileBusyIsRefused :
    (∃ s : State, s.inputs = .rekey .identity :: [] ∧ s.phase = .busy) ∧
      ∃ s : State, s.inputs = .rekey (.keyed 7) :: [] ∧ s.phase = .idle :=
  ⟨⟨{ running with inputs := [.rekey .identity] }, rfl, rfl⟩, ⟨{ State.reset with inputs := [.rekey (.keyed 7)] }, rfl, rfl⟩⟩

/-- V-CBC-1 and V-CBC-2. -/
theorem witness_BlockModesRoundTrip :
    let c : Bytes := [0x52, 0x63, 0x74, 0x05, 0x34, 0x11, 0x7E, 0x53, 0x4A, 0x5E, 0x62, 0x39]
    (Mode.cbc = .ecb ∨ Mode.cbc = .cbc ∨ Mode.cbc = .pcbc) ∧ (vec p10).cfg.legal = true ∧ Ready (vec p10) ∧ Ready (vec c) ∧
      exec (Instr.enc .cbc .pkcs7) (vec p10) = .next running ∧ running.res = .output c ∧
      (vec c).cfg = (vec p10).cfg ∧ (vec c).bt = (vec p10).bt ∧ (vec c).ivLen = (vec p10).ivLen ∧
      ivBytes (vec c) = ivBytes (vec p10) ∧ message (vec c) = c ∧ c.length ≤ (vec p10).cfg.inCap :=
  ⟨by decide, by decide, ⟨rfl, rfl⟩, ⟨rfl, rfl⟩, rfl, by decide, rfl, rfl, rfl, by decide, by decide, by decide⟩

/-- S6: two equal blocks of a message in ECB. -/
theorem witness_BlockModesRoundTrip_ecb :
    let s := vec [0x41, 0x42, 0x43, 0x44, 0x55, 0x66, 0x77, 0x88, 0x41, 0x42, 0x43, 0x44]
    s.cfg.legal = true ∧ Ready s ∧
      resOf (exec (.encEcb .none) s) =
        some (.output [0x53, 0x61, 0x77, 0x05, 0x77, 0x55, 0xBB, 0x11, 0x53, 0x61, 0x77, 0x05]) ∧
      (blockAt s.cfg.n (message s) 0).length = s.cfg.n ∧ blockAt s.cfg.n (message s) 0 = blockAt s.cfg.n (message s) 2 :=
  ⟨by decide, ⟨rfl, rfl⟩, by decide, by decide, by decide⟩

/-- V-OFB-1 and V-OFB-2. -/
theorem witness_StreamModesRoundTrip :
    let c : Bytes := [0x51, 0x62, 0x73, 0x00, 0x74, 0x54, 0x30, 0x1C, 0x4A, 0x1F]
    (Mode.ofb = .cfb ∨ Mode.ofb = .ofb ∨ Mode.ofb = .ctr) ∧ (vec p10).cfg.legal = true ∧ Ready (vec p10) ∧ Ready (vec c) ∧
      resOf (exec (Instr.enc .ofb .bit) (vec p10)) = some (.output c) ∧
      (vec c).cfg = (vec p10).cfg ∧ (vec c).bt = (vec p10).bt ∧ (vec c).ivLen = (vec p10).ivLen ∧
      ivBytes (vec c) = ivBytes (vec p10) ∧ message (vec c) = c :=
  ⟨by decide, by decide, ⟨rfl, rfl⟩, ⟨rfl, rfl⟩, by decide, rfl, rfl, rfl, by decide, by decide⟩

/-- For ChangedByteDiffusesThroughBlockModes and ChangedByteDiffusesThroughStreamModes: two messages that differ in the last byte of
`P_0`. -/
theorem witness_ChangedByteDiffuses :
    let s := vec [0x41, 0x42, 0x43, 0x44, 0x45]
    let s' := vec [0x41, 0x42, 0x43, 0x40, 0x45]
    (∀ i, Runs i s ∧ Runs i s' ∨ i ∉ [.encEcb .pkcs7, .encCbc .pkcs7, .encPcbc .pkcs7, .encCfb .none]) ∧
      s'.cfg = s.cfg ∧ s'.bt = s.bt ∧ ivBytes s' = ivBytes s ∧ s'.inLen = s.inLen ∧ 3 < s.cfg.n ∧ 3 < s.inLen.toNat ∧
      ∀ j, j < s.inLen.toNat → ((message s)[j]? = (message s')[j]? ↔ j ≠ 3) := by
  refine ⟨fun i => ?_, rfl, rfl, by decide, rfl, by decide, by decide, by decide⟩
  by_cases h : i ∈ [.encEcb .pkcs7, .encCbc .pkcs7, .encPcbc .pkcs7, .encCfb .none]
  · simp only [List.mem_cons, List.not_mem_nil, or_false] at h
    rcases h with rfl | rfl | rfl | rfl <;>
      exact .inl ⟨⟨by decide, ⟨rfl, rfl⟩, by decide⟩, ⟨by decide, ⟨rfl, rfl⟩, by decide⟩⟩
  · exact .inr h

/-- The ECB clause where IV_LEN is not N and the IVs differ (43_facade.md R226). -/
theorem witness_ChangedByteDiffuses_ecb :
    Runs (.encEcb .bit) { vec [0x41] with ivLen := 0 } ∧ Runs (.encEcb .bit) (loaded [0xFF] [0x40]) :=
  ⟨⟨by decide, ⟨rfl, rfl⟩, by decide⟩, ⟨by decide, ⟨rfl, rfl⟩, by decide⟩⟩

/-- The hypotheses of EncryptionInTwoPartsNeedsTheChainingIv for the first eight bytes of `P10` in two parts of one block each; the
second part has the given IV. -/
def TwoParts (m : Mode) (p : Padding) (iv y : Bytes) : Prop :=
  let s := vec [0x41, 0x42, 0x43, 0x44, 0x45, 0x46, 0x47, 0x48]
  let s1 := vec [0x41, 0x42, 0x43, 0x44]
  let s2 := loaded iv [0x45, 0x46, 0x47, 0x48]
  Runs (Instr.enc m p) s ∧ Runs (Instr.enc m .none) s1 ∧ Runs (Instr.enc m p) s2 ∧
    message s = message s1 ++ message s2 ∧ message s1 ≠ [] ∧ (message s1).length % s.cfg.n = 0 ∧ ivBytes s1 = ivBytes s ∧
    ivBytes s2 = iv ∧ resOf (exec (Instr.enc m .none) s1) = some (.output y)

/-- V-CBC-3, with a padded second part. -/
theorem witness_EncryptionInTwoPartsNeedsTheChainingIv_cbc :
    TwoParts .cbc .pkcs7 [0x52, 0x63, 0x74, 0x05] [0x52, 0x63, 0x74, 0x05] :=
  ⟨⟨by decide, ⟨rfl, rfl⟩, by decide⟩, ⟨by decide, ⟨rfl, rfl⟩, by decide⟩, ⟨by decide, ⟨rfl, rfl⟩, by decide⟩,
    by decide, by decide, by decide, by decide, by decide, by decide⟩

/-- V-CFB-1: the IV of the second part is the ciphertext of the first. -/
theorem witness_EncryptionInTwoPartsNeedsTheChainingIv_cfb :
    TwoParts .cfb .none [0x51, 0x62, 0x73, 0x00] [0x51, 0x62, 0x73, 0x00] :=
  ⟨⟨by decide, ⟨rfl, rfl⟩, by decide⟩, ⟨by decide, ⟨rfl, rfl⟩, by decide⟩, ⟨by decide, ⟨rfl, rfl⟩, by decide⟩,
    by decide, by decide, by decide, by decide, by decide, by decide⟩

/-- V-OFB-1: the IV of the second part is the keystream block `10 20 30 44` of 42_stream_modes.md R193. -/
theorem witness_EncryptionInTwoPartsNeedsTheChainingIv_ofb :
    TwoParts .ofb .none [0x10, 0x20, 0x30, 0x44] [0x51, 0x62, 0x73, 0x00] ∧
      (encryptBlock .rotateXor 4)^[1] iv0 = [0x10, 0x20, 0x30, 0x44] :=
  ⟨⟨⟨by decide, ⟨rfl, rfl⟩, by decide⟩, ⟨by decide, ⟨rfl, rfl⟩, by decide⟩, ⟨by decide, ⟨rfl, rfl⟩, by decide⟩,
    by decide, by decide, by decide, by decide, by decide, by decide⟩, by decide⟩

/-- V-CTR-1: the IV of the second part is the IV plus one block. -/
theorem witness_EncryptionInTwoPartsNeedsTheChainingIv_ctr :
    TwoParts .ctr .none [0x00, 0x01, 0x02, 0x04] [0x51, 0x62, 0x73, 0x00] ∧
      beBytes 4 ((intBe iv0 + 1) % 2 ^ (8 * 4)) = [0x00, 0x01, 0x02, 0x04] :=
  ⟨⟨⟨by decide, ⟨rfl, rfl⟩, by decide⟩, ⟨by decide, ⟨rfl, rfl⟩, by decide⟩, ⟨by decide, ⟨rfl, rfl⟩, by decide⟩,
    by decide, by decide, by decide, by decide, by decide, by decide⟩, by decide⟩

/-- The counter examples of 42_stream_modes.md R197. -/
theorem witness_CounterIncrementsBigEndian :
    1 ≤ ([0xFF] : Bytes).length ∧
      beBytes 4 ((intBe [0x12, 0x34, 0xFF, 0xFF] + 1) % 2 ^ 32) = [0x12, 0x35, 0x00, 0x00] ∧
      beBytes 4 ((intBe [0xFF, 0xFF, 0xFF, 0xFF] + 1) % 2 ^ 32) = [0x00, 0x00, 0x00, 0x00] := by decide

/-! ## What the spec says does not hold -/

/-- V-DIFF-3 (42_stream_modes.md R200): in CFB a changed `P_0[0]` leaves the last, partial block of one byte unchanged. -/
theorem test_cfb_partial_block_may_stay :
    resOf (exec (.encCfb .none) (vec [0x41, 0x42, 0x43, 0x44, 0x45])) = some (.output [0x51, 0x62, 0x73, 0x00, 0x36]) ∧
    resOf (exec (.encCfb .none) (vec [0x40, 0x42, 0x43, 0x44, 0x45])) = some (.output [0x50, 0x62, 0x73, 0x00, 0x36]) := by
  decide

end Sys2Proof.Tests
end

section
/-! PROOFS. The statements of 00_scope.md: the block transform (R14), the counter (R18), the message (R20) and PAD (R11).
The general facts stand first, as laws of the model's operations. -/

namespace Sys2Proof.Machine

open Sys2Proof.Safety

/-! ## Big-endian integers (00_scope.md R18), from the last byte on: the carry starts there -/

@[simp] theorem intBe_nil : intBe [] = 0 := rfl

/-- The last byte is the lowest digit of the value. -/
@[simp] theorem intBe_concat (b : Bytes) (x : Byte) : intBe (b ++ [x]) = intBe b * 256 + x.toNat := by
  simp [intBe]

/-- The last byte of `be_N(v)` is `v` modulo 256, and the bytes before it encode `v / 256`. -/
theorem beBytes_succ (n v : Nat) : beBytes (n + 1) v = beBytes n (v / 256) ++ [BitVec.ofNat 8 v] := by
  have front : ∀ j ∈ List.range n, v / 256 ^ (n - j) = v / 256 / 256 ^ (n - 1 - j) := fun j hj => by
    have : n - j = n - 1 - j + 1 := by have := List.mem_range.1 hj; omega
    rw [this, Nat.pow_succ', Nat.div_div_eq_div_mul]
  simp only [beBytes, List.range_succ, List.map_append, List.map_cons, List.map_nil, Nat.add_sub_cancel, Nat.sub_self,
    Nat.pow_zero, Nat.div_one]
  rw [List.map_congr_left fun j hj => congrArg (BitVec.ofNat 8) (front j hj)]

theorem intBe_lt (b : Bytes) : intBe b < 256 ^ b.length := by
  induction b using List.reverseRecOn with
  | nil => simp
  | append_singleton b x ih =>
    have hx := x.isLt
    rw [intBe_concat, List.length_append, List.length_singleton, Nat.pow_succ]
    omega

/-- The value of a block gives the block back. -/
theorem beBytes_intBe (b : Bytes) : beBytes b.length (intBe b) = b := by
  induction b using List.reverseRecOn with
  | nil => rfl
  | append_singleton b x ih =>
    have hx := x.isLt
    have hdiv : (intBe b * 256 + x.toNat) / 256 = intBe b := by omega
    have hlow : BitVec.ofNat 8 (intBe b * 256 + x.toNat) = x := by apply BitVec.eq_of_toNat_eq; simp; omega
    rw [List.length_append, List.length_singleton, intBe_concat, beBytes_succ, hdiv, hlow, ih]

/-- `be_N` sees its value modulo `256^N` only: a carry out of byte 0 is lost. -/
theorem beBytes_mod (n v : Nat) : beBytes n (v % 256 ^ n) = beBytes n v := by
  induction n generalizing v with
  | zero => rfl
  | succ n ih =>
    have hlow : BitVec.ofNat 8 (v % 256 ^ (n + 1)) = BitVec.ofNat 8 v := by
      apply BitVec.eq_of_toNat_eq; simp
    rw [beBytes_succ, beBytes_succ, hlow, Nat.pow_succ', Nat.mod_mul_right_div_self, ih]

/-- One up, byte by byte: a last byte 0xFF becomes 0x00 and carries into the bytes before it; any other takes the increment and
leaves them alone. -/
theorem beBytes_intBe_succ_getElem? (b : Bytes) (j : Nat) (h : j < b.length) :
    (beBytes b.length (intBe b + 1))[j]? =
      some (if ∀ x ∈ b.drop (j + 1), x = 0xFF#8 then b[j] + 1#8 else b[j]) := by
  induction b using List.reverseRecOn with
  | nil => simp at h
  | append_singleton b x ih =>
    have hx := x.isLt
    simp only [List.length_append, List.length_singleton] at h ⊢
    rw [intBe_concat, beBytes_succ]
    by_cases hj : j < b.length
    · rw [List.getElem?_append_left (by simpa using hj), List.drop_append_of_le_length (by omega),
        List.getElem_append_left hj]
      by_cases hff : x = 0xFF#8
      · have hcarry : (intBe b * 256 + x.toNat + 1) / 256 = intBe b + 1 := by rw [hff]; simp; omega
        simp only [hcarry, ih hj, List.forall_mem_append, List.forall_mem_singleton, eq_true hff, and_true]
      · have hstay : (intBe b * 256 + x.toNat + 1) / 256 = intBe b := by
          have : x.toNat ≠ 255 := fun h255 => hff (BitVec.eq_of_toNat_eq h255)
          omega
        simp only [hstay, beBytes_intBe, List.getElem?_eq_getElem hj, List.forall_mem_append, List.forall_mem_singleton,
          hff, and_false, if_false]
    · have hlast : j = b.length := by omega
      have hlow : BitVec.ofNat 8 (intBe b * 256 + x.toNat + 1) = x + 1#8 := by
        apply BitVec.eq_of_toNat_eq; simp; omega
      subst hlast
      simp [hlow]

/-- Settles O59: by induction from the last byte, where the carry starts. -/
theorem counterIncrementsBigEndian : Obligations.CounterIncrementsBigEndian := by
  unfold Obligations.CounterIncrementsBigEndian
  intro b _
  rw [Nat.pow_mul, show 2 ^ 8 = 256 from rfl, beBytes_mod]
  exact ⟨intBe_lt b, beBytes_intBe b, beBytes_length _ _, beBytes_intBe_succ_getElem? b⟩

/-! ## The block transform (00_scope.md R14) -/

/-- TR's rotation by one byte, as the library's. -/
theorem drop_one_append_take_one (b : Bytes) : b.drop 1 ++ b.take 1 = b.rotate 1 := by
  cases b <;> simp

/-- The rotation back: by all bytes but one. -/
theorem drop_append_take_pred {n : Nat} {b : Bytes} (h : b.length = n) :
    b.drop (n - 1) ++ b.take (n - 1) = b.rotate (n - 1) :=
  (List.rotate_eq_drop_append_take (by omega)).symm

/-- Rotating by one byte and then by the others is rotating by the length. -/
theorem rotate_rotate_of_add_eq {k m : Nat} {b : Bytes} (h : b = [] ∨ k + m = b.length) :
    (b.rotate k).rotate m = b := by
  rcases h with rfl | h
  · simp
  · rw [List.rotate_rotate, h, List.rotate_length]

/-- `D(E(B)) = B`. -/
theorem decryptBlock_encryptBlock (t : BlockTransform) {n : Nat} {b : Bytes} (h : b.length = n) :
    decryptBlock t n (encryptBlock t n b) = b := by
  cases t with
  | keyed key => exact applyPermutation_symm n _ h
  | identity => rfl
  | rotateXor =>
    have hsplit : b = [] ∨ 1 + (n - 1) = b.length := by rw [← List.length_eq_zero_iff]; omega
    simp only [encryptBlock, decryptBlock, drop_one_append_take_one]
    rw [xorBytes_cancel (by simp [h]), drop_append_take_pred (by simp [h]), rotate_rotate_of_add_eq hsplit]

/-- `E(D(C)) = C`. -/
theorem encryptBlock_decryptBlock (t : BlockTransform) {n : Nat} {c : Bytes} (h : c.length = n) :
    encryptBlock t n (decryptBlock t n c) = c := by
  cases t with
  | keyed key => exact applyPermutation_symm n (Config.keyedPermutation key n).symm h
  | identity => rfl
  | rotateXor =>
    have hx : (xorBytes c (rotateXorKey n)).length = n := by simp [h]
    have hsplit : xorBytes c (rotateXorKey n) = [] ∨ n - 1 + 1 = (xorBytes c (rotateXorKey n)).length := by
      rw [← List.length_eq_zero_iff]; omega
    simp only [encryptBlock, decryptBlock, drop_one_append_take_one]
    rw [drop_append_take_pred hx, rotate_rotate_of_add_eq hsplit, xorBytes_cancel (by simp [h])]

/-- Settles O23, transform by transform: a keyed permutation has its inverse, and TR rotates and masks back. -/
theorem decryptBlockInvertsEncryptBlock : Obligations.DecryptBlockInvertsEncryptBlock := by
  unfold Obligations.DecryptBlockInvertsEncryptBlock
  intro t n b h
  exact ⟨encryptBlock_length t h, decryptBlock_length t h, decryptBlock_encryptBlock t h, encryptBlock_decryptBlock t h⟩

/-! ## The message and its draws (00_scope.md R20, 70_reset_and_hazards.md R291) -/

/-- Byte `j` of the message is the stored byte, or the draw of the command's stamp. -/
theorem message_getElem (s : State) (j : Nat) (h : j < (message s).length) :
    (message s)[j] = (Memory.read s.mem (inBase + j)).getD (Config.commandDraw s.commands j) := by
  simp [message]

/-- A completion, of either kind, moves the stamp of the draws on. -/
@[simp] theorem complete_commands (s : State) : (complete s).commands = s.commands + 1 := by
  rcases complete_cases s with ⟨y, -, h⟩ | ⟨c, -, h⟩ <;> rw [h] <;> rfl

/-- A move of the engine that ends a running command is its completion. -/
theorem engineMove_eq_complete_of_ends {s : State} (hb : s.phase = .busy) (hi : (engineMove s).phase = .idle) :
    engineMove s = complete s := by
  rcases engineMove_cases s with ⟨-, he⟩ | ⟨-, -, ⟨he, -⟩ | ⟨w, r, -, -, -, ⟨-, he⟩ | ⟨q, -, he⟩⟩⟩
  · rw [he, hb] at hi; cases hi
  · exact he
  · rw [he, issueRequest_phase, hb] at hi; cases hi
  · rw [he, takeAnswer_phase, hb] at hi; cases hi

/-- Settles O52: the bytes by the definition of the message, the stamp because only a completion ends a command. -/
theorem unwrittenInputIsDrawnAfresh : Obligations.UnwrittenInputIsDrawnAfresh := by
  unfold Obligations.UnwrittenInputIsDrawnAfresh
  refine ⟨fun s j h => ⟨fun v hv => ?_, fun hn => ?_⟩, fun s hb hi => ?_, fun s => ?_⟩
  · rw [message_getElem, hv, Option.getD_some]
  · rw [message_getElem, hn, Option.getD_none]
  · rw [engineMove_eq_complete_of_ends hb hi, complete_commands]
  · rw [enterReset, resetRegisters_commands]; exact Nat.lt_succ_self _

/-! ## A command that runs, and its completion (43_facade.md R222, R230) -/

/-- A check passes, and so do those after it. -/
theorem ite_some_eq_none_iff {α : Type} (c : Prop) [Decidable c] (a : α) (o : Option α) :
    (if c then some a else o) = none ↔ ¬c ∧ o = none := by
  split <;> simp [*]

/-- The checks 2 to 5 pass, one by one. -/
theorem firstFailing_eq_none_iff (i : Instr) (s : State) :
    firstFailing i s = none ↔
      (paddingUsed i = some .pkcs7 ∨ paddingUsed i = some .x923 → s.cfg.n ≤ 255) ∧
      s.inLen.toNat ≤ s.cfg.inCap ∧
      (needsIv i = true → s.ivLen.toNat = s.cfg.n) ∧
      (needsAlignment i = true → s.inLen.toNat % s.cfg.n = 0) := by
  simp only [firstFailing, ite_some_eq_none_iff, not_and, Nat.not_lt, ne_eq, not_not, and_true]

/-- Check 3 has passed. -/
theorem exceedsCapacity_of_runs {i : Instr} {s : State} (h : Runs i s) : exceedsCapacity s = false := by
  obtain ⟨-, h3, -⟩ := (firstFailing_eq_none_iff i s).1 h.checks
  simpa [exceedsCapacity] using h3

/-- Check 2 has passed. -/
theorem schemeTooWide_of_runs {i : Instr} {s : State} {p : Padding} (h : Runs i s) (hp : paddingUsed i = some p) :
    schemeTooWide s p = false := by
  obtain ⟨h2, -⟩ := (firstFailing_eq_none_iff i s).1 h.checks
  rw [hp, Option.some.injEq, Option.some.injEq] at h2
  simpa [schemeTooWide] using h2

/-- Check 5 has passed. -/
theorem aligned_of_runs {i : Instr} {s : State} (h : Runs i s) (ha : needsAlignment i = true) :
    s.inLen.toNat % s.cfg.n = 0 := by
  obtain ⟨-, -, -, h5⟩ := (firstFailing_eq_none_iff i s).1 h.checks
  exact h5 ha

/-- A running command without blocks completes at the engine's next move, 43_facade.md R232. -/
theorem engineMove_of_no_rule {s : State} {w : Work} (hr : s.rstN = true) (hb : s.phase = .busy)
    (hj : curJob s.cur s = .work w) (hw : w.rule = none) : engineMove s = complete s := by
  simp [engineMove, hr, hb, hj, hw]

/-- After its accept, the job of the running command is the one it had before. -/
theorem curJob_accept {s : State} (hl : s.cfg.legal = true) (w : Word) (i : Instr) (r : Result) :
    curJob (accept s w (some i) r).cur (accept s w (some i) r) = commandJob i s :=
  curJob_congr (accept_sameOperands s w (some i) r) hl (some i)

/-- Every output that fits OUT_LEN is shown exactly as it was committed, 43_facade.md R230, 20_memory.md R80. -/
theorem completeOk_showsOutput (s : State) {y : Bytes} (hy : y.length < 2 ^ 32) : ShowsOutput (completeOk s y) y := by
  have hlen : (completeOk s y).outLen.toNat = y.length := by
    rw [completeOk_outLen, BitVec.toNat_ofNat, Nat.mod_eq_of_lt hy]
  refine ⟨rfl, ⟨rfl, rfl⟩, rfl, hlen, fun b => ?_⟩
  unfold readOut
  rw [hlen]
  by_cases hb : b < y.length
  · rw [if_pos ⟨rfl, rfl, hb⟩, storedByte, completeOk_mem, Memory.read_writeBytes (by decide) y s.mem b hb,
      Option.getD_some, List.getD_eq_getElem _ _ hb]
  · rw [if_neg fun h => hb h.2.2, List.getD_eq_default _ _ (by omega)]
    rfl

/-! ## PAD (40_padding.md R120 to R125, R134) -/

/-- The bytes a scheme appends when its padding count is `k`, 40_padding.md R121 to R125. -/
def paddingBytes (k : Nat) : Padding → Bytes
  | .none => []
  | .bit => 0x80#8 :: List.replicate (k - 1) 0x00#8
  | .pkcs7 => List.replicate k (BitVec.ofNat 8 k)
  | .x923 => List.replicate (k - 1) 0x00#8 ++ [BitVec.ofNat 8 k]
  | .iso7816 => 0x80#8 :: List.replicate (k - 1) 0x00#8

/-- `pad` appends its scheme's bytes; None needs a whole number of blocks. -/
theorem pad_eq_output {n : Nat} {p : Padding} {x : Bytes} (h : p = .none → x.length % n = 0) :
    pad n p x = .output (x ++ paddingBytes (padCount n x.length) p) := by
  cases p with
  | none => simp [pad, paddingBytes, h rfl]
  | bit | pkcs7 | x923 | iso7816 => simp [pad, paddingBytes]

/-- The padded message of a PAD whose checks pass. -/
theorem pad_of_runs {p : Padding} {s : State} (h : Runs (.pad p) s) :
    pad s.cfg.n p (message s) = .output (message s ++ paddingBytes (padCount s.cfg.n s.inLen.toNat) p) := by
  have haligned : p = .none → (message s).length % s.cfg.n = 0 := by
    rintro rfl
    rw [message_length]
    exact aligned_of_runs h rfl
  rw [pad_eq_output haligned, message_length]

/-- The work PAD has when its checks pass: the padded message, and no blocks. -/
theorem padJob_of_runs {p : Padding} {s : State} (h : Runs (.pad p) s) :
    padJob p s = .work
      { input := message s ++ paddingBytes (padCount s.cfg.n s.inLen.toNat) p
        rule := none, writesBlocks := false, finish := .output } := by
  rw [padJob, schemeTooWide_of_runs h rfl, exceedsCapacity_of_runs h, pad_of_runs h]
  rfl

/-- Settles O18: the checks passed leave the padded message as PAD's whole work, so the next move commits it. -/
theorem padAppendsItsScheme : Obligations.PadAppendsItsScheme := by
  unfold Obligations.PadAppendsItsScheme
  intro p s h
  obtain ⟨hn, -, -, hcap, -⟩ := (legal_iff _).1 h.legal
  have hjob := padJob_of_runs h
  set y := message s ++ paddingBytes (padCount s.cfg.n s.inLen.toNat) p with hy
  have hlen : y.length ≤ s.cfg.outCap := (commandJob_work (i := .pad p) h.legal hjob).fits
  have hmod : y.length % s.cfg.n = 0 := (pad_length hn (pad_of_runs h)).1
  set t := accept s (encode (.pad p)) (some (.pad p)) (.output y)
  have hexec : exec (.pad p) s = .next t := by
    rw [exec_ready h.ready, show commandJob (.pad p) s = _ from hjob]; rfl
  have hmove : engineMove t = completeOk t y :=
    engineMove_of_no_rule h.ready.1 rfl ((curJob_accept h.legal _ _ _).trans hjob) rfl
  refine ⟨y, t, completeOk t y, hexec, rfl, hmove, completeOk_showsOutput t ?_, rfl,
    padCount_pos hn, padCount_le _ _, ?_, hmod, hlen⟩
  · unfold Config.outCap at hlen; omega
  · rw [hy]; cases p <;> rfl

end Sys2Proof.Machine
end

section
/-! PROOFS. The invariant (10_state.md R55), which the state after reset meets and every step keeps. What a step can do is said once, by
inversion; the invariant is then kept operation by operation. -/

namespace Sys2Proof.Machine

open Sys2Proof.Safety

/-! ## What a step can do (20_memory.md R83) -/

/-- A step is a move of the engine, or what the next event does. -/
theorem step_cases {s t : State} (h : step s = .next t) :
    (s.inputs = [] ∧ t = engineMove s) ∨
      ∃ e rest, s.inputs = e :: rest ∧ handleEvent e { s with inputs := rest } = .next t := by
  unfold step at h
  split at h
  · next he => exact .inl ⟨he, (Host.Outcome.next.inj h).symm⟩
  · next e rest he => exact .inr ⟨e, rest, he, h⟩

/-- A bus access that answers is an access at some offset. -/
theorem atOffset_next {s t : State} {addr : Nat} {access : Nat → Outcome} (h : atOffset s addr access = .next t) :
    ∃ off, access off = .next t := by
  unfold atOffset at h
  split at h
  · exact ⟨_, h⟩
  · cases h

/-- A poll changes the read data and the events to come only. -/
theorem pollOnce_cases (s : State) (addr off : Nat) (mask value : Word) :
    ∃ d i, pollOnce s addr off mask value = { s with readData := d, inputs := i } := by
  unfold pollOnce
  simp only
  split
  · exact ⟨_, _, rfl⟩
  · exact ⟨_, _, rfl⟩

/-- What an event that answers a next state can do. -/
theorem handleEvent_cases {e : Event} {s t : State} (h : handleEvent e s = .next t) :
    (∃ d i, t = { s with readData := d, inputs := i }) ∨
    (∃ off data strb, busWrite s off data strb = .next t) ∨
    t = engineMove s ∨ t = enterReset s ∨ t = leaveReset s ∨
    (s.phase = .idle ∧ ∃ b, t = { s with bt := b }) := by
  cases e with
  | read addr =>
    rw [handleEvent] at h
    obtain ⟨off, h⟩ := atOffset_next h
    exact .inl ⟨_, _, (Host.Outcome.next.inj h).symm⟩
  | write addr data strb =>
    rw [handleEvent] at h
    obtain ⟨off, h⟩ := atOffset_next h
    exact .inr (.inl ⟨off, data, strb, h⟩)
  | poll addr mask value =>
    rw [handleEvent] at h
    obtain ⟨off, h⟩ := atOffset_next h
    obtain ⟨d, i, hp⟩ := pollOnce_cases s addr off mask value
    exact .inl ⟨d, i, (Host.Outcome.next.inj h).symm.trans hp⟩
  | engine => exact .inr (.inr (.inl (Host.Outcome.next.inj h).symm))
  | resetLow => exact .inr (.inr (.inr (.inl (Host.Outcome.next.inj h).symm)))
  | resetHigh => exact .inr (.inr (.inr (.inr (.inl (Host.Outcome.next.inj h).symm))))
  | rekey b =>
    cases hp : s.phase with
    | busy => simp [handleEvent, hp] at h
    | idle =>
      simp only [handleEvent, hp, reduceCtorEq, if_false, Host.Outcome.next.injEq] at h
      exact .inr (.inr (.inr (.inr (.inr ⟨rfl, b, h.symm⟩))))
  | strayBtAnswer b =>
    simp only [handleEvent] at h
    split at h
    · cases h
    · exact .inl ⟨s.readData, s.inputs, (Host.Outcome.next.inj h).symm⟩

/-- A rise of `rst_n` does nothing out of reset, and in reset what its fall does. -/
theorem leaveReset_cases (s : State) :
    (s.rstN = true ∧ leaveReset s = s) ∨ (s.rstN = false ∧ leaveReset s = resetRegisters s true) := by
  unfold leaveReset
  cases s.rstN <;> simp

/-- A host write does nothing in reset; out of reset it is the write to its place, with the stamp of host reads one up. -/
theorem busWrite_cases {s t : State} {off : Nat} {data : Word} {strb : Strobe} (h : busWrite s off data strb = .next t) :
    (s.rstN = false ∧ t = s) ∨
    (s.rstN = true ∧ writePlace { s with epoch := s.epoch + 1 } (place (wordOffset off)) data strb = .next t) := by
  unfold busWrite at h
  split at h
  · next hr => exact .inl ⟨hr, (Host.Outcome.next.inj h).symm⟩
  · next hr => exact .inr ⟨by simpa using hr, h⟩

/-- A cause has the class `none` only if it is none itself, 60_exceptions.md R252. -/
theorem Cause.cls_eq_none_iff (c : Cause) : c.cls = .none ↔ c = .none := by cases c <;> simp [Cause.cls]

end Sys2Proof.Machine

namespace Sys2Proof.Safety

open Sys2Proof.Machine

/-! ## The state at reset (70_reset_and_hazards.md R290, R291) -/

/-- Where memory lists nothing the IV storage is zero. -/
theorem ivBytes_of_mem_nil {s : State} (hm : s.mem = []) (hn : s.cfg.n ≤ 256) :
    ivBytes s = List.replicate s.cfg.n 0#8 := by
  rw [List.eq_replicate_iff]
  refine ⟨ivBytes_length s, fun b hb => ?_⟩
  obtain ⟨j, hj, rfl⟩ := List.mem_map.1 hb
  have hj := List.mem_range.1 hj
  rw [storedByte, hm, Memory.read_nil, Memory.unlisted_iv (by omega), Option.getD_some]

/-- Where memory lists nothing the input buffer is unwritten. -/
theorem read_input_of_mem_nil {m : List Host.Cell} (hm : m = []) (j : Nat) : Memory.read m (inBase + j) = none := by
  rw [hm, Memory.read_nil]
  exact Memory.unlisted_eq_none (by unfold ivBase inBase; omega)

theorem resetWith_atReset (c : Config) (t : BlockTransform) (hn : c.n ≤ 256) : AtReset (State.resetWith c t) where
  phase := rfl
  status := rfl
  error := rfl
  ie := rfl
  ivLen := rfl
  inLen := rfl
  outLen := rfl
  lastCmd := rfl
  btPending := rfl
  iv := ivBytes_of_mem_nil rfl hn
  input j _ := read_input_of_mem_nil rfl j

theorem resetRegisters_atReset (s : State) (b : Bool) (hn : s.cfg.n ≤ 256) : AtReset (resetRegisters s b) :=
  { resetWith_atReset s.cfg s.bt hn with iv := ivBytes_of_mem_nil rfl hn }

/-- Registers at their reset values meet R55. -/
theorem AtReset.consistent {s : State} (h : AtReset s) : Consistent s where
  busyClean hb := by rw [h.phase] at hb; cases hb
  okNoError _ := by rw [h.error]
  noClassNoCause _ := by rw [h.error]
  outLenOk ho := absurd h.outLen ho
  outLenCap := by rw [h.outLen]; exact Nat.zero_le _

/-! ## The invariant, by what the state is doing -/

/-- While IDLE the invariant speaks of memory, the visible registers and the reset values only. -/
theorem Inv.of_idle {s : State} (hl : s.cfg.legal = true) (hm : Memory.wf s.mem = true)
    (hs : ∀ c, c ∈ s.mem → inStorage s.cfg c.1 = true) (hc : Consistent s) (hp : s.phase = .idle) (hb : s.btPending = none)
    (hr : s.rstN = false → AtReset s) : Inv s where
  legal := hl
  memCanonical := hm
  memInStorage := hs
  consistent := hc
  resIsExec h := by rw [hp] at h; cases h
  noRequestIdle _ := hb
  onTrack h := by rw [hp] at h; cases h
  inReset := hr

/-- A state with every register at its reset value and nothing listed in memory meets the invariant. -/
theorem AtReset.inv {s : State} (h : AtReset s) (hl : s.cfg.legal = true) (hm : s.mem = []) : Inv s :=
  .of_idle hl (by rw [hm]; exact Memory.wf_nil) (by simp [hm]) h.consistent h.phase h.btPending fun _ => h

/-- The running command is the same: its operands, its engine and its output buffer. -/
structure SameCommand (s u : State) : Prop extends SameOperands s u where
  mem : u.mem = s.mem
  phase : u.phase = s.phase
  cur : u.cur = s.cur
  res : u.res = s.res
  blk : u.blk = s.blk
  chaining : u.chaining = s.chaining
  btPending : u.btPending = s.btPending
  btLog : u.btLog = s.btLog

/-- STATUS, IE, the read data, the stamp of host reads and the events to come are no part of the running command. -/
theorem sameCommand_setVisible (s : State) (st : Status) (ie : IntEnable) (d : Word) (e : Nat) (i : List Event) :
    SameCommand s { s with status := st, ie := ie, readData := d, epoch := e, inputs := i } :=
  ⟨⟨rfl, rfl, rfl, rfl, rfl, fun _ _ => rfl⟩, rfl, rfl, rfl, rfl, rfl, rfl, rfl, rfl⟩

/-- With the command the same, only the visible registers and the reset values are left to show. -/
theorem Inv.of_sameCommand {s u : State} (h : Inv s) (hs : SameCommand s u) (hc : Consistent u)
    (hr : u.rstN = false → AtReset u) : Inv u where
  legal := by rw [hs.cfg]; exact h.legal
  memCanonical := by rw [hs.mem]; exact h.memCanonical
  memInStorage := by rw [hs.mem, hs.cfg]; exact h.memInStorage
  consistent := hc
  resIsExec hb := by
    rw [hs.res, hs.cur, curJob_congr hs.toSameOperands h.legal, result_congr hs.toSameOperands h.legal]
    exact h.resIsExec (hs.phase ▸ hb)
  noRequestIdle hi := by rw [hs.btPending]; exact h.noRequestIdle (hs.phase ▸ hi)
  onTrack hb := onTrack_congr hs.toSameOperands h.legal hs.mem hs.cur hs.blk hs.chaining hs.btPending hs.btLog
    (h.onTrack (hs.phase ▸ hb))
  inReset := hr

/-- The invariant does not speak of the read data, the stamp of host reads, or the events to come. -/
theorem Inv.setBus {s : State} (h : Inv s) (d : Word) (e : Nat) (i : List Event) :
    Inv { s with readData := d, epoch := e, inputs := i } :=
  h.of_sameCommand (sameCommand_setVisible s s.status s.ie d e i) { h.consistent with } fun hr =>
    { h.inReset hr with iv := Eq.trans (ivBytes_congr (s := s) rfl h.legal fun _ _ => rfl) (h.inReset hr).iv }

/-! ## Each operation keeps the invariant -/

/-- STATUS and IE may change out of reset, but for OK and a new DONE. -/
theorem Inv.setFlags {s : State} (h : Inv s) (hr : s.rstN = true) {st : Status} (ie : IntEnable)
    (hok : st.ok = s.status.ok) (hdone : s.status.done = false → st.done = false) :
    Inv { s with status := st, ie := ie } :=
  h.of_sameCommand (sameCommand_setVisible s st ie s.readData s.epoch s.inputs)
    { busyClean := fun hb => by
        obtain ⟨hd, ho, herr, hlen⟩ := h.consistent.busyClean hb
        exact ⟨hdone hd, hok.trans ho, herr, hlen⟩
      okNoError := fun ho => h.consistent.okNoError (hok.symm.trans ho)
      noClassNoCause := h.consistent.noClassNoCause
      outLenOk := fun hl => hok.trans (h.consistent.outLenOk hl)
      outLenCap := h.consistent.outLenCap } (by simp [hr])

theorem inv_dropWrite {s : State} (h : Inv s) (hr : s.rstN = true) : Inv (dropWrite s) :=
  h.setFlags hr s.ie rfl id

/-- W1C takes DONE away, never gives it. -/
theorem inv_writeStatus {s : State} (h : Inv s) (hr : s.rstN = true) (w : Word) (strb : Strobe) :
    Inv (writeStatus s w strb) :=
  h.setFlags hr s.ie rfl fun hd => by simp [hd]

theorem inv_writeIe {s : State} (h : Inv s) (hr : s.rstN = true) (w : Word) (strb : Strobe) : Inv (writeIe s w strb) := by
  unfold writeIe
  split
  · exact h.setFlags hr _ rfl id
  · exact h

/-- A window write lists bytes of its window's storage only. -/
theorem inv_writeWindow {s : State} (h : Inv s) (hr : s.rstN = true) (hp : s.phase = .idle) {base limit : Nat}
    (hw : ∀ off, base ≤ off → off < base + limit → inStorage s.cfg off = true) (b : Nat) (data : Word) (strb : Strobe) :
    Inv { s with mem := writeWindow s.mem base b limit data strb } :=
  .of_idle h.legal (wf_writeWindow h.memCanonical base b limit data strb)
    (fun c hc => (mem_writeWindow hc).elim (h.memInStorage c) fun hin => hw c.1 hin.1 hin.2)
    { h.consistent with } hp (h.noRequestIdle hp) (by simp [hr])

theorem inStorage_iv {c : Config} {off : Nat} (h1 : ivBase ≤ off) (h2 : off < ivBase + c.n) : inStorage c off = true := by
  simp [inStorage, h1, h2]

theorem inStorage_in {c : Config} {off : Nat} (h1 : inBase ≤ off) (h2 : off < inBase + c.inCap) : inStorage c off = true := by
  simp [inStorage, h1, h2]

theorem inStorage_out {c : Config} {off : Nat} (h1 : outBase ≤ off) (h2 : off < outBase + c.outCap) :
    inStorage c off = true := by
  simp [inStorage, h1, h2]

/-- `MemWrite` into the output buffer lists bytes of it only. -/
theorem mem_writeBytes_inStorage {s : State} (h : Inv s) {off : Nat} {y : Bytes} (h1 : outBase ≤ off)
    (h2 : off + y.length ≤ outBase + s.cfg.outCap) (c : Host.Cell) (hc : c ∈ Memory.writeBytes s.mem off y) :
    inStorage s.cfg c.1 = true :=
  (Memory.mem_writeBytes hc).elim (h.memInStorage c) fun hin => inStorage_out (by omega) (by omega)

/-- An accept fixes RES as `Exec` of the operands, which it leaves alone. -/
theorem inv_accept {s : State} (h : Inv s) (hr : s.rstN = true) (w : Word) (c : Option Instr) :
    Inv (accept s w c ((curJob c s).result s)) where
  legal := h.legal
  memCanonical := h.memCanonical
  memInStorage := h.memInStorage
  consistent := ⟨fun _ => ⟨rfl, rfl, rfl, rfl⟩, fun _ => rfl, fun _ => rfl, fun ho => absurd rfl ho, Nat.zero_le _⟩
  resIsExec _ := by
    have hs := accept_sameOperands s w c ((curJob c s).result s)
    rw [accept_res, accept_cur, curJob_congr hs h.legal, result_congr hs h.legal]
  noRequestIdle hi := by cases hi
  onTrack _ := onTrack_accept _ _ _ _
  inReset hl := by rw [accept_rstN, hr] at hl; cases hl

theorem inv_present {s : State} (h : Inv s) (w : Word) (c : Option Instr) :
    Inv (present s w c ((curJob c s).result s)) := by
  rcases present_cases s w c ((curJob c s).result s) with ⟨-, he⟩ | ⟨hr, -, he⟩ | ⟨⟨hr, -⟩, he⟩
  · rwa [he]
  · rw [he]; exact inv_dropWrite h hr
  · rw [he]; exact inv_accept h hr w c

theorem inv_writePlace {s t : State} (h : Inv s) (hr : s.rstN = true) {p : Place} {data : Word} {strb : Strobe}
    (ht : writePlace s p data strb = .next t) : Inv t := by
  rcases writePlace_cases s p data strb with he | he | he | ⟨-, he⟩ | ⟨hp, l, he⟩ | ⟨hp, l, he⟩ | ⟨hp, b, he⟩ | ⟨hp, b, he⟩ |
    ⟨w, c, r, he, rfl⟩ <;> obtain rfl := Host.Outcome.next.inj (he.symm.trans ht)
  · exact h
  · exact inv_writeStatus h hr data strb
  · exact inv_writeIe h hr data strb
  · exact inv_dropWrite h hr
  · exact .of_idle h.legal h.memCanonical h.memInStorage { h.consistent with } hp (h.noRequestIdle hp) (by simp [hr])
  · exact .of_idle h.legal h.memCanonical h.memInStorage { h.consistent with } hp (h.noRequestIdle hp) (by simp [hr])
  · exact inv_writeWindow h hr hp (fun _ => inStorage_iv) b data strb
  · exact inv_writeWindow h hr hp (fun _ => inStorage_in) b data strb
  · exact inv_present h w c

/-! ### The engine -/

/-- RES fits the output buffer. -/
theorem Inv.res_fits {s : State} (h : Inv s) (hb : s.phase = .busy) {y : Bytes} (hy : s.res = .output y) :
    y.length ≤ s.cfg.outCap := by
  rw [h.resIsExec hb] at hy
  cases hj : curJob s.cur s with
  | stop c => rw [hj] at hy; cases hy
  | work w =>
    rw [hj] at hy
    obtain ⟨i, -, hi⟩ := curJob_work hj
    exact (commandJob_output_length h.legal hi).2 y hy

theorem inv_complete {s : State} (h : Inv s) (hr : s.rstN = true) (hb : s.phase = .busy) : Inv (complete s) := by
  rcases complete_cases s with ⟨y, hy, he⟩ | ⟨c, -, he⟩ <;> rw [he]
  · have hfit := h.res_fits hb hy
    obtain ⟨-, -, -, hcap, -⟩ := (legal_iff _).1 h.legal
    refine .of_idle h.legal (Memory.wf_writeBytes h.memCanonical _ _)
      (mem_writeBytes_inStorage h (Nat.le_refl _) (by omega))
      ⟨(by simp), fun _ => rfl, fun _ => rfl, fun _ => rfl, ?_⟩ rfl rfl (by simp [hr])
    rw [completeOk_outLen, BitVec.toNat_ofNat]
    exact (Nat.mod_le _ _).trans hfit
  · exact .of_idle h.legal h.memCanonical h.memInStorage
      ⟨(by simp), (by simp), (c.cls_eq_none_iff).1, fun ho => absurd rfl ho, Nat.zero_le _⟩ rfl rfl (by simp [hr])

/-- The output block of an outstanding answer is as long as its input block. -/
theorem output_length_of_onTrack {s : State} {w : Work} {r : BlockRule} {q : BtRequest} (hl : s.cfg.legal = true)
    (h : OnTrack s) (hj : curJob s.cur s = .work w) (hr : w.rule = some r)
    (hb : s.blk < blockCount s.cfg.n w.input.length) (hp : s.btPending = some q) :
    (r.output s.chaining (blockAt s.cfg.n w.input s.blk) (answer s.bt s.cfg.n q)).length =
      (blockAt s.cfg.n w.input s.blk).length := by
  obtain ⟨-, hchain, -, hreq, -⟩ := (onTrack_rule hj hr).1 h
  obtain ⟨i, -, hji⟩ := curJob_work hj
  obtain ⟨full, hw, hc⟩ := (commandJob_work hl hji).widths r hr
  have hlt : s.blk < (blocks s.cfg.n w.input).length := by simpa using hb
  have hx := hc s.blk hlt
  rw [blocks_getElem] at hx
  have hcl : s.chaining.chain.length = s.cfg.n := by
    rw [hchain]; exact runBlocks_chain_width hw (by simp [initialChaining]) hc hlt
  have ha : (answer s.bt s.cfg.n q).length = s.cfg.n := by
    apply answer_length
    rw [(hreq q hp).2]
    exact hw.request _ _ hcl fun hf => hx.2 (.inr hf)
  exact hw.output _ _ _ hcl ha hx.1 fun hf => hx.2 (.inr hf)

/-- A move that goes on with the command keeps the invariant, if what it writes does. -/
theorem Inv.of_engineMove_busy {s : State} (h : Inv s) (hr : s.rstN = true) (hb : s.phase = .busy)
    (hb' : (engineMove s).phase = .busy) (hwf : Memory.wf (engineMove s).mem = true)
    (hst : ∀ c, c ∈ (engineMove s).mem → inStorage s.cfg c.1 = true)
    (hc : Consistent (engineMove s)) : Inv (engineMove s) := by
  obtain ⟨hcfg, -, hrst, -, -, -, -, -, -, -, hcur, hres, -⟩ := engineMove_frame s
  have hs := engineMove_sameOperands hb'
  exact {
    legal := by rw [hcfg]; exact h.legal
    memCanonical := hwf
    memInStorage := by rw [hcfg]; exact hst
    consistent := hc
    resIsExec := fun _ => by
      rw [hres, hcur, curJob_congr hs h.legal, result_congr hs h.legal]; exact h.resIsExec hb
    noRequestIdle := fun hi => by rw [hb'] at hi; cases hi
    onTrack := fun _ => onTrack_engineMove h.legal (h.onTrack hb) hb'
    inReset := fun hl => by rw [hrst, hr] at hl; cases hl }

/-- The blocks made so far and the next one fit the output buffer. -/
theorem block_fits {s : State} {w : Work} (hl : s.cfg.legal = true) (hj : curJob s.cur s = .work w)
    (hb : s.blk < blockCount s.cfg.n w.input.length) :
    s.blk * s.cfg.n + (blockAt s.cfg.n w.input s.blk).length ≤ s.cfg.outCap := by
  obtain ⟨i, -, hji⟩ := curJob_work hj
  obtain ⟨hn, -⟩ := (legal_iff _).1 hl
  have hlt := (lt_blockCount_iff (len := w.input.length) (i := s.blk) hn).1 hb
  have hfit := (commandJob_work hl hji).fits
  rw [blockAt_length]
  omega

theorem inv_engineMove {s : State} (h : Inv s) : Inv (engineMove s) := by
  rcases engineMove_cases s with ⟨-, he⟩ | ⟨hr, hb, ⟨he, -⟩ | ⟨w, r, hj, hw, hlt, ⟨-, he⟩ | ⟨q, hq, he⟩⟩⟩
  · rwa [he]
  · rw [he]; exact inv_complete h hr hb
  · refine h.of_engineMove_busy hr hb ?_ ?_ ?_ ?_ <;> rw [he]
    · exact hb
    · exact h.memCanonical
    · exact h.memInStorage
    · exact { h.consistent with }
  · refine h.of_engineMove_busy hr hb ?_ ?_ ?_ ?_ <;> rw [he]
    · exact hb
    · rw [takeAnswer_mem]; split
      · exact Memory.wf_writeBytes h.memCanonical _ _
      · exact h.memCanonical
    · rw [takeAnswer_mem]; split
      · refine mem_writeBytes_inStorage h (Nat.le_add_right _ _) ?_
        rw [output_length_of_onTrack h.legal (h.onTrack hb) hj hw hlt hq, Nat.add_assoc]
        exact Nat.add_le_add_left (block_fits h.legal hj hlt) _
      · exact h.memInStorage
    · exact { h.consistent with }

theorem inv_resetRegisters {s : State} (h : Inv s) (b : Bool) : Inv (resetRegisters s b) := by
  obtain ⟨-, hn, -⟩ := (legal_iff _).1 h.legal
  exact (resetRegisters_atReset s b hn).inv h.legal rfl

theorem inv_leaveReset {s : State} (h : Inv s) : Inv (leaveReset s) := by
  rcases leaveReset_cases s with ⟨-, he⟩ | ⟨-, he⟩ <;> rw [he]
  · exact h
  · exact inv_resetRegisters h true

theorem inv_busWrite {s t : State} (h : Inv s) {off : Nat} {data : Word} {strb : Strobe}
    (ht : busWrite s off data strb = .next t) : Inv t := by
  rcases busWrite_cases ht with ⟨-, rfl⟩ | ⟨hr, ht⟩
  · exact h
  · exact inv_writePlace (h.setBus s.readData (s.epoch + 1) s.inputs) hr ht

/-- A new transform while IDLE: the reset values do not depend on it. -/
theorem inv_rekey {s : State} (h : Inv s) (hp : s.phase = .idle) (b : BlockTransform) : Inv { s with bt := b } :=
  .of_idle h.legal h.memCanonical h.memInStorage { h.consistent with } hp (h.noRequestIdle hp)
    fun hr => { h.inReset hr with }

/-- Settles O31: by what a step can do, each operation keeps the invariant. -/
theorem stepKeepsTheInvariant : Obligations.StepKeepsTheInvariant := by
  unfold Obligations.StepKeepsTheInvariant
  intro s t h hstep
  rcases step_cases hstep with ⟨-, rfl⟩ | ⟨e, rest, -, he⟩
  · exact inv_engineMove h
  have h := h.setBus s.readData s.epoch rest
  rcases handleEvent_cases he with ⟨d, i, rfl⟩ | ⟨off, data, strb, hw⟩ | rfl | rfl | rfl | ⟨hp, b, rfl⟩
  · exact h.setBus d _ i
  · exact inv_busWrite h hw
  · exact inv_engineMove h
  · exact inv_resetRegisters h false
  · exact inv_leaveReset h
  · exact inv_rekey h hp b

/-- Settles O32: every register is at its reset value. -/
theorem resetMeetsTheInvariant : Obligations.ResetMeetsTheInvariant := by
  unfold Obligations.ResetMeetsTheInvariant
  intro c t hl
  exact (resetWith_atReset c t ((legal_iff c).1 hl).2.1).inv hl rfl

end Sys2Proof.Safety
end

section
/-! PROOFS. The statements of 10_state.md on commands: what an accept writes (R52), what a move of the engine may write (R53), what
stands after a completion (R55), and `irq` (R54). -/

namespace Sys2Proof.Safety

open Sys2Proof.Machine

/-! ## The accept (10_state.md R52, 43_facade.md R220) -/

theorem accept_operandsKept (s : State) (w : Word) (c : Option Instr) (r : Result) : OperandsKept s (accept s w c r) :=
  ⟨rfl, rfl, rfl, rfl, rfl, rfl, rfl, rfl, rfl, fun _ _ => rfl⟩

/-- Settles O8: a command taken is an accept of its word. -/
theorem acceptWritesItsRegistersOnly : Obligations.AcceptWritesItsRegistersOnly := by
  unfold Obligations.AcceptWritesItsRegistersOnly
  intro i s h
  exact ⟨_, exec_ready h i, rfl, rfl, rfl, rfl, rfl, rfl, rfl, rfl, rfl, rfl, rfl, rfl, accept_operandsKept s _ _ _,
    fun _ => rfl⟩

/-! ## What a move of the engine writes (10_state.md R53, 43_facade.md R228, R238) -/

theorem engineMove_operandsKept (s : State) : OperandsKept s (engineMove s) := by
  obtain ⟨hcfg, hbt, hrst, hie, hiv, hin, -, hbe, hrd, hinp, -, -, hmem⟩ := engineMove_frame s
  exact ⟨hcfg, hbt, hrst, hie, hiv, hin, hbe, hrd, hinp, hmem⟩

/-- `MemWrite` changes bytes of its own range only. -/
theorem writeBytes_changes_within {m : List Host.Cell} {off a : Nat} {y : Bytes}
    (h : Memory.read (Memory.writeBytes m off y) a ≠ Memory.read m a) : off ≤ a ∧ a < off + y.length := by
  by_contra hc
  exact h (Memory.read_writeBytes_other y m (by omega))

/-- A completion changes bytes of the output it commits only. -/
theorem complete_changes_within {s : State} {off : Nat} (h : Memory.read (complete s).mem off ≠ Memory.read s.mem off) :
    ∃ y, s.res = .output y ∧ outBase ≤ off ∧ off < outBase + y.length := by
  rcases complete_cases s with ⟨y, hy, he⟩ | ⟨c, -, he⟩ <;> rw [he] at h
  · exact ⟨y, hy, writeBytes_changes_within h⟩
  · exact absurd rfl h

/-- An answer changes bytes of its output block only, and only where the command's rule writes blocks. -/
theorem takeAnswer_changes_within {s : State} {w : Work} {r : BlockRule} {x : Bytes} {q : BtRequest} {off : Nat}
    (h : Memory.read (takeAnswer w r x q s).mem off ≠ Memory.read s.mem off) :
    w.writesBlocks = true ∧ outBase + s.blk * s.cfg.n ≤ off ∧
      off < outBase + s.blk * s.cfg.n + (r.output s.chaining x (answer s.bt s.cfg.n q)).length := by
  rw [takeAnswer_mem] at h
  split at h
  · next hw => exact ⟨hw, writeBytes_changes_within h⟩
  · exact absurd rfl h

/-- Settles O30, move by move: only an answer and a completion write, and an answer writes as many bytes as its input block has. -/
theorem engineMoveWritesOutputOnly : Obligations.EngineMoveWritesOutputOnly := by
  unfold Obligations.EngineMoveWritesOutputOnly
  intro s h
  obtain ⟨-, -, -, -, -, -, hlast, -⟩ := engineMove_frame s
  refine ⟨engineMove_operandsKept s, hlast, fun off hne => ?_⟩
  rcases engineMove_cases s with ⟨-, he⟩ | ⟨-, hb, ⟨he, -⟩ | ⟨w, r, hj, hw, hlt, ⟨-, he⟩ | ⟨q, hq, he⟩⟩⟩
  · exact absurd (by rw [he]) hne
  · rw [he] at hne
    obtain ⟨y, hy, hoff⟩ := complete_changes_within hne
    exact ⟨hb, .inr ⟨y, hy, he, hoff⟩⟩
  · exact absurd (by rw [he, issueRequest_mem]) hne
  · rw [he] at hne
    obtain ⟨hwb, hlo, hhi⟩ := takeAnswer_changes_within hne
    rw [output_length_of_onTrack h.legal (h.onTrack hb) hj hw hlt hq] at hhi
    exact ⟨hb, .inl ⟨w, hj, hwb, by simp [hq], hlo, hhi⟩⟩

/-! ## An error names its cause (60_exceptions.md R252) -/

/-- A check that fails gives its own cause; the rest gives what it gives. -/
theorem result_failIf_ne {bad : Bool} {c d : Cause} {rest : Job} {s : State} (hc : c ≠ d) (h : rest.result s ≠ .error d) :
    (Job.failIf bad c rest).result s ≠ .error d := by
  cases bad with
  | true => exact fun he => hc (Result.error.inj he)
  | false => exact h

/-- Going on with the padded message, the error is that of `pad` or of the work. -/
theorem result_ofPadded_ne {n : Nat} {p : Padding} {x : Bytes} {rest : Bytes → Work} {s : State}
    (h : ∀ y, (Job.work (rest y)).result s ≠ .error .none) : (Job.ofPadded (pad n p x) rest).result s ≠ .error .none := by
  cases hp : pad n p x with
  | output y => exact h y
  | error c =>
    obtain ⟨-, -, rfl⟩ := (pad_error_iff n p x c).1 hp
    exact nofun

theorem unpad_ne_error_none (n : Nat) (p : Padding) (b : Bytes) : unpad n p b ≠ .error .none :=
  fun h => nomatch unpad_error h

theorem blockEncrypt_result_ne (p : Padding) (iv : Bool) (r : BlockRule) (s : State) :
    (blockEncrypt p iv r s).result s ≠ .error .none :=
  result_failIf_ne nofun <| result_failIf_ne nofun <| result_failIf_ne nofun <| result_ofPadded_ne fun _ => nofun

theorem blockDecrypt_result_ne (p : Padding) (iv : Bool) (r : BlockRule) (s : State) :
    (blockDecrypt p iv r s).result s ≠ .error .none :=
  result_failIf_ne nofun <| result_failIf_ne nofun <| result_failIf_ne nofun <| result_failIf_ne nofun <|
    unpad_ne_error_none _ _ _

theorem streamCrypt_result_ne (r : BlockRule) (s : State) : (streamCrypt r s).result s ≠ .error .none :=
  result_failIf_ne nofun <| result_failIf_ne nofun nofun

/-- No command's result is an error without a cause. -/
theorem commandJob_result_ne (i : Instr) (s : State) : (commandJob i s).result s ≠ .error .none := by
  cases i with
  | encEcb p | encCbc p | encPcbc p => exact blockEncrypt_result_ne p _ _ s
  | decEcb p | decCbc p | decPcbc p => exact blockDecrypt_result_ne p _ _ s
  | encCfb p | encOfb p | encCtr p | decCfb p | decOfb p | decCtr p => exact streamCrypt_result_ne _ s
  | pad p => exact result_failIf_ne nofun <| result_failIf_ne nofun <| result_ofPadded_ne fun _ => nofun
  | unpad p =>
    exact result_failIf_ne nofun <| result_failIf_ne nofun <| result_failIf_ne nofun <| unpad_ne_error_none _ _ _

/-- RES is never an error without a cause. -/
theorem Inv.res_ne_error_none {s : State} (h : Inv s) (hb : s.phase = .busy) : s.res ≠ .error .none := by
  rw [h.resIsExec hb]
  cases s.cur with
  | none => exact nofun
  | some i => exact commandJob_result_ne i s

/-! ## After a completion (10_state.md R55) -/

/-- A completion leaves OK, or an error with a class. -/
theorem complete_ok_iff {s : State} (h : s.res ≠ .error .none) :
    (complete s).status.ok = true ↔ (complete s).error.cls = .none := by
  rcases complete_cases s with ⟨y, -, he⟩ | ⟨c, hc, he⟩ <;> rw [he]
  · simp
  · have hcls : c.cls ≠ .none := fun h0 => h (by rw [hc, (c.cls_eq_none_iff).1 h0])
    simp [hcls]

/-- A host write that leaves MOCE IDLE keeps the result it shows. -/
theorem busWrite_keeps_result {s t : State} {off : Nat} {data : Word} {strb : Strobe}
    (h : busWrite s off data strb = .next t) (ht : t.phase = .idle) :
    t.status.ok = s.status.ok ∧ t.error = s.error ∧ t.outLen = s.outLen := by
  rcases busWrite_cases h with ⟨-, rfl⟩ | ⟨-, h⟩
  · exact ⟨rfl, rfl, rfl⟩
  rcases writePlace_cases _ _ _ _ with he | he | he | ⟨-, he⟩ | ⟨-, l, he⟩ | ⟨-, l, he⟩ | ⟨-, b, he⟩ | ⟨-, b, he⟩ |
    ⟨w, c, r, he, -⟩ <;> obtain rfl := Host.Outcome.next.inj (he.symm.trans h)
  case inr.inr.inr.inl => simp only [writeIe_status, writeIe_error, writeIe_outLen, and_self]
  case inr.inr.inr.inr.inr.inr.inr.inr.inr =>
    rcases present_cases { s with epoch := s.epoch + 1 } w c r with ⟨-, he⟩ | ⟨-, -, he⟩ | ⟨-, he⟩
    · rw [he]; exact ⟨rfl, rfl, rfl⟩
    · rw [he]; exact ⟨rfl, rfl, rfl⟩
    · rw [he] at ht; cases ht
  all_goals exact ⟨rfl, rfl, rfl⟩

theorem engineMove_of_idle {s : State} (h : s.phase = .idle) : engineMove s = s := by simp [engineMove, h]

/-- An event that finds and leaves MOCE IDLE and out of reset keeps the result it shows. -/
theorem handleEvent_keeps_result {e : Event} {s t : State} (h : handleEvent e s = .next t) (hs : Ready s) (ht : Ready t) :
    t.status.ok = s.status.ok ∧ t.error = s.error ∧ t.outLen = s.outLen := by
  rcases handleEvent_cases h with ⟨d, i, rfl⟩ | ⟨off, data, strb, hw⟩ | rfl | rfl | rfl | ⟨-, b, rfl⟩
  · exact ⟨rfl, rfl, rfl⟩
  · exact busWrite_keeps_result hw ht.2
  · rw [engineMove_of_idle hs.2]; exact ⟨rfl, rfl, rfl⟩
  · exact absurd ht.1 nofun
  · rw [leaveReset, if_pos hs.1]; exact ⟨rfl, rfl, rfl⟩
  · exact ⟨rfl, rfl, rfl⟩

/-- Settles O33: a completion commits an output or an error with a cause; between IDLE states out of reset only an accept or a
completion could change what is shown. -/
theorem exactlyOneOfOkAndErrorAfterCompletion : Obligations.ExactlyOneOfOkAndErrorAfterCompletion := by
  unfold Obligations.ExactlyOneOfOkAndErrorAfterCompletion
  refine ⟨fun s h hb hi => ?_, fun s t hp hstep ht htr hsr => ?_⟩
  · rw [engineMove_eq_complete_of_ends hb hi]
    exact complete_ok_iff (h.res_ne_error_none hb)
  · rcases step_cases hstep with ⟨-, rfl⟩ | ⟨e, rest, -, he⟩
    · rw [engineMove_of_idle hp]; exact ⟨rfl, rfl, rfl⟩
    · exact handleEvent_keeps_result (s := { s with inputs := rest }) he ⟨hsr, hp⟩ ⟨htr, ht⟩

/-! ## The interrupt output (10_state.md R54) -/

@[simp] theorem complete_rstN (s : State) : (complete s).rstN = s.rstN := by
  rcases complete_cases s with ⟨y, -, h⟩ | ⟨c, -, h⟩ <;> rw [h] <;> rfl

@[simp] theorem complete_ie (s : State) : (complete s).ie = s.ie := by
  rcases complete_cases s with ⟨y, -, h⟩ | ⟨c, -, h⟩ <;> rw [h] <;> rfl

@[simp] theorem complete_done (s : State) : (complete s).status.done = true := by
  rcases complete_cases s with ⟨y, -, h⟩ | ⟨c, -, h⟩ <;> rw [h] <;> rfl

/-- Out of reset `irq` is the OR of the enabled pending bits. -/
theorem irq_iff {s : State} (h : s.rstN = true) :
    s.irq = true ↔ (s.status.done = true ∧ s.ie.doneIe = true) ∨ (s.status.busyErr = true ∧ s.ie.busyErrIe = true) := by
  simp [State.irq, h]

/-- Settles O48: by the formula of `irq`, with what a completion, an accept and a reset leave in STATUS. -/
theorem irqFollowsStatusAndIe : Obligations.IrqFollowsStatusAndIe := by
  unfold Obligations.IrqFollowsStatusAndIe
  refine ⟨fun s => irq_iff, fun s hr hie => ?_, fun i s t hs he hbe => ?_, fun c t => rfl⟩
  · exact (irq_iff (by simpa)).2 (.inl ⟨complete_done s, by simpa⟩)
  · obtain rfl := Host.Outcome.next.inj ((exec_ready hs i).symm.trans he)
    simp [State.irq, hbe]

end Sys2Proof.Safety
end

section
/-! PROOFS. The statements of 10_state.md on the register bus: the register map (R33, R37), the registers one by one (R34 to R46), and
the IV and IN windows (R48, R49). The map is read once, as lemmas on `place`; what an access does then follows from its place. -/

namespace Sys2Proof.Machine

open Sys2Proof.Safety

/-! ## The register map (10_state.md R33) -/

theorem wordOffset_of_mod {off : Nat} (h : off % 4 = 0) : wordOffset off = off := by unfold wordOffset; omega

theorem place_iv {w : Nat} (h1 : 0x100 ≤ w) (h2 : w < 0x200) : place w = .iv (w - 0x100) := by
  unfold place
  iterate 11 rw [if_neg (by omega)]
  rw [if_pos ⟨h1, h2⟩]

theorem place_inp {w : Nat} (h1 : 0x10000 ≤ w) (h2 : w < 0x20000) : place w = .inp (w - 0x10000) := by
  unfold place
  iterate 12 rw [if_neg (by omega)]
  rw [if_pos ⟨h1, h2⟩]

theorem place_reserved {w : Nat} (h : 0x00C ≤ w ∧ w < 0x010 ∨ 0x030 ≤ w ∧ w < 0x100 ∨ 0x200 ≤ w ∧ w < 0x10000 ∨ 0x30000 ≤ w)
    (h4 : w % 4 = 0) : place w = .reserved := by
  unfold place
  iterate 14 rw [if_neg (by omega)]

/-- Out of reset a read returns what its place holds. -/
theorem busRead_reg {s : State} {off : Nat} {r : Reg} (hr : s.rstN = true) (hp : place (wordOffset off) = .reg r) :
    busRead s off = readReg s r := by simp [busRead, hr, hp]

theorem busRead_iv {s : State} {off b : Nat} (hr : s.rstN = true) (hp : place (wordOffset off) = .iv b) :
    busRead s off = ofLanes fun j => readIv s (b + j) := by simp [busRead, hr, hp]

theorem busRead_inp {s : State} {off b : Nat} (hr : s.rstN = true) (hp : place (wordOffset off) = .inp b) :
    busRead s off = ofLanes fun j => readIn s (b + j) := by simp [busRead, hr, hp]

theorem busRead_reserved {s : State} {off : Nat} (hr : s.rstN = true) (hp : place (wordOffset off) = .reserved) :
    busRead s off = 0 := by simp [busRead, hr, hp]

/-- Out of reset a write does what its place asks, with the stamp of host reads one up. -/
theorem busWrite_place {s : State} {off : Nat} {p : Place} (hr : s.rstN = true) (hp : place (wordOffset off) = p)
    (data : Word) (strb : Strobe) :
    busWrite s off data strb = writePlace { s with epoch := s.epoch + 1 } p data strb := by
  simp [busWrite, hr, hp]

/-! ## The registers (10_state.md R34 to R46) -/

/-- The strobed lanes of a merge are those of the data, the others those of the register. -/
theorem lane_mergeLanes (old data : Word) (strb : Strobe) {j : Nat} (h : j < 4) :
    lane (mergeLanes old data strb) j = if strb.getLsbD j then lane data j else lane old j := lane_ofLanes _ h

/-- An operand write while IDLE is performed. -/
theorem operandWrite_of_idle {s : State} (h : s.phase = .idle) (u : State) : operandWrite s u = u := by
  simp [operandWrite, h]

/-- An operand write while BUSY is dropped, 43_facade.md R233. -/
theorem operandWrite_of_busy {s : State} (h : s.phase = .busy) (u : State) : operandWrite s u = dropWrite s := by
  simp [operandWrite, h]

theorem writeIe_eq (s : State) (w : Word) (strb : Strobe) : writeIe s w strb =
    { s with ie := if strb.getLsbD 0 then { doneIe := w.getLsbD 0, busyErrIe := w.getLsbD 1 } else s.ie } := by
  unfold writeIe
  split <;> rfl

/-- Settles O38, register by register: while IDLE the write is performed, lane by lane. -/
theorem strobedLanesOfRegistersChange : Obligations.StrobedLanesOfRegistersChange := by
  unfold Obligations.StrobedLanesOfRegistersChange
  intro s data strb ⟨hr, hi⟩
  have hi : ({ s with epoch := s.epoch + 1 } : State).phase = .idle := hi
  refine ⟨⟨{ s with ivLen := mergeLanes s.ivLen data strb, epoch := s.epoch + 1 }, ?ivLen, rfl,
      fun j hj => lane_mergeLanes s.ivLen data strb hj⟩,
    ⟨{ s with inLen := mergeLanes s.inLen data strb, epoch := s.epoch + 1 }, ?inLen, rfl,
      fun j hj => lane_mergeLanes s.inLen data strb hj⟩,
    ⟨_, (busWrite_place hr rfl data strb).trans (congrArg Host.Outcome.next (writeIe_eq _ data strb)), rfl, rfl⟩⟩
  case ivLen => exact (busWrite_place hr rfl data strb).trans (congrArg Host.Outcome.next (operandWrite_of_idle hi _))
  case inLen => exact (busWrite_place hr rfl data strb).trans (congrArg Host.Outcome.next (operandWrite_of_idle hi _))

/-- Settles O42: the write to STATUS is `writeStatus`, whose bits are these. -/
theorem statusIsWriteOneToClear : Obligations.StatusIsWriteOneToClear := by
  unfold Obligations.StatusIsWriteOneToClear
  intro s w strb hr
  refine ⟨_, busWrite_place hr rfl w strb, rfl, rfl, ?_, ?_⟩ <;> simp [-not_and, not_and_or]

/-- Settles O44: each offset has its register; a read-only one is not written. -/
theorem registersReadAndReadOnlyOnesIgnoreWrites : Obligations.RegistersReadAndReadOnlyOnesIgnoreWrites := by
  unfold Obligations.RegistersReadAndReadOnlyOnesIgnoreWrites
  intro s hr hl
  obtain ⟨-, hn, -, hcap, -⟩ := (legal_iff _).1 hl
  refine ⟨?n, ?cap, busRead_reg (r := .version) hr rfl, busRead_reg (r := .cmd) hr rfl, busRead_reg (r := .ivLen) hr rfl,
    busRead_reg (r := .inLen) hr rfl, busRead_reg (r := .outLen) hr rfl, busRead_reg (r := .lastCmd) hr rfl,
    fun off data strb hoff => ?write⟩
  case n => rw [busRead_reg (r := .blockBytes) hr rfl]; exact Nat.mod_eq_of_lt (by omega)
  case cap => rw [busRead_reg (r := .inCap) hr rfl]; exact Nat.mod_eq_of_lt (by omega)
  case write =>
    simp only [List.mem_cons, List.not_mem_nil, or_false] at hoff
    rcases hoff with rfl | rfl | rfl | rfl | rfl | rfl <;> exact busWrite_place hr rfl data strb

/-! ## STATUS, ERROR and IE as words (10_state.md R39, R41, R42) -/

theorem statusWord_getLsbD (s : State) (k : Nat) : (statusWord s).getLsbD k =
    ((k == 0 && s.phase == .busy) || (k == 1 && s.status.done) || (k == 2 && s.status.ok) || (k == 3 && s.status.busyErr)) := by
  change BitVec.getLsbD (w := 28 + 1 + 1 + 1 + 1) (_ ++ _) k = _
  simp only [BitVec.getLsbD_append, BitVec.getLsbD_ofBool, BitVec.getLsbD_zero]
  match k with
  | 0 | 1 | 2 | 3 | k + 4 => simp

theorem ieWord_getLsbD (s : State) (k : Nat) :
    (ieWord s).getLsbD k = ((k == 0 && s.ie.doneIe) || (k == 1 && s.ie.busyErrIe)) := by
  change BitVec.getLsbD (w := 30 + 1 + 1) (_ ++ _) k = _
  simp only [BitVec.getLsbD_append, BitVec.getLsbD_ofBool, BitVec.getLsbD_zero]
  match k with
  | 0 | 1 | k + 2 => simp

theorem errorWord_cls (s : State) : (errorWord s).extractLsb' 0 2 = s.error.cls.code :=
  BitVec.extractLsb'_append_eq_right (w := 16 + 8 + 6)

theorem errorWord_low_zeros (s : State) : (errorWord s).extractLsb' 2 6 = 0#6 := by
  change BitVec.extractLsb' (n := 16 + 8 + 6 + 2) 2 6 (_ ++ _) = _
  rw [BitVec.extractLsb'_append_eq_of_le (by omega)]
  exact BitVec.extractLsb'_append_eq_right

theorem errorWord_cause (s : State) : (errorWord s).extractLsb' 8 8 = s.error.cause.code := by
  change BitVec.extractLsb' (n := 16 + 8 + 6 + 2) 8 8 (_ ++ _) = _
  rw [BitVec.extractLsb'_append_eq_of_le (by omega), BitVec.extractLsb'_append_eq_of_le (by omega)]
  exact BitVec.extractLsb'_append_eq_right

theorem errorWord_high_zeros (s : State) : (errorWord s).extractLsb' 16 16 = 0#16 := by
  change BitVec.extractLsb' (n := 16 + 8 + 6 + 2) 16 16 (_ ++ _) = _
  rw [BitVec.extractLsb'_append_eq_of_le (by omega), BitVec.extractLsb'_append_eq_of_le (by omega)]
  exact BitVec.extractLsb'_append_eq_left

/-- After a completion with an error ERROR reads its cause and its class. -/
theorem errorWord_complete {s : State} {c : Cause} (h : s.res = .error c) :
    errorWord (complete s) = 0#16 ++ c.code ++ 0#6 ++ c.cls.code := by
  rw [complete, h]
  rfl

/-- Settles O43, field by field: each register reads as its word, which holds its fields and nothing else. -/
theorem flagRegistersReadTheirFields : Obligations.FlagRegistersReadTheirFields := by
  unfold Obligations.FlagRegistersReadTheirFields
  intro s hr
  have herr : busRead s 0x018 = errorWord s := busRead_reg (r := .error) hr rfl
  rw [herr, busRead_reg (r := .status) hr rfl, busRead_reg (r := .ie) hr rfl]
  refine ⟨statusWord_getLsbD s, (errorWord_cls s).trans ?cls, errorWord_low_zeros s, (errorWord_cause s).trans ?cause,
    errorWord_high_zeros s, ieWord_getLsbD s, fun c hc => ?word⟩
  case cls => cases s.error.cls <;> rfl
  case cause => cases s.error.cause <;> rfl
  case word =>
    rw [busRead_reg (s := complete s) (r := .error) (by simpa) rfl, readReg, errorWord_complete hc]
    cases c <;> rfl

/-! ## The IV and IN windows (10_state.md R48, R49, R37) -/

/-- The word of the IV window that an offset lies in. -/
theorem place_iv_of_offset {off : Nat} (h1 : 0x100 ≤ off) (h2 : off < 0x200) :
    place (wordOffset off) = .iv (wordOffset off - 0x100) := by
  unfold wordOffset
  exact place_iv (by omega) (by omega)

/-- The word of the IN window that an offset lies in. -/
theorem place_inp_of_offset {off : Nat} (h1 : 0x10000 ≤ off) (h2 : off < 0x20000) :
    place (wordOffset off) = .inp (wordOffset off - 0x10000) := by
  unfold wordOffset
  exact place_inp (by omega) (by omega)

/-- A byte that memory holds is the byte stored. -/
theorem storedByte_of_read {s : State} {off : Nat} {v : Byte} (h : Memory.read s.mem off = some v) : storedByte s off = v := by
  rw [storedByte, h, Option.getD_some]

theorem ivBytes_getElem? {s : State} {j : Nat} (h : j < s.cfg.n) : (ivBytes s)[j]? = some (storedByte s (ivBase + j)) := by
  simp [ivBytes, h]

/-- A byte that memory holds is the byte of the message. -/
theorem message_getElem?_of_read {s : State} {j : Nat} {v : Byte} (hj : j < s.inLen.toNat)
    (h : Memory.read s.mem (inBase + j) = some v) : (message s)[j]? = some v := by
  have hlt : j < (message s).length := by simpa
  rw [List.getElem?_eq_getElem hlt, message_getElem, h, Option.getD_some]

/-- Lane `j` of a read of word `w` of the IV window. -/
theorem lane_busRead_iv {s : State} (hr : s.rstN = true) {w j : Nat} (hw : 4 * w < 0x100) (hj : j < 4) :
    lane (busRead s (0x100 + 4 * w)) j = readIv s (4 * w + j) := by
  have hp := place_iv_of_offset (off := 0x100 + 4 * w) (by omega) (by omega)
  rw [wordOffset_of_mod (by omega), Nat.add_sub_cancel_left] at hp
  rw [busRead_iv hr (by rwa [wordOffset_of_mod (by omega)]), lane_ofLanes _ hj]

/-- Lane `j` of a read of word `w` of the IN window. -/
theorem lane_busRead_inp {s : State} (hr : s.rstN = true) {w j : Nat} (hw : 4 * w < 0x10000) (hj : j < 4) :
    lane (busRead s (0x10000 + 4 * w)) j = readIn s (4 * w + j) := by
  have hp := place_inp_of_offset (off := 0x10000 + 4 * w) (by omega) (by omega)
  rw [wordOffset_of_mod (by omega), Nat.add_sub_cancel_left] at hp
  rw [busRead_inp hr (by rwa [wordOffset_of_mod (by omega)]), lane_ofLanes _ hj]

/-- Settles O40: each lane is its window byte, which is the stored byte that the operands are made of. -/
theorem windowReadsAreLittleEndian : Obligations.WindowReadsAreLittleEndian := by
  unfold Obligations.WindowReadsAreLittleEndian
  intro s w j hr hj
  refine ⟨fun hw => lane_busRead_iv hr hw hj, fun hw => lane_busRead_inp hr hw hj, fun v hw hn hv => ?iv,
    fun v hw hcap hv => ?inp⟩
  case iv =>
    rw [lane_busRead_iv hr hw hj, readIv, if_pos hn, ivBytes_getElem? hn, storedByte_of_read hv]
    exact ⟨rfl, rfl⟩
  case inp =>
    rw [lane_busRead_inp hr hw hj, readIn, if_pos hcap, storedByte_of_read hv]
    exact ⟨rfl, fun hlen => message_getElem?_of_read hlen hv⟩

/-- A write that reaches no byte of the storage is ignored, BUSY or not, 20_memory.md R77. -/
theorem windowWrite_of_not_reaches {s : State} {base b limit : Nat} {strb : Strobe} (h : ¬reachesStorage b limit strb = true)
    (data : Word) : windowWrite s base b limit data strb = s := by
  rw [windowWrite, if_neg h]

/-- An operand write to a window while BUSY is dropped, 43_facade.md R233. -/
theorem windowWrite_of_busy {s : State} {base b limit : Nat} {strb : Strobe} (h : reachesStorage b limit strb = true)
    (hb : s.phase = .busy) (data : Word) : windowWrite s base b limit data strb = dropWrite s := by
  rw [windowWrite, if_pos h, operandWrite_of_busy hb]

/-- A word that begins beyond the storage is not reached. -/
theorem not_reachesStorage_of_le {b limit : Nat} (h : limit ≤ b) (strb : Strobe) : ¬reachesStorage b limit strb = true := by
  rw [reachesStorage_iff]
  omega

/-- A write that strobes some lanes, all of them beyond the storage, does not reach it. -/
theorem not_reachesStorage_of_lanes {b limit : Nat} {strb : Strobe} (hs : ∃ j, j < 4 ∧ strb.getLsbD j = true)
    (h : ∀ j, j < 4 → strb.getLsbD j = true → limit ≤ b + j) : ¬reachesStorage b limit strb = true := by
  rw [reachesStorage_iff]
  rintro ⟨-, rfl | ⟨j, hj, hstrb, hlt⟩⟩
  · obtain ⟨j, -, hj⟩ := hs
    simp at hj
  · have := h j hj hstrb
    omega

/-- Bytes beyond the storage read 0. -/
theorem ofLanes_zero {f : Nat → Byte} (h : ∀ j, f j = 0) : ofLanes f = 0 := by
  rw [funext h]; rfl

theorem busWrite_iv {s : State} {off : Nat} (hr : s.rstN = true) (h1 : 0x100 ≤ off) (h2 : off < 0x200) (data : Word)
    (strb : Strobe) : busWrite s off data strb =
      .next (windowWrite { s with epoch := s.epoch + 1 } ivBase (wordOffset off - 0x100) s.cfg.n data strb) :=
  busWrite_place hr (place_iv_of_offset h1 h2) data strb

theorem busWrite_inp {s : State} {off : Nat} (hr : s.rstN = true) (h1 : 0x10000 ≤ off) (h2 : off < 0x20000) (data : Word)
    (strb : Strobe) : busWrite s off data strb =
      .next (windowWrite { s with epoch := s.epoch + 1 } inBase (wordOffset off - 0x10000) s.cfg.inCap data strb) :=
  busWrite_place hr (place_inp_of_offset h1 h2) data strb

/-- Settles O45: reserved offsets have no place; window words and lanes beyond the storage are not reached. -/
theorem offsetsWithoutStorageAreInert : Obligations.OffsetsWithoutStorageAreInert := by
  unfold Obligations.OffsetsWithoutStorageAreInert
  intro s off data strb hr hl
  have reserved : place (wordOffset off) = .reserved →
      busRead s off = 0 ∧ busWrite s off data strb = .next { s with epoch := s.epoch + 1 } := fun hp =>
    ⟨busRead_reserved hr hp, busWrite_place hr hp data strb⟩
  have inert : ∀ {base b limit}, ¬reachesStorage b limit strb = true →
      (.next (windowWrite { s with epoch := s.epoch + 1 } base b limit data strb) : Outcome) =
        .next { s with epoch := s.epoch + 1 } := fun h => congrArg _ (windowWrite_of_not_reaches h data)
  refine ⟨fun h => ?_, fun hs h => ?_⟩
  · rcases h with h | h | h | h | ⟨h1, h2⟩ | ⟨h1, h2⟩
    case inr.inr.inr.inr.inl =>
      have hlo : 0x100 ≤ off := by unfold wordOffset at h1; omega
      rw [busRead_iv hr (place_iv_of_offset hlo h2), busWrite_iv hr hlo h2]
      exact ⟨ofLanes_zero fun j => if_neg (by omega), inert (not_reachesStorage_of_le (by omega) strb)⟩
    case inr.inr.inr.inr.inr =>
      have hlo : 0x10000 ≤ off := by unfold wordOffset at h1; omega
      rw [busRead_inp hr (place_inp_of_offset hlo h2), busWrite_inp hr hlo h2]
      exact ⟨ofLanes_zero fun j => if_neg (by omega), inert (not_reachesStorage_of_le (by omega) strb)⟩
    all_goals exact reserved (place_reserved (by unfold wordOffset; omega) (by unfold wordOffset; omega))
  · rcases h with ⟨h1, h2, h⟩ | ⟨h1, h2, h⟩
    · rw [busWrite_iv hr h1 h2]
      exact inert (not_reachesStorage_of_lanes hs fun j hj hstrb => by have := h j hj hstrb; omega)
    · rw [busWrite_inp hr h1 h2]
      exact inert (not_reachesStorage_of_lanes hs fun j hj hstrb => by have := h j hj hstrb; omega)

/-- Settles O47: an operand write while BUSY is dropped, wherever its register or storage stands; STATUS and IE take theirs. -/
theorem operandWritesWhileBusyAreDropped : Obligations.OperandWritesWhileBusyAreDropped := by
  unfold Obligations.OperandWritesWhileBusyAreDropped
  intro s off data strb hr hb hl
  have hb : ({ s with epoch := s.epoch + 1 } : State).phase = .busy := hb
  obtain ⟨-, hn, -, hcap, -⟩ := (legal_iff _).1 hl
  refine ⟨fun h => ?_, ⟨_, busWrite_place hr rfl data strb, rfl, rfl⟩,
    ⟨_, (busWrite_place hr rfl data strb).trans (congrArg Host.Outcome.next (writeIe_eq _ data strb)), rfl, rfl⟩⟩
  have word : ∀ {base limit}, base ≤ off → base % 4 = 0 → wordOffset off < base + limit →
      (strb = 0#4 ∨ ∃ j, j < 4 ∧ strb.getLsbD j = true ∧ wordOffset off + j < base + limit) →
      reachesStorage (wordOffset off - base) limit strb = true := by
    intro base limit hlo h4 hlt hs
    have hbase : base ≤ wordOffset off := by unfold wordOffset; omega
    rw [reachesStorage_iff]
    exact ⟨by omega, hs.imp_right fun ⟨j, hj, hstrb, hin⟩ => ⟨j, hj, hstrb, by omega⟩⟩
  rcases h with rfl | rfl | ⟨hlo, hlt, hs⟩ | ⟨hlo, hlt, hs⟩
  · exact (busWrite_place hr rfl data strb).trans (congrArg Host.Outcome.next (operandWrite_of_busy hb _))
  · exact (busWrite_place hr rfl data strb).trans (congrArg Host.Outcome.next (operandWrite_of_busy hb _))
  · rw [busWrite_iv hr hlo (by unfold wordOffset at hlt; omega)]
    exact congrArg _ (windowWrite_of_busy (word hlo rfl hlt hs) hb data)
  · rw [busWrite_inp hr hlo (by unfold wordOffset at hlt; omega)]
    exact congrArg _ (windowWrite_of_busy (word hlo rfl hlt hs) hb data)

end Sys2Proof.Machine
end

section
/-! PROOFS. Two ENC commands over two parts of a message (70_reset_and_hazards.md R298, 10_state.md R53). A mode carries one block from
each block to the next: what it feeds to the next block fixes the output over the rest, and a whole output block fixes what was fed. -/

namespace Sys2Proof.Machine

open Sys2Proof.Safety

/-! ## ENC whose checks pass (41_block_modes.md R160, 42_stream_modes.md R190) -/

/-- The rule of ENC in a mode. -/
def encRule : Mode → BlockRule
  | .ecb => ecbEncRule
  | .cbc => cbcEncRule
  | .pcbc => pcbcEncRule
  | .cfb => cfbEncRule
  | .ofb => ofbRule
  | .ctr => ctrRule

/-- What ENC in a mode appends to a message of a given length: the padding of a block-aligned mode. -/
def encTail (n : Nat) (p : Padding) (len : Nat) : Mode → Bytes
  | .ecb | .cbc | .pcbc => paddingBytes (padCount n len) p
  | .cfb | .ofb | .ctr => []

/-- The bytes that ENC in a mode cuts into blocks. -/
def encInput (m : Mode) (p : Padding) (s : State) : Bytes := message s ++ encTail s.cfg.n p s.inLen.toNat m

/-- The output of ENC in a mode. -/
def encOutput (m : Mode) (p : Padding) (s : State) : Bytes :=
  (runBlocks s.bt s.cfg.n (encRule m) (initialChaining s) (blocks s.cfg.n (encInput m p s))).output

/-- Check 4 has passed. -/
theorem ivLengthWrong_of_runs {i : Instr} {s : State} (h : Runs i s) (hi : needsIv i = true) : ivLengthWrong s = false := by
  obtain ⟨-, -, h4, -⟩ := (firstFailing_eq_none_iff i s).1 h.checks
  simpa [ivLengthWrong] using h4 hi

/-- The work of a block-aligned ENC whose checks pass. -/
theorem blockEncrypt_of_runs {i : Instr} {p : Padding} {s : State} (h : Runs i s) (hp : paddingUsed i = some p)
    (ha : p = .none → needsAlignment i = true) (r : BlockRule) :
    blockEncrypt p (needsIv i) r s = .work
      { input := message s ++ paddingBytes (padCount s.cfg.n s.inLen.toNat) p
        rule := some r, writesBlocks := true, finish := .output } := by
  have hiv : (needsIv i && ivLengthWrong s) = false := by
    cases hn : needsIv i with
    | false => rfl
    | true => exact ivLengthWrong_of_runs h hn
  have hpad : p = .none → (message s).length % s.cfg.n = 0 := fun hnone => by
    rw [message_length]; exact aligned_of_runs h (ha hnone)
  rw [blockEncrypt, schemeTooWide_of_runs h hp, exceedsCapacity_of_runs h, hiv, pad_eq_output hpad, message_length]
  rfl

/-- The work of a stream-like command whose checks pass. -/
theorem streamCrypt_of_runs {i : Instr} {s : State} (h : Runs i s) (hi : needsIv i = true) (r : BlockRule) :
    streamCrypt r s = .work { input := message s, rule := some r, writesBlocks := true, finish := .output } := by
  rw [streamCrypt, exceedsCapacity_of_runs h, ivLengthWrong_of_runs h hi]
  rfl

/-- The work of ENC whose checks pass, in every mode. -/
theorem commandJob_enc_of_runs {m : Mode} {p : Padding} {s : State} (h : Runs (Instr.enc m p) s) :
    commandJob (Instr.enc m p) s = .work
      { input := encInput m p s, rule := some (encRule m), writesBlocks := true, finish := .output } := by
  have stream : message s = message s ++ [] := (List.append_nil _).symm
  cases m with
  | ecb | cbc | pcbc => exact blockEncrypt_of_runs h rfl (fun hp => by subst hp; rfl) _
  | cfb | ofb | ctr =>
    refine (streamCrypt_of_runs h rfl _).trans ?_
    rw [stream]; rfl

/-- ENC whose checks pass answers a next state with its output. -/
theorem exec_enc_of_runs {m : Mode} {p : Padding} {s : State} (h : Runs (Instr.enc m p) s) :
    ∃ t, exec (Instr.enc m p) s = .next t ∧ t.res = .output (encOutput m p s) :=
  ⟨_, exec_ready h.ready _, by rw [accept_res, commandJob_enc_of_runs h]; rfl⟩

/-- The blocks of ENC suit the widths of its rule, and its output is as long as its input. -/
theorem enc_widths {m : Mode} {p : Padding} {s : State} (h : Runs (Instr.enc m p) s) :
    (∃ full, (encRule m).Widths s.cfg.n full ∧ Cut s.cfg.n full (blocks s.cfg.n (encInput m p s))) ∧
    (encOutput m p s).length = (encInput m p s).length :=
  ⟨(commandJob_work h.legal (commandJob_enc_of_runs h)).widths _ rfl,
    (commandJob_output_length h.legal (commandJob_enc_of_runs h)).1⟩

/-! ## A message in two parts -/

/-- The blocks of whole blocks followed by more bytes. -/
theorem blocks_append {n : Nat} (hn : 1 ≤ n) {x : Bytes} (hx : x.length % n = 0) (y : Bytes) :
    blocks n (x ++ y) = blocks n x ++ blocks n y := by
  obtain ⟨k, hk⟩ := Nat.dvd_of_mod_eq_zero hx
  have hcount : blockCount n (x ++ y).length = k + blockCount n y.length := by
    rw [List.length_append, hk, blockCount, blockCount, Nat.add_assoc, Nat.add_sub_assoc (by omega),
      Nat.mul_add_div (by omega)]
  have hfst : blockCount n x.length = k := by rw [blockCount_of_aligned hn hx, hk, Nat.mul_div_cancel_left _ (by omega)]
  have hlow : ∀ i ∈ List.range k, blockAt n (x ++ y) i = blockAt n x i := fun i hi => by
    have hle : (i + 1) * n ≤ x.length := by
      rw [hk, Nat.mul_comm n]; exact Nat.mul_le_mul_right n (List.mem_range.1 hi)
    rw [Nat.succ_mul] at hle
    rw [blockAt, List.drop_append_of_le_length (by omega), List.take_append_of_le_length (by rw [List.length_drop]; omega),
      blockAt]
  have hhigh : ∀ i, blockAt n (x ++ y) (k + i) = blockAt n y i := fun i => by
    rw [blockAt, Nat.add_mul, ← List.drop_drop, List.drop_left' (by rw [hk, Nat.mul_comm]), blockAt]
  rw [blocks, hcount, List.range_add, List.map_append, List.map_map, List.map_congr_left hlow, blocks, hfst, blocks]
  exact congrArg _ (List.map_congr_left fun i _ => hhigh i)

/-- A sequence of N bytes or more begins with a whole block. -/
theorem blocks_eq_cons {n : Nat} (hn : 1 ≤ n) {x : Bytes} (hx : n ≤ x.length) :
    ∃ xs, blocks n x = blockAt n x 0 :: xs ∧ (blockAt n x 0).length = n := by
  have hpos : 0 < blockCount n x.length := (lt_blockCount_iff hn).2 (by omega)
  obtain ⟨k, hk⟩ := Nat.exists_eq_succ_of_ne_zero hpos.ne'
  exact ⟨_, by rw [blocks, hk, List.range_succ_eq_map, List.map_cons], by rw [blockAt_length]; omega⟩

/-- The padding count depends on the length modulo N. -/
theorem padCount_add {n k : Nat} (hk : k % n = 0) (len : Nat) : padCount n (k + len) = padCount n len := by
  rw [padCount, padCount, Nat.add_mod, hk, Nat.zero_add, Nat.mod_mod]

theorem encTail_add {n k : Nat} (hk : k % n = 0) (p : Padding) (len : Nat) (m : Mode) :
    encTail n p (k + len) m = encTail n p len m := by
  unfold encTail
  rw [padCount_add hk]

/-! ## What a mode carries from block to block -/

theorem encryptBlock_inj {t : BlockTransform} {n : Nat} {a b : Bytes} (ha : a.length = n) (hb : b.length = n)
    (h : encryptBlock t n a = encryptBlock t n b) : a = b := by
  rw [← decryptBlock_encryptBlock t ha, h, decryptBlock_encryptBlock t hb]

theorem xorBytes_left_inj {x a b : Bytes} (ha : a.length = x.length) (hb : b.length = x.length)
    (h : xorBytes x a = xorBytes x b) : a = b := by
  rw [← xorBytes_cancel ha, xorBytes_comm a, h, xorBytes_comm x, xorBytes_cancel hb]

theorem xorKeystream_inj {x a b : Bytes} (ha : a.length = x.length) (hb : b.length = x.length)
    (h : xorKeystream x a = xorKeystream x b) : a = b := by
  rw [xorKeystream, xorKeystream, List.take_of_length_le (by omega), List.take_of_length_le (by omega)] at h
  exact xorBytes_left_inj ha hb h

/-- A whole block under the keystream fixes what the keystream was made from. -/
theorem keystream_feed_inj {t : BlockTransform} {n : Nat} {x a b : Bytes} (ha : a.length = n) (hb : b.length = n)
    (hx : x.length = n) (h : xorKeystream x (encryptBlock t n a) = xorKeystream x (encryptBlock t n b)) : a = b :=
  encryptBlock_inj ha hb <|
    xorKeystream_inj ((encryptBlock_length t ha).trans hx.symm) ((encryptBlock_length t hb).trans hx.symm) h

/-- The value of a big-endian block of N bytes. -/
theorem intBe_beBytes (n v : Nat) : intBe (beBytes n v) = v % 256 ^ n := by
  induction n generalizing v with
  | zero => simp [beBytes, Nat.mod_one]
  | succ n ih =>
    rw [beBytes_succ, intBe_concat, ih, Nat.pow_succ', Nat.mod_mul, BitVec.toNat_ofNat]
    omega

theorem beBytes_add_congr {n a b : Nat} (h : beBytes n a = beBytes n b) (k : Nat) : beBytes n (a + k) = beBytes n (b + k) := by
  have hmod : a ≡ b [MOD 256 ^ n] := by rw [Nat.ModEq, ← intBe_beBytes, h, intBe_beBytes]
  rw [← beBytes_mod, ← beBytes_mod n (b + k)]
  exact congrArg _ (hmod.add_right k)

/-- The counter modulo `2^(8N)` counts the same blocks. -/
theorem beBytes_mod_two_pow (n v : Nat) : beBytes n (v % 2 ^ (8 * n)) = beBytes n v := by
  rw [Nat.pow_mul]; exact beBytes_mod n v

/-- The output block a rule makes, with the transform's answer. -/
def BlockRule.outputBlock (r : BlockRule) (t : BlockTransform) (n : Nat) (c : Chaining) (x : Bytes) : Bytes :=
  r.output c x (answer t n (r.request n c x))

/-- The chaining state after a block, with the transform's answer. -/
def BlockRule.nextChaining (r : BlockRule) (t : BlockTransform) (n : Nat) (c : Chaining) (x : Bytes) : Chaining :=
  r.next n c x (answer t n (r.request n c x))

/-- A rule takes one block of the chaining state, its feed: the feed fixes the output block and the next feed, and a whole output
block fixes the feed. -/
structure BlockRule.FedBy (r : BlockRule) (t : BlockTransform) (n : Nat) (feed : Chaining → Bytes) : Prop where
  output : ∀ c c' x, feed c = feed c' → r.outputBlock t n c x = r.outputBlock t n c' x
  next : ∀ c c' x, feed c = feed c' → feed (r.nextChaining t n c x) = feed (r.nextChaining t n c' x)
  inj : ∀ c c' x, (feed c).length = n → (feed c').length = n → x.length = n →
    r.outputBlock t n c x = r.outputBlock t n c' x → feed c = feed c'

/-- CBC is fed its last ciphertext block, 41_block_modes.md R163. -/
theorem cbcEncRule_fedBy (t : BlockTransform) (n : Nat) : cbcEncRule.FedBy t n Chaining.chain where
  output _ _ x h := congrArg (fun k => encryptBlock t n (xorBytes x k)) h
  next _ _ x h := congrArg (fun k => encryptBlock t n (xorBytes x k)) h
  inj _ _ _ hc hc' hx h :=
    xorBytes_left_inj (hc.trans hx.symm) (hc'.trans hx.symm) (encryptBlock_inj (by simp [hc, hx]) (by simp [hc', hx]) h)

/-- CFB is fed its last ciphertext block, 42_stream_modes.md R191. -/
theorem cfbEncRule_fedBy (t : BlockTransform) (n : Nat) : cfbEncRule.FedBy t n Chaining.chain where
  output _ _ x h := congrArg (fun k => xorKeystream x (encryptBlock t n k)) h
  next _ _ x h := congrArg (fun k => xorKeystream x (encryptBlock t n k)) h
  inj _ _ _ hc hc' hx h := keystream_feed_inj hc hc' hx h

/-- OFB is fed its last keystream block, 42_stream_modes.md R193. -/
theorem ofbRule_fedBy (t : BlockTransform) (n : Nat) : ofbRule.FedBy t n Chaining.chain where
  output _ _ x h := congrArg (fun k => xorKeystream x (encryptBlock t n k)) h
  next _ _ _ h := congrArg (encryptBlock t n) h
  inj _ _ _ hc hc' hx h := keystream_feed_inj hc hc' hx h

/-- CTR is fed its counter block, 42_stream_modes.md R195. -/
theorem ctrRule_fedBy (t : BlockTransform) (n : Nat) : ctrRule.FedBy t n fun c => beBytes n c.ctrv where
  output _ _ x h := congrArg (fun k => xorKeystream x (encryptBlock t n k)) h
  next _ _ _ h := by
    simp only [BlockRule.nextChaining, ctrRule, beBytes_mod_two_pow]
    exact beBytes_add_congr h 1
  inj _ _ _ hc hc' hx h := keystream_feed_inj hc hc' hx h

/-- Runs over the same blocks from the same feed give the same output. -/
theorem runBlocks_output_congr {t : BlockTransform} {n : Nat} {r : BlockRule} {feed : Chaining → Bytes} (hf : r.FedBy t n feed)
    {c c' : Chaining} (h : feed c = feed c') (xs : List Bytes) :
    (runBlocks t n r c xs).output = (runBlocks t n r c' xs).output := by
  induction xs generalizing c c' with
  | nil => rfl
  | cons x xs ih => exact congrArg₂ (· ++ ·) (hf.output c c' x h) (ih (hf.next c c' x h))

/-- The first output block of a run. -/
theorem runBlocks_blockAt_zero {t : BlockTransform} {n : Nat} {r : BlockRule} {full : Bool} (hw : r.Widths n full) {c : Chaining}
    (hc : c.chain.length = n) {x : Bytes} {xs : List Bytes} (hx : Cut n full (x :: xs)) :
    blockAt n (runBlocks t n r c (x :: xs)).output 0 = r.outputBlock t n c x :=
  runBlocks_blockAt hw hc hx (Nat.succ_pos _)

/-- Whole blocks leave CHAIN its N bytes. -/
theorem runBlocks_last_chain_length {t : BlockTransform} {n : Nat} {r : BlockRule} {full : Bool} (hw : r.Widths n full)
    {c : Chaining} (hc : c.chain.length = n) {xs : List Bytes} (hx : ∀ x ∈ xs, x.length = n) :
    (runBlocks t n r c xs).last.chain.length = n := by
  induction xs generalizing c with
  | nil => exact hc
  | cons x xs ih =>
    obtain ⟨hx0, hx⟩ := List.forall_mem_cons.1 hx
    have hq : (r.request n c x).block.length = n := hw.request c x hc fun _ => hx0
    exact ih (hw.next c x _ hc (answer_length t hq) hx0) hx

/-- A mode that feeds its ciphertext back ends, after whole blocks, on the last N bytes of its output. -/
theorem runBlocks_last_chain_eq_drop {t : BlockTransform} {n : Nat} {r : BlockRule} {full : Bool} (hw : r.Widths n full)
    (hfb : ∀ c x a, (r.next n c x a).chain = r.output c x a) {c : Chaining} (hc : c.chain.length = n) {xs : List Bytes}
    (hx : ∀ x ∈ xs, x.length = n) (hne : xs ≠ []) :
    (runBlocks t n r c xs).last.chain =
      (runBlocks t n r c xs).output.drop ((runBlocks t n r c xs).output.length - n) := by
  obtain ⟨ys, x, rfl⟩ := List.eq_nil_or_concat xs |>.resolve_left hne
  simp only [List.concat_eq_append] at hx ⊢
  obtain ⟨hys, hx0⟩ := List.forall_mem_append.1 hx
  have hx0 : x.length = n := hx0 x (List.mem_singleton_self x)
  have hcl := runBlocks_last_chain_length (t := t) hw hc hys
  have hq : (r.request n (runBlocks t n r c ys).last x).block.length = n := hw.request _ x hcl fun _ => hx0
  have ho := (hw.output _ x _ hcl (answer_length t hq) hx0.le fun _ => hx0).trans hx0
  simp only [runBlocks_append, runBlocks_cons, runBlocks_nil, List.append_nil, hfb, List.length_append, ho,
    Nat.add_sub_cancel, List.drop_left]

/-- OFB ends on the IV encrypted once for each block. -/
theorem runBlocks_ofb_last (t : BlockTransform) (n : Nat) (c : Chaining) (xs : List Bytes) :
    (runBlocks t n ofbRule c xs).last.chain = (encryptBlock t n)^[xs.length] c.chain := by
  induction xs generalizing c with
  | nil => rfl
  | cons x xs ih => exact ih _

/-- CTR ends on the counter one up for each block. -/
theorem runBlocks_ctr_last (t : BlockTransform) (n : Nat) (c : Chaining) (xs : List Bytes) :
    beBytes n (runBlocks t n ctrRule c xs).last.ctrv = beBytes n (c.ctrv + xs.length) := by
  induction xs generalizing c with
  | nil => rfl
  | cons x xs ih =>
    refine (ih _).trans ((beBytes_add_congr (beBytes_mod_two_pow n (c.ctrv + 1)) xs.length).trans ?_)
    rw [List.length_cons, Nat.add_assoc, Nat.add_comm 1]

/-- The block that a mode of R298 carries from each block to the next. -/
def feed (m : Mode) (n : Nat) (c : Chaining) : Bytes :=
  match m with
  | .ctr => beBytes n c.ctrv
  | _ => c.chain

/-- The modes of 70_reset_and_hazards.md R298: their feed fixes the output. -/
theorem encRule_fedBy {m : Mode} (hm : m = .cbc ∨ m = .cfb ∨ m = .ofb ∨ m = .ctr) (t : BlockTransform) (n : Nat) :
    (encRule m).FedBy t n (feed m n) := by
  rcases hm with rfl | rfl | rfl | rfl
  · exact cbcEncRule_fedBy t n
  · exact cfbEncRule_fedBy t n
  · exact ofbRule_fedBy t n
  · exact ctrRule_fedBy t n

theorem feed_length {m : Mode} {n : Nat} {c : Chaining} (h : c.chain.length = n) : (feed m n c).length = n := by
  cases m with
  | ctr => exact beBytes_length n c.ctrv
  | ecb | cbc | pcbc | cfb | ofb => exact h

/-- A command is fed its IV first. -/
theorem feed_initialChaining (m : Mode) (s : State) : feed m s.cfg.n (initialChaining s) = ivBytes s := by
  have hctr : beBytes s.cfg.n (intBe (ivBytes s)) = ivBytes s := by
    have := beBytes_intBe (ivBytes s)
    rwa [ivBytes_length] at this
  cases m with
  | ctr => exact hctr
  | ecb | cbc | pcbc | cfb | ofb => rfl

/-- What a mode is fed after some whole blocks: the last ciphertext block, the last keystream block, or the counter block. -/
theorem feed_last {m : Mode} (hm : m = .cbc ∨ m = .cfb ∨ m = .ofb ∨ m = .ctr) (s : State) {xs : List Bytes}
    (hx : ∀ x ∈ xs, x.length = s.cfg.n) (hne : xs ≠ []) :
    let run := runBlocks s.bt s.cfg.n (encRule m) (initialChaining s) xs
    feed m s.cfg.n run.last =
      if m = .ctr then beBytes s.cfg.n ((intBe (ivBytes s) + xs.length) % 2 ^ (8 * s.cfg.n))
      else if m = .ofb then (encryptBlock s.bt s.cfg.n)^[xs.length] (ivBytes s)
      else run.output.drop (run.output.length - s.cfg.n) := by
  have hc : (initialChaining s).chain.length = s.cfg.n := ivBytes_length s
  rcases hm with rfl | rfl | rfl | rfl
  · exact runBlocks_last_chain_eq_drop (cbcEncRule_widths _) (fun _ _ _ => rfl) hc hx hne
  · exact runBlocks_last_chain_eq_drop (cfbEncRule_widths _) (fun _ _ _ => rfl) hc hx hne
  · exact runBlocks_ofb_last _ _ _ xs
  · exact (runBlocks_ctr_last _ _ _ xs).trans (beBytes_mod_two_pow _ _).symm

/-! ## Two commands and one -/

/-- ENC over a message, over its first part, of whole blocks, with the same IV and nothing appended, and over the rest. -/
structure InTwoParts (m : Mode) (p q : Padding) (s s1 s2 : State) : Prop where
  whole : Runs (Instr.enc m p) s
  fst : Runs (Instr.enc m q) s1
  snd : Runs (Instr.enc m p) s2
  cfg1 : s1.cfg = s.cfg
  cfg2 : s2.cfg = s.cfg
  bt1 : s1.bt = s.bt
  bt2 : s2.bt = s.bt
  message : message s = message s1 ++ message s2
  aligned : (Machine.message s1).length % s.cfg.n = 0
  iv : ivBytes s1 = ivBytes s
  unpadded : encInput m q s1 = Machine.message s1

namespace InTwoParts

variable {m : Mode} {p q : Padding} {s s1 s2 : State}

/-- The chaining state after the first part. -/
def between (m : Mode) (s s1 : State) : Chaining :=
  (runBlocks s.bt s.cfg.n (encRule m) (initialChaining s) (blocks s.cfg.n (Machine.message s1))).last

theorem encInput_eq (h : InTwoParts m p q s s1 s2) : encInput m p s = Machine.message s1 ++ encInput m p s2 := by
  have hlen : s.inLen.toNat = (Machine.message s1).length + s2.inLen.toNat := by
    rw [← message_length s, h.message, List.length_append, message_length s2]
  rw [encInput, encInput, h.message, hlen, encTail_add h.aligned, h.cfg2, List.append_assoc]

theorem encOutput_fst (h : InTwoParts m p q s s1 s2) : encOutput m q s1 =
    (runBlocks s.bt s.cfg.n (encRule m) (initialChaining s) (blocks s.cfg.n (Machine.message s1))).output := by
  have hinit : initialChaining s1 = initialChaining s := by rw [initialChaining, h.iv, h.cfg1, initialChaining]
  rw [encOutput, h.unpadded, hinit, h.bt1, h.cfg1]

/-- The second command encrypts the same blocks from its own IV. -/
theorem encOutput_snd (h : InTwoParts m p q s s1 s2) : encOutput m p s2 =
    (runBlocks s.bt s.cfg.n (encRule m) (initialChaining s2) (blocks s.cfg.n (encInput m p s2))).output := by
  rw [encOutput, h.bt2, h.cfg2]

/-- The command over the whole goes on, after the first part, from where that leaves it. -/
theorem encOutput_whole (h : InTwoParts m p q s s1 s2) : encOutput m p s = encOutput m q s1 ++
    (runBlocks s.bt s.cfg.n (encRule m) (between m s s1) (blocks s.cfg.n (encInput m p s2))).output := by
  obtain ⟨hn, -⟩ := (legal_iff _).1 h.whole.legal
  rw [encOutput, h.encInput_eq, blocks_append hn h.aligned, runBlocks_append, h.encOutput_fst]
  rfl

theorem blocks_whole (h : InTwoParts m p q s s1 s2) :
    ∀ x ∈ blocks s.cfg.n (Machine.message s1), x.length = s.cfg.n := by
  intro x hx
  obtain ⟨hn, -⟩ := (legal_iff _).1 h.whole.legal
  obtain ⟨i, hi, rfl⟩ := List.mem_iff_getElem.1 hx
  exact (blocks_cut_full hn h.aligned i hi).2 (.inr rfl)

theorem feed_initialChaining_snd (h : InTwoParts m p q s s1 s2) : feed m s.cfg.n (initialChaining s2) = ivBytes s2 := by
  rw [← h.cfg2]; exact feed_initialChaining m s2

/-- If the second IV is what the first part leaves, the outputs join. -/
theorem joins_of_iv (h : InTwoParts m p q s s1 s2) (hm : m = .cbc ∨ m = .cfb ∨ m = .ofb ∨ m = .ctr)
    (hiv : ivBytes s2 = feed m s.cfg.n (between m s s1)) : encOutput m p s = encOutput m q s1 ++ encOutput m p s2 := by
  have hfeed : feed m s.cfg.n (between m s s1) = feed m s.cfg.n (initialChaining s2) := by
    rw [h.feed_initialChaining_snd, hiv]
  rw [h.encOutput_whole, h.encOutput_snd, runBlocks_output_congr (encRule_fedBy hm _ _) hfeed]

/-- If the outputs join and the second has a whole block, the second IV is what the first part leaves. -/
theorem iv_of_joins (h : InTwoParts m p q s s1 s2) (hm : m = .cbc ∨ m = .cfb ∨ m = .ofb ∨ m = .ctr)
    (hlen : s.cfg.n ≤ (encOutput m p s2).length) (hj : encOutput m p s = encOutput m q s1 ++ encOutput m p s2) :
    ivBytes s2 = feed m s.cfg.n (between m s s1) := by
  obtain ⟨hn, -⟩ := (legal_iff _).1 h.whole.legal
  obtain ⟨⟨full, hw, hcut⟩, hout⟩ := enc_widths h.snd
  rw [h.cfg2] at hw hcut
  rw [h.encOutput_whole, h.encOutput_snd] at hj
  have hsame := List.append_cancel_left hj
  have hinit : (initialChaining s2).chain.length = s.cfg.n := (ivBytes_length s2).trans (congrArg _ h.cfg2)
  have hbetween : (between m s s1).chain.length = s.cfg.n :=
    runBlocks_last_chain_length hw (ivBytes_length s) h.blocks_whole
  obtain ⟨xs, hb, hx⟩ := blocks_eq_cons hn (hlen.trans hout.le)
  rw [hb] at hsame hcut
  have hfirst := congrArg (blockAt s.cfg.n · 0) hsame
  simp only [runBlocks_blockAt_zero hw hinit hcut, runBlocks_blockAt_zero hw hbetween hcut] at hfirst
  rw [← h.feed_initialChaining_snd]
  exact (encRule_fedBy hm _ _).inj _ _ _ (feed_length hinit) (feed_length hbetween) hx hfirst.symm

/-- What the first part leaves, as 70_reset_and_hazards.md R298 names it for each mode. -/
theorem feed_between (h : InTwoParts m p q s s1 s2) (hm : m = .cbc ∨ m = .cfb ∨ m = .ofb ∨ m = .ctr)
    (hne : Machine.message s1 ≠ []) :
    let parts := (Machine.message s1).length / s.cfg.n
    let y := encOutput m q s1
    feed m s.cfg.n (between m s s1) =
      if m = .ctr then beBytes s.cfg.n ((intBe (ivBytes s) + parts) % 2 ^ (8 * s.cfg.n))
      else if m = .ofb then (encryptBlock s.bt s.cfg.n)^[parts] (ivBytes s)
      else y.drop (y.length - s.cfg.n) := by
  obtain ⟨hn, -⟩ := (legal_iff _).1 h.whole.legal
  have hparts : (Machine.message s1).length / s.cfg.n = (blocks s.cfg.n (Machine.message s1)).length := by
    rw [blocks_length, blockCount_of_aligned hn h.aligned]
  have hblocks : blocks s.cfg.n (Machine.message s1) ≠ [] := fun h0 => hne <| by
    rw [← blocks_flatten hn (Machine.message s1), h0, List.flatten_nil]
  rw [h.encOutput_fst, hparts]
  exact feed_last hm s h.blocks_whole hblocks

end InTwoParts

/-- Settles O58: the command over the whole runs on from the feed that the first part leaves, and the second command from its IV. -/
theorem encryptionInTwoPartsNeedsTheChainingIv : Obligations.EncryptionInTwoPartsNeedsTheChainingIv := by
  unfold Obligations.EncryptionInTwoPartsNeedsTheChainingIv
  intro m p q s s1 s2 t y hm hs hs1 hs2 hcfg1 hcfg2 hbt1 hbt2 hmsg hne hmod hiv he hy parts iv
  have hunpadded : encInput m q s1 = message s1 := by
    rcases hm with ⟨rfl, rfl⟩ | rfl | rfl | rfl <;> exact List.append_nil _
  have hm : m = .cbc ∨ m = .cfb ∨ m = .ofb ∨ m = .ctr := hm.imp_left And.left
  have h : InTwoParts m p q s s1 s2 := ⟨hs, hs1, hs2, hcfg1, hcfg2, hbt1, hbt2, hmsg, hmod, hiv, hunpadded⟩
  obtain ⟨t1, he1, hr1⟩ := exec_enc_of_runs hs1
  obtain rfl := Host.Outcome.next.inj (he1.symm.trans he)
  obtain rfl := Result.output.inj (hr1.symm.trans hy)
  have hfeed : feed m s.cfg.n (InTwoParts.between m s s1) = iv := h.feed_between hm hne
  obtain ⟨t', he', hr'⟩ := exec_enc_of_runs hs
  obtain ⟨t2, he2, hr2⟩ := exec_enc_of_runs hs2
  refine ⟨t', t2, _, _, he', hr', he2, hr2, fun h2 => ?_, fun hlen hj => ?_⟩
  · exact h.joins_of_iv hm (h2.trans hfeed.symm)
  · exact (h.iv_of_joins hm hlen hj).trans hfeed

end Sys2Proof.Machine
end

section
/-! PROOFS. The statements of 20_memory.md on lanes: a word and its four lanes (R72), the word a CMD write presents (R75), the accesses to
the IV, IN and OUT windows (R76 to R80), and the lanes of the BT port (R94). -/

namespace Sys2Proof.Machine

open Sys2Proof.Safety

/-! ## A word and its lanes (20_memory.md R72) -/

/-- Bit `i` of a word is a bit of the lane it lies in. -/
theorem getLsbD_lane (w : Word) {i j : Nat} (h : 8 * j ≤ i ∧ i < 8 * j + 8) : (lane w j).getLsbD (i - 8 * j) = w.getLsbD i := by
  rw [lane, BitVec.getLsbD_extractLsb', decide_eq_true (by omega), Bool.true_and, Nat.add_sub_cancel' h.1]

/-- A word is built from its own lanes. -/
theorem ofLanes_lane (w : Word) : ofLanes (lane w) = w := by
  apply BitVec.eq_of_getLsbD_eq
  intro i hi
  rw [getLsbD_ofLanes]
  split_ifs
  · exact getLsbD_lane w (j := 0) (by omega)
  · exact getLsbD_lane w (j := 1) (by omega)
  · exact getLsbD_lane w (j := 2) (by omega)
  · exact getLsbD_lane w (j := 3) (by omega)

/-- Two words with the same four lanes are one. -/
theorem eq_of_lanes {v w : Word} (h : ∀ j, j < 4 → lane v j = lane w j) : v = w := by
  rw [← ofLanes_lane v, ← ofLanes_lane w, ofLanes, ofLanes, h 0 (by omega), h 1 (by omega), h 2 (by omega), h 3 (by omega)]

/-! ## The bytes of a command (20_memory.md R72) -/

/-- A command's word decodes to it: fourteen commands with five schemes each. -/
theorem decode_encode (i : Instr) : decode (encode i) = .ok i := by
  cases i with
  | _ p => cases p <;> rfl

/-- The decoder on bytes reads the word whose lanes they are. -/
theorem decodeBytes_lanes (w : Word) (rest : Bytes) :
    decodeBytes ([lane w 0, lane w 1, lane w 2, lane w 3] ++ rest) = some (decode w, rest) := by
  have hw : wordOfLanes (lane w 0) (lane w 1) (lane w 2) (lane w 3) = w := ofLanes_lane w
  simp [decodeBytes, hw]

theorem tableWord_toNat (w : Word) : tableWord 32 w.toNat = w := by
  rw [tableWord, Nat.mod_eq_of_lt w.isLt, BitVec.ofNat_toNat, BitVec.setWidth_eq]

/-- The decoder on table words reads the word from its lanes. -/
theorem decodeTableWord_of_decode {w : Word} {i : Instr} (h : decode w = .ok i) : decodeTableWord 32 w.toNat = some i := by
  have hb : decodeBytes [w.extractLsb' 0 8, w.extractLsb' 8 8, w.extractLsb' 16 8, w.extractLsb' 24 8] = some (.ok i, []) :=
    (decodeBytes_lanes w []).trans (by rw [h])
  simp only [decodeTableWord, tableWord_toNat, hb]

/-- Settles O4: the four lanes make the command's word, which decodes to it. -/
theorem bytesOfACommandDecodeToIt : Obligations.BytesOfACommandDecodeToIt := by
  unfold Obligations.BytesOfACommandDecodeToIt
  intro i rest
  exact ⟨by rw [decodeBytes_lanes, decode_encode], decodeTableWord_of_decode (decode_encode i)⟩

/-! ## The word a CMD write presents (20_memory.md R75) -/

theorem lane_maskLanes (data : Word) (strb : Strobe) {j : Nat} (h : j < 4) :
    lane (maskLanes data strb) j = if strb.getLsbD j then lane data j else 0x00#8 := by
  have hz : lane 0#32 j = 0x00#8 := BitVec.extractLsb'_zero
  rw [maskLanes, lane_mergeLanes _ _ _ h, hz]

/-- A write to CMD whose presented word spells a command runs it. -/
theorem busWrite_cmd {s : State} {off : Nat} {data : Word} {strb : Strobe} {i : Instr} (hr : s.rstN = true)
    (hoff : wordOffset off = 0x010) (hd : decode (maskLanes data strb) = .ok i) :
    busWrite s off data strb = exec i { s with epoch := s.epoch + 1 } := by
  rw [busWrite_place (p := .reg .cmd) hr (by rw [hoff]; rfl), writePlace, presentWord, hd]

/-- A byte write of 0x01 to lane 0 presents the word of `ENC.ECB NONE`. -/
theorem maskLanes_byte_write {data : Word} (h : lane data 0 = 0x01#8) : maskLanes data 0x1#4 = encode (.encEcb .none) := by
  refine eq_of_lanes fun j hj => ?_
  rw [lane_maskLanes _ _ hj]
  match j with
  | 0 => exact h
  | 1 | 2 | 3 => rfl

/-- Settles O41: lane by lane; the byte write presents the command's own word. -/
theorem unstrobedLanesOfCmdReadAsZero : Obligations.UnstrobedLanesOfCmdReadAsZero := by
  unfold Obligations.UnstrobedLanesOfCmdReadAsZero
  refine ⟨fun data strb j hj => lane_maskLanes data strb hj, fun s data hs h0 => busWrite_cmd hs.1 rfl ?_⟩
  rw [maskLanes_byte_write h0, decode_encode]

/-- Settles O6: the event is a write to the place CMD. -/
theorem stepRunsTheCommandWritten : Obligations.StepRunsTheCommandWritten := by
  unfold Obligations.StepRunsTheCommandWritten
  intro s addr data strb rest i hr hin haddr hoff hd
  have hspace : inRegisterSpace { s with inputs := rest } addr = true := haddr
  simp only [step, hin, handleEvent, atOffset, hspace, if_true]
  exact busWrite_cmd hr hoff hd

/-! ## Word offsets (20_memory.md R76) -/

theorem wordOffset_add_of_lt (w : Nat) {j : Nat} (h : j < 4) : wordOffset (4 * w + j) = wordOffset (4 * w) := by
  unfold wordOffset; omega

/-- Settles O37: an access looks at the word offset only. -/
theorem lowOffsetBitsAreIgnored : Obligations.LowOffsetBitsAreIgnored := by
  unfold Obligations.LowOffsetBitsAreIgnored
  intro s w j data strb hj
  simp only [busRead, busWrite, wordOffset_add_of_lt w hj, and_self]

/-! ## Writes to the IV and IN windows (20_memory.md R74, R77 to R79) -/

/-- While IDLE a write to word `w` of the IV window stores its strobed lanes. -/
theorem busWrite_iv_word {s : State} (h : Ready s) {w : Nat} (hw : 4 * w < 0x100) (data : Word) (strb : Strobe) :
    busWrite s (0x100 + 4 * w) data strb =
      .next { s with mem := writeWindow s.mem ivBase (4 * w) s.cfg.n data strb, epoch := s.epoch + 1 } := by
  have hi : ({ s with epoch := s.epoch + 1 } : State).phase = .idle := h.2
  rw [busWrite_iv h.1 (by omega) (by omega), wordOffset_of_mod (by omega), Nat.add_sub_cancel_left, windowWrite_idle hi]

/-- While IDLE a write to word `w` of the IN window stores its strobed lanes. -/
theorem busWrite_inp_word {s : State} (h : Ready s) {w : Nat} (hw : 4 * w < 0x10000) (data : Word) (strb : Strobe) :
    busWrite s (0x10000 + 4 * w) data strb =
      .next { s with mem := writeWindow s.mem inBase (4 * w) s.cfg.inCap data strb, epoch := s.epoch + 1 } := by
  have hi : ({ s with epoch := s.epoch + 1 } : State).phase = .idle := h.2
  rw [busWrite_inp h.1 (by omega) (by omega), wordOffset_of_mod (by omega), Nat.add_sub_cancel_left, windowWrite_idle hi]

/-- Settles O39: what a window write stores is read back, and every other byte is as before. -/
theorem strobedLanesOfWindowsAreStored : Obligations.StrobedLanesOfWindowsAreStored := by
  unfold Obligations.StrobedLanesOfWindowsAreStored
  intro s w data strb _ hwf hs
  exact ⟨fun hw => ⟨_, busWrite_iv_word hs hw data strb, rfl, fun j hj => read_writeWindow hwf ivBase (4 * w) _ data strb hj,
      fun off hoff => read_writeWindow_other data strb (by omega)⟩,
    fun hw => ⟨_, busWrite_inp_word hs hw data strb, rfl, fun j hj => read_writeWindow hwf inBase (4 * w) _ data strb hj,
      fun off hoff => read_writeWindow_other data strb (by omega)⟩⟩

/-! ## The OUT window (20_memory.md R80) -/

theorem place_out {w : Nat} (h1 : 0x20000 ≤ w) (h2 : w < 0x30000) : place w = .out (w - 0x20000) := by
  unfold place
  iterate 13 rw [if_neg (by omega)]
  rw [if_pos ⟨h1, h2⟩]

/-- Word `w` of the OUT window. -/
theorem place_out_word {w : Nat} (hw : 4 * w < 0x10000) : place (wordOffset (0x20000 + 4 * w)) = .out (4 * w) := by
  rw [wordOffset_of_mod (by omega), place_out (by omega) (by omega), Nat.add_sub_cancel_left]

theorem busRead_out_word {s : State} (hr : s.rstN = true) {w : Nat} (hw : 4 * w < 0x10000) :
    busRead s (0x20000 + 4 * w) = ofLanes fun j => readOut s (4 * w + j) := by
  simp [busRead, hr, place_out_word hw]

/-- Settles O46: the lane of a read is the window byte; no write reaches the output buffer. -/
theorem outputIsVisibleOnlyAfterSuccess : Obligations.OutputIsVisibleOnlyAfterSuccess := by
  unfold Obligations.OutputIsVisibleOnlyAfterSuccess
  intro s w j data strb hr hw hj
  exact ⟨by rw [busRead_out_word hr hw, lane_ofLanes _ hj]; rfl, busWrite_place hr (place_out_word hw) data strb⟩

/-- While BUSY the OUT window shows nothing. -/
theorem readOut_of_busy {s : State} (h : s.phase = .busy) (b : Nat) : readOut s b = 0 := by
  simp [readOut, h]

/-! ## The access after an accept (20_memory.md R84) -/

/-- STATUS of a running command: BUSY is 1, DONE and OK are 0. -/
theorem statusWord_low_of_busy {s : State} (hb : s.phase = .busy) (hd : s.status.done = false) (hok : s.status.ok = false) :
    (statusWord s).extractLsb' 0 3 = 1#3 := by
  apply BitVec.eq_of_getLsbD_eq
  intro i hi
  rw [BitVec.getLsbD_extractLsb', statusWord_getLsbD, hb, hd, hok]
  match i with
  | 0 | 1 | 2 => simp

theorem errorWord_of_no_error {s : State} (h : s.error = { cls := .none, cause := .none }) : errorWord s = 0 := by
  rw [errorWord, h]
  rfl

/-- Settles O49: each register and the OUT window as the accept leaves them. -/
theorem nextAccessSeesTheAccept : Obligations.NextAccessSeesTheAccept := by
  unfold Obligations.NextAccessSeesTheAccept
  intro i s t hs ht
  obtain rfl := Host.Outcome.next.inj ((exec_ready hs i).symm.trans ht)
  set t := accept s (encode i) (some i) ((commandJob i s).result s)
  have hr : t.rstN = true := hs.1
  refine ⟨?status, ?error, busRead_reg (r := .outLen) hr rfl, busRead_reg (r := .lastCmd) hr rfl, fun w hw => ?out⟩
  case status =>
    rw [busRead_reg (r := .status) hr rfl]
    exact statusWord_low_of_busy rfl rfl rfl
  case error =>
    rw [busRead_reg (r := .error) hr rfl]
    exact errorWord_of_no_error rfl
  case out =>
    rw [busRead_out_word hr (by omega)]
    exact ofLanes_zero fun j => readOut_of_busy rfl _

/-! ## The lanes of the BT port (20_memory.md R94) -/

@[simp] theorem portBits_nil : portBits [] = 0 := rfl

@[simp] theorem portBits_cons (x : Byte) (b : Bytes) : portBits (x :: b) = x.toNat + 256 * portBits b := rfl

theorem portBits_lt (b : Bytes) : portBits b < 256 ^ b.length := by
  induction b with
  | nil => simp
  | cons x b ih =>
    have hx := x.isLt
    rw [portBits_cons, List.length_cons, Nat.pow_succ]
    omega

/-- Byte `j` of a block is digit `j` of its port bits to base 256. -/
theorem portBits_digit (b : Bytes) (j : Nat) (h : j < b.length) : BitVec.ofNat 8 (portBits b / 256 ^ j) = b[j] := by
  induction b generalizing j with
  | nil => simp at h
  | cons x b ih =>
    have hx := x.isLt
    cases j with
    | zero => apply BitVec.eq_of_toNat_eq; simp; omega
    | succ j =>
      have hdiv : (x.toNat + 256 * portBits b) / 256 = portBits b := by omega
      rw [portBits_cons, Nat.pow_succ', ← Nat.div_div_eq_div_mul, hdiv]
      exact ih j (by simpa using h)

theorem blockOfPortBits_portBits (b : Bytes) : blockOfPortBits b.length (portBits b) = b := by
  apply List.ext_getElem
  · simp [blockOfPortBits]
  · intro j _ h
    simp [blockOfPortBits, portBits_digit b j h]

/-- Eight bits of a number are one of its digits to base 256. -/
theorem extractLsb'_ofNat_byte {n v j : Nat} (hv : v < 2 ^ (8 * n)) :
    (BitVec.ofNat (8 * n) v).extractLsb' (8 * j) 8 = BitVec.ofNat 8 (v / 256 ^ j) := by
  apply BitVec.eq_of_toNat_eq
  rw [BitVec.extractLsb'_toNat, BitVec.toNat_ofNat, BitVec.toNat_ofNat, Nat.mod_eq_of_lt hv, Nat.shiftRight_eq_div_pow,
    Nat.pow_mul]

/-- Settles O60: the port bits hold the block's bytes as digits to base 256, the first byte lowest. -/
theorem btPortLanesAreLittleEndian : Obligations.BtPortLanesAreLittleEndian := by
  unfold Obligations.BtPortLanesAreLittleEndian
  intro b
  have hlt : portBits b < 2 ^ (8 * b.length) := by rw [Nat.pow_mul]; exact portBits_lt b
  exact ⟨hlt, blockOfPortBits_portBits b, fun j h => (extractLsb'_ofNat_byte hlt).trans (portBits_digit b j h)⟩

end Sys2Proof.Machine
end

section
/-! PROOFS. The statements of 20_memory.md on the order of accesses and engine events: the inputs of `Exec` between accept and completion
(R90) and what reads see (R81, R83). Each says what may differ after an event, operation by operation. -/

namespace Sys2Proof.Machine

open Sys2Proof.Safety

/-! ## What each event can do (20_memory.md R83) -/

/-- `handleEvent_cases` with the writes and the resets named: which of its cases an event can be, where a statement is about some events
only. -/
theorem handleEvent_named_cases {e : Event} {s t : State} (h : handleEvent e s = .next t) :
    (∃ d i, t = { s with readData := d, inputs := i }) ∨
    (∃ a off data strb, e = .write a data strb ∧ busWrite s off data strb = .next t) ∨
    t = engineMove s ∨ e = .resetLow ∨ (e = .resetHigh ∧ t = leaveReset s) ∨
    (s.phase ≠ .busy ∧ ∃ b, t = { s with bt := b }) := by
  cases e with
  | write a data strb =>
    rw [handleEvent] at h
    obtain ⟨off, h⟩ := atOffset_next h
    exact .inr (.inl ⟨a, off, data, strb, rfl, h⟩)
  | read a =>
    rw [handleEvent] at h
    obtain ⟨off, h⟩ := atOffset_next h
    exact .inl ⟨_, _, (Host.Outcome.next.inj h).symm⟩
  | poll a mask value =>
    rw [handleEvent] at h
    obtain ⟨off, h⟩ := atOffset_next h
    obtain ⟨d, i, hp⟩ := pollOnce_cases s a off mask value
    exact .inl ⟨d, i, (Host.Outcome.next.inj h).symm.trans hp⟩
  | engine => exact .inr (.inr (.inl (Host.Outcome.next.inj h).symm))
  | resetLow => exact .inr (.inr (.inr (.inl rfl)))
  | resetHigh => exact .inr (.inr (.inr (.inr (.inl ⟨rfl, (Host.Outcome.next.inj h).symm⟩))))
  | rekey b =>
    simp only [handleEvent] at h
    split at h
    · cases h
    · next hp => exact .inr (.inr (.inr (.inr (.inr ⟨hp, b, (Host.Outcome.next.inj h).symm⟩))))
  | strayBtAnswer b =>
    simp only [handleEvent] at h
    split at h
    · cases h
    · exact .inl ⟨s.readData, s.inputs, (Host.Outcome.next.inj h).symm⟩

/-! ## The inputs of a running command (20_memory.md R90, 43_facade.md R233) -/

/-- The inputs of `Exec` and RES are the same; the draws too, until the command ends (70_reset_and_hazards.md R291). -/
structure InputsFrozen (s t : State) : Prop where
  cfg : t.cfg = s.cfg
  bt : t.bt = s.bt
  ivLen : t.ivLen = s.ivLen
  inLen : t.inLen = s.inLen
  cur : t.cur = s.cur
  res : t.res = s.res
  lastCmd : t.lastCmd = s.lastCmd
  storage : ∀ off, off < outBase → Memory.read t.mem off = Memory.read s.mem off
  commands : t.phase = .busy → t.commands = s.commands

/-- While the command runs its operands are the same. -/
theorem InputsFrozen.sameOperands {s t : State} (h : InputsFrozen s t) (hb : t.phase = .busy) : SameOperands s t :=
  ⟨h.cfg, h.bt, h.ivLen, h.inLen, h.commands hb, h.storage⟩

/-- The visible flags, the read data, the stamp of host reads and the events to come are no inputs of `Exec`. -/
theorem inputsFrozen_setVisible (s : State) (st : Status) (ie : IntEnable) (d : Word) (e : Nat) (i : List Event) :
    InputsFrozen s { s with status := st, ie := ie, readData := d, epoch := e, inputs := i } :=
  ⟨rfl, rfl, rfl, rfl, rfl, rfl, rfl, fun _ _ => rfl, fun _ => rfl⟩

theorem inputsFrozen_engineMove (s : State) : InputsFrozen s (engineMove s) := by
  obtain ⟨hcfg, hbt, -, -, hiv, hin, hlast, -, -, -, hcur, hres, hmem⟩ := engineMove_frame s
  exact ⟨hcfg, hbt, hiv, hin, hcur, hres, hlast, hmem, fun hb => (engineMove_sameOperands hb).commands⟩

/-- While BUSY a command word presented is ignored or dropped. -/
theorem inputsFrozen_present {s : State} (hb : s.phase = .busy) (w : Word) (c : Option Instr) (r : Result) :
    InputsFrozen s (present s w c r) := by
  rcases present_cases s w c r with ⟨-, he⟩ | ⟨-, -, he⟩ | ⟨hs, -⟩
  · rw [he]; exact inputsFrozen_setVisible s s.status s.ie s.readData s.epoch s.inputs
  · rw [he]; exact inputsFrozen_setVisible s _ s.ie s.readData s.epoch s.inputs
  · exact absurd (hb.symm.trans hs.2) nofun

/-- A host write while BUSY is dropped, or changes STATUS or IE, or does nothing. -/
theorem inputsFrozen_writePlace {s t : State} {p : Place} {data : Word} {strb : Strobe} (h : writePlace s p data strb = .next t)
    (hb : s.phase = .busy) : InputsFrozen s t := by
  have visible := fun st ie => inputsFrozen_setVisible s st ie s.readData s.epoch s.inputs
  have hne : s.phase ≠ .idle := by simp [hb]
  have ends : ∀ {u}, writePlace s p data strb = .next u → InputsFrozen s u → InputsFrozen s t := fun he hu =>
    Host.Outcome.next.inj (he.symm.trans h) ▸ hu
  rcases writePlace_cases s p data strb with he | he | he | ⟨-, he⟩ | ⟨hi, -⟩ | ⟨hi, -⟩ | ⟨hi, -⟩ | ⟨hi, -⟩ | ⟨w, c, r, he, -⟩
  · exact ends he (visible s.status s.ie)
  · exact ends he (visible _ s.ie)
  · exact ends he (writeIe_eq s data strb ▸ visible s.status _)
  · exact ends he (visible _ s.ie)
  iterate 4 exact absurd hi hne
  · exact ends he (inputsFrozen_present hb w c r)

theorem inputsFrozen_busWrite {s t : State} {off : Nat} {data : Word} {strb : Strobe} (h : busWrite s off data strb = .next t)
    (hb : s.phase = .busy) : InputsFrozen s t := by
  rcases busWrite_cases h with ⟨-, rfl⟩ | ⟨-, h⟩
  · exact inputsFrozen_setVisible t t.status t.ie t.readData t.epoch t.inputs
  · exact { inputsFrozen_writePlace h hb with }

/-- No event but the fall of `rst_n` changes the inputs of a running command. -/
theorem inputsFrozen_handleEvent {e : Event} {s t : State} (h : handleEvent e s = .next t) (hb : s.phase = .busy)
    (hr : s.rstN = true) (he : e ≠ .resetLow) : InputsFrozen s t := by
  rcases handleEvent_named_cases h with ⟨d, i, rfl⟩ | ⟨a, off, data, strb, -, hw⟩ | rfl | hlow | ⟨-, rfl⟩ | ⟨hnb, -⟩
  · exact inputsFrozen_setVisible s s.status s.ie d s.epoch i
  · exact inputsFrozen_busWrite hw hb
  · exact inputsFrozen_engineMove s
  · exact absurd hlow he
  · rw [leaveReset, if_pos hr]
    exact inputsFrozen_setVisible s s.status s.ie s.readData s.epoch s.inputs
  · exact absurd hb hnb

theorem inputsFrozen_step {s t : State} (h : step s = .next t) (hb : s.phase = .busy) (hr : s.rstN = true)
    (he : ∀ rest, s.inputs ≠ .resetLow :: rest) : InputsFrozen s t := by
  rcases step_cases h with ⟨-, rfl⟩ | ⟨e, rest, hin, h⟩
  · exact inputsFrozen_engineMove s
  · exact { inputsFrozen_handleEvent h hb hr fun hlow => he rest (hlow ▸ hin) with }

/-- Settles O35: a step of a running command freezes its inputs, on which the IV and the result of every command depend. -/
theorem inputsAreFrozenWhileBusy : Obligations.InputsAreFrozenWhileBusy := by
  unfold Obligations.InputsAreFrozenWhileBusy
  intro s t hl hb hr h he
  have hf := inputsFrozen_step h hb hr he
  refine ⟨hf.cfg, hf.bt, hf.ivLen, hf.inLen, hf.cur, hf.res, hf.lastCmd, ivBytes_congr hf.cfg hl hf.storage, hf.storage,
    fun htb i => ?_⟩
  have hs := hf.sameOperands htb
  rw [commandJob_congr hs hl, result_congr hs hl]

/-! ## What reads see (20_memory.md R81, R83) -/

/-- Everything a host read depends on is the same: the registers, the storage of the IV and IN windows, and, while the OUT window may
show it, the output. -/
structure SameReads (s t : State) : Prop where
  cfg : t.cfg = s.cfg
  rstN : t.rstN = s.rstN
  status : t.status = s.status
  error : t.error = s.error
  ie : t.ie = s.ie
  ivLen : t.ivLen = s.ivLen
  inLen : t.inLen = s.inLen
  outLen : t.outLen = s.outLen
  lastCmd : t.lastCmd = s.lastCmd
  phase : t.phase = s.phase
  storage : ∀ off, off < outBase → storedByte t off = storedByte s off
  output : s.phase = .idle → ∀ off, storedByte t off = storedByte s off

theorem SameReads.readReg {s t : State} (h : SameReads s t) (r : Reg) : readReg t r = readReg s r := by
  cases r <;> simp only [Machine.readReg, statusWord, errorWord, ieWord, h.cfg, h.status, h.error, h.ie, h.ivLen, h.inLen,
    h.outLen, h.lastCmd, h.phase]

theorem SameReads.readIv {s t : State} (h : SameReads s t) (hl : s.cfg.legal = true) (b : Nat) : readIv t b = readIv s b := by
  obtain ⟨-, hn, -⟩ := (legal_iff _).1 hl
  unfold Machine.readIv
  rw [h.cfg]
  split
  · exact h.storage _ (by unfold ivBase outBase; omega)
  · rfl

theorem SameReads.readIn {s t : State} (h : SameReads s t) (hl : s.cfg.legal = true) (b : Nat) : readIn t b = readIn s b := by
  obtain ⟨-, -, -, hcap, -⟩ := (legal_iff _).1 hl
  unfold Machine.readIn
  rw [h.cfg]
  split
  · exact h.storage _ (by unfold inBase outBase; omega)
  · rfl

theorem SameReads.readOut {s t : State} (h : SameReads s t) (b : Nat) : readOut t b = readOut s b := by
  unfold Machine.readOut
  rw [h.status, h.phase, h.outLen]
  split
  · next hv => exact h.output hv.2.1 _
  · rfl

theorem SameReads.busRead {s t : State} (h : SameReads s t) (hl : s.cfg.legal = true) (off : Nat) :
    busRead t off = busRead s off := by
  unfold Machine.busRead
  rw [h.rstN]
  split
  · rfl
  · cases place (wordOffset off) with
    | reg r => exact h.readReg r
    | iv b => exact congrArg ofLanes (funext fun j => h.readIv hl (b + j))
    | inp b => exact congrArg ofLanes (funext fun j => h.readIn hl (b + j))
    | out b => exact congrArg ofLanes (funext fun j => h.readOut (b + j))
    | reserved => rfl

/-- The transform, the read data and the events to come are no part of what reads see. -/
theorem sameReads_setUnseen (s : State) (b : BlockTransform) (d : Word) (i : List Event) :
    SameReads s { s with bt := b, readData := d, inputs := i } :=
  ⟨rfl, rfl, rfl, rfl, rfl, rfl, rfl, rfl, rfl, rfl, fun _ _ => rfl, fun _ _ => rfl⟩

/-- A move of the engine that does not complete the command shows nothing: it writes the hidden output buffer at most. -/
theorem sameReads_engineMove {s : State} (h : (engineMove s).phase = s.phase) : SameReads s (engineMove s) := by
  have same : SameReads s s := sameReads_setUnseen s s.bt s.readData s.inputs
  rcases engineMove_cases s with ⟨-, he⟩ | ⟨-, hb, ⟨he, -⟩ | ⟨w, r, -, -, -, ⟨-, he⟩ | ⟨q, -, he⟩⟩⟩
  · rwa [he]
  · rw [he, hb] at h
    rcases complete_cases s with ⟨y, -, hc⟩ | ⟨c, -, hc⟩ <;> rw [hc] at h <;> cases h
  · rw [he]
    exact { same with }
  · obtain ⟨-, -, -, -, -, -, -, -, -, -, -, -, hmem⟩ := engineMove_frame s
    rw [he] at hmem ⊢
    exact { same with
      storage := fun off hoff => by rw [storedByte, hmem off hoff]; rfl
      output := fun hi => by rw [hb] at hi; cases hi }

/-- An event that is no write and no reset, and does not end a command, leaves what reads see. -/
theorem sameReads_handleEvent {e : Event} {s t : State} (h : handleEvent e s = .next t) (hp : t.phase = s.phase)
    (hw : ∀ a d b, e ≠ .write a d b) (hlow : e ≠ .resetLow) (hhigh : e ≠ .resetHigh) : SameReads s t := by
  rcases handleEvent_named_cases h with ⟨d, i, rfl⟩ | ⟨a, off, data, strb, he, -⟩ | rfl | he | ⟨he, -⟩ | ⟨-, b, rfl⟩
  · exact sameReads_setUnseen s s.bt d i
  · exact absurd he (hw a data strb)
  · exact sameReads_engineMove hp
  · exact absurd he hlow
  · exact absurd he hhigh
  · exact sameReads_setUnseen s b s.readData s.inputs

/-- Settles O36: a read sets the read data; no other event but a write, a reset or a completion touches what reads depend on. -/
theorem readsHaveNoSideEffect : Obligations.ReadsHaveNoSideEffect := by
  unfold Obligations.ReadsHaveNoSideEffect
  refine ⟨fun s a rest hin ha => ?_, fun s t hl h hp hw hlow hhigh off => ?_⟩
  · have ha : inRegisterSpace { s with inputs := rest } a = true := ha
    simp only [step, hin, handleEvent, atOffset, ha, if_true]
    rfl
  · refine SameReads.busRead ?_ hl off
    rcases step_cases h with ⟨-, rfl⟩ | ⟨e, rest, hin, h⟩
    · exact sameReads_engineMove hp
    · exact { sameReads_handleEvent h hp (fun a d b he => hw a d b rest (he ▸ hin)) (fun he => hlow rest (he ▸ hin))
        (fun he => hhigh rest (he ▸ hin)) with }

end Sys2Proof.Machine
end

section
/-! PROOFS. The statements of 30_encoding.md on the command words: the opcode map (R108), the illegal words (R109) and the legal ones (R110).
The well-formed fields are those of commands, and a word is known by its fields; so the decoder, which inverts the encoder, accepts
the words with well-formed fields. -/

namespace Sys2Proof

open Machine

/-! ## A word and its fields (30_encoding.md R101) -/

/-- A word is built from its own fields. -/
theorem Fields.join_split (w : Word) : (Fields.split w).join = w := by
  have glue {a m b n : Nat} (h : b = a + m) : w.extractLsb' b n ++ w.extractLsb' a m = w.extractLsb' a (n + m) :=
    BitVec.extractLsb'_append_extractLsb'_eq_extractLsb' h
  simp only [Fields.join, Fields.split]
  rw [glue (show 15 = 12 + 3 from rfl), glue (show 12 = 11 + 1 from rfl), glue (show 11 = 8 + 3 from rfl),
    glue (show 8 = 4 + 4 from rfl), glue (show 4 = 0 + 4 from rfl), BitVec.extractLsb'_eq_self]

theorem Fields.split_injective : Function.Injective Fields.split := Function.LeftInverse.injective Fields.join_split

theorem Fields.split_and (v w : Word) :
    Fields.split (v &&& w) =
      { op := (Fields.split v).op &&& (Fields.split w).op, rsv0 := (Fields.split v).rsv0 &&& (Fields.split w).rsv0,
        mode := (Fields.split v).mode &&& (Fields.split w).mode, rsv1 := (Fields.split v).rsv1 &&& (Fields.split w).rsv1,
        pad := (Fields.split v).pad &&& (Fields.split w).pad, rsv2 := (Fields.split v).rsv2 &&& (Fields.split w).rsv2 } := by
  simp only [Fields.split, BitVec.extractLsb'_and]

/-- The mask of R109 holds the reserved fields and no others. -/
theorem reservedBits_clear_iff (w : Word) : w &&& 0xFFFF88F0#32 = 0#32 ↔ (Fields.split w).reservedZero = true := by
  rw [← Fields.split_injective.eq_iff, Fields.split_and,
    show Fields.split 0xFFFF88F0#32 = ⟨0#4, BitVec.allOnes 4, 0#3, BitVec.allOnes 1, 0#3, BitVec.allOnes 17⟩ from rfl,
    show Fields.split 0#32 = ⟨0#4, 0#4, 0#3, 0#1, 0#3, 0#17⟩ from rfl]
  simp only [BitVec.and_zero, BitVec.and_allOnes, Fields.mk.injEq, true_and, Fields.reservedZero, Bool.and_eq_true, beq_iff_eq,
    and_assoc]

/-- The mask of R108 leaves out the PAD field only, so the masked word and the PAD field make the word. -/
theorem eq_of_masked_eq_of_pad_eq {v w : Word} (hm : v &&& 0xFFFF8FFF#32 = w &&& 0xFFFF8FFF#32)
    (hp : v.extractLsb' 12 3 = w.extractLsb' 12 3) : v = w := by
  rw [← Fields.split_injective.eq_iff, Fields.split_and, Fields.split_and,
    show Fields.split 0xFFFF8FFF#32 = ⟨BitVec.allOnes 4, BitVec.allOnes 4, BitVec.allOnes 3, BitVec.allOnes 1, 0#3,
      BitVec.allOnes 17⟩ from rfl] at hm
  apply Fields.split_injective
  simp only [BitVec.and_allOnes, BitVec.and_zero, Fields.mk.injEq] at hm
  obtain ⟨hop, hrsv0, hmode, hrsv1, -, hrsv2⟩ := hm
  rw [Fields.split, Fields.split, Fields.mk.injEq]
  exact ⟨hop, hrsv0, hmode, hrsv1, hp, hrsv2⟩

/-! ## The well-formed fields are those of commands (30_encoding.md R102 to R104, R107) -/

/-- The MODE value of a mode, 30_encoding.md R103. -/
def Mode.field : Mode → BitVec 3
  | .ecb => 0
  | .cbc => 1
  | .pcbc => 2
  | .cfb => 3
  | .ofb => 4
  | .ctr => 5

theorem Padding.field_eq_of_ofField {v : BitVec 3} {p : Padding} (h : Padding.ofField v = some p) : p.field = v := by
  revert v
  cases p <;> decide

theorem Mode.field_eq_of_ofField {v : BitVec 3} {m : Mode} (h : Mode.ofField v = some m) : m.field = v := by
  revert v
  cases m <;> decide

theorem Padding.toNat_field_le (p : Padding) : p.field.toNat ≤ 4 := by
  cases p <;> decide

theorem Padding.isSome_ofField : ∀ v : BitVec 3, (Padding.ofField v).isSome = true ↔ v.toNat ≤ 4 := by decide

theorem Mode.isSome_ofField : ∀ v : BitVec 3, (Mode.ofField v).isSome = true ↔ v.toNat ≤ 5 := by decide

theorem Padding.exists_field_eq {v : BitVec 3} (h : v.toNat ≤ 4) : ∃ p : Padding, p.field = v :=
  (Option.isSome_iff_exists.mp ((Padding.isSome_ofField v).mpr h)).imp fun _ => Padding.field_eq_of_ofField

theorem Mode.exists_field_eq {v : BitVec 3} (h : v.toNat ≤ 5) : ∃ m : Mode, m.field = v :=
  (Option.isSome_iff_exists.mp ((Mode.isSome_ofField v).mpr h)).imp fun _ => Mode.field_eq_of_ofField

theorem Instr.fields_enc (m : Mode) (p : Padding) : (Instr.enc m p).fields = ⟨1#4, 0#4, m.field, 0#1, p.field, 0#17⟩ := by
  cases m <;> rfl

theorem Instr.fields_dec (m : Mode) (p : Padding) : (Instr.dec m p).fields = ⟨2#4, 0#4, m.field, 0#1, p.field, 0#17⟩ := by
  cases m <;> rfl

/-- The checks of the field tables, as what each says of its field. -/
theorem Fields.wellFormed_iff (f : Fields) :
    f.wellFormed = true ↔ f.reservedZero = true ∧ f.pad.toNat ≤ 4 ∧
      ((f.op = 1#4 ∨ f.op = 2#4) ∧ f.mode.toNat ≤ 5 ∨ (f.op = 3#4 ∨ f.op = 4#4) ∧ f.mode = 0#3) := by
  have hop : (f.opDefined && f.modeDefined && f.modeAbsent) = true ↔
      ((f.op = 1#4 ∨ f.op = 2#4) ∧ f.mode.toNat ≤ 5 ∨ (f.op = 3#4 ∨ f.op = 4#4) ∧ f.mode = 0#3) := by
    unfold opDefined modeDefined modeAbsent
    generalize f.op = op, f.mode = mode
    revert op mode
    decide
  rw [← hop, wellFormed, padDefined]
  simp only [Bool.and_eq_true, decide_eq_true_eq]
  tauto

/-- Well-formed fields are those of a command. -/
theorem Fields.exists_fields_eq {f : Fields} (h : f.wellFormed = true) : ∃ i : Instr, i.fields = f := by
  obtain ⟨op, rsv0, mode, rsv1, pad, rsv2⟩ := f
  obtain ⟨hrsv, hpad, hop⟩ := (Fields.wellFormed_iff _).mp h
  simp only [reservedZero, Bool.and_eq_true, beq_iff_eq] at hrsv
  obtain ⟨⟨rfl, rfl⟩, rfl⟩ := hrsv
  obtain ⟨p, rfl⟩ := Padding.exists_field_eq hpad
  rcases hop with ⟨hop, hmode⟩ | ⟨hop, rfl : mode = 0#3⟩
  · obtain ⟨m, rfl⟩ := Mode.exists_field_eq hmode
    rcases hop with rfl | rfl
    · exact ⟨.enc m p, Instr.fields_enc m p⟩
    · exact ⟨.dec m p, Instr.fields_dec m p⟩
  · rcases hop with rfl | rfl
    · exact ⟨.pad p, rfl⟩
    · exact ⟨.unpad p, rfl⟩

/-- A word with well-formed fields is a command's. -/
theorem exists_encode_eq {w : Word} (h : (Fields.split w).wellFormed = true) : ∃ i, encode i = w := by
  obtain ⟨i, hi⟩ := Fields.exists_fields_eq h
  exact ⟨i, by rw [encode, hi, Fields.join_split]⟩

/-- The decoder lets through well-formed fields only: each of its tests makes a check. -/
theorem wellFormed_of_decode {w : Word} {i : Instr} (h : decode w = .ok i) : (Fields.split w).wellFormed = true := by
  dsimp only [decode] at h
  split at h
  · cases h
  next hrsv =>
  split at h
  · cases h
  next hop =>
  split at h
  · cases h
  next p hpad =>
  refine (Fields.wellFormed_iff _).mpr ⟨(reservedBits_clear_iff w).mp (not_not.mp hrsv),
    (Padding.isSome_ofField _).mp (Option.isSome_of_eq_some hpad), ?_⟩
  split at h
  next hed =>
    split at h
    · cases h
    next m hmode => exact .inl ⟨hed, (Mode.isSome_ofField _).mp (Option.isSome_of_eq_some hmode)⟩
  next hed =>
    split at h
    · cases h
    next hmode => exact .inr ⟨by bv_omega, not_not.mp hmode⟩

/-! ## The decoder accepts the words of commands (30_encoding.md R109, R110) -/

/-- Settles O1: a word that decodes is a command's, and that command's word decodes to it alone. -/
theorem decodeAndEncodeAgree : Obligations.DecodeAndEncodeAgree := by
  unfold Obligations.DecodeAndEncodeAgree
  intro w i
  constructor
  · intro h
    obtain ⟨j, rfl⟩ := exists_encode_eq (wellFormed_of_decode h)
    cases (decode_encode j).symm.trans h
    rfl
  · rintro rfl
    exact decode_encode i

theorem decode_ok_iff_wellFormed (w : Word) : (∃ i, decode w = .ok i) ↔ (Fields.split w).wellFormed = true := by
  refine ⟨fun ⟨i, h⟩ => wellFormed_of_decode h, fun h => ?_⟩
  obtain ⟨i, rfl⟩ := exists_encode_eq h
  exact ⟨i, decode_encode i⟩

theorem decode_error_iff_wellFormed (w : Word) : (∃ e, decode w = .error e) ↔ (Fields.split w).wellFormed = false := by
  rw [← Bool.not_eq_true, ← decode_ok_iff_wellFormed]
  cases decode w <;> simp

/-! ## The items of R109, each a check of the field tables that fails -/

section Items
variable (f : Fields)

theorem Fields.opDefined_eq_false_iff : f.opDefined = false ↔ f.op.toNat ∉ [1, 2, 3, 4] := by
  unfold opDefined
  generalize f.op = op
  revert op
  decide

theorem Fields.modeDefined_eq_false_iff : f.modeDefined = false ↔ f.op.toNat ∈ [1, 2] ∧ f.mode.toNat ∈ [6, 7] := by
  unfold modeDefined
  generalize f.op = op, f.mode = mode
  revert op mode
  decide

theorem Fields.padDefined_eq_false_iff : f.padDefined = false ↔ f.pad.toNat ∈ [5, 6, 7] := by
  unfold padDefined
  generalize f.pad = pad
  revert pad
  decide

theorem Fields.modeAbsent_eq_false_iff : f.modeAbsent = false ↔ f.op.toNat ∈ [3, 4] ∧ f.mode ≠ 0#3 := by
  unfold modeAbsent
  generalize f.op = op, f.mode = mode
  revert op mode
  decide

theorem Fields.wellFormed_eq_false_iff :
    f.wellFormed = false ↔ f.reservedZero = false ∨ f.opDefined = false ∨ f.modeDefined = false ∨ f.padDefined = false ∨
      f.modeAbsent = false := by
  simp only [wellFormed, Bool.and_eq_false_iff, or_assoc, or_left_comm (a := f.padDefined = false)]

end Items

theorem reservedBit_set_iff (w : Word) : w &&& 0xFFFF88F0#32 ≠ 0#32 ↔ (Fields.split w).reservedZero = false := by
  rw [Ne, reservedBits_clear_iff, Bool.not_eq_true]

/-- Settles O3: a word is rejected when a check of the field tables fails, and each item is one of the checks. -/
theorem illegalWordsAreTheFiveItems : Obligations.IllegalWordsAreTheFiveItems := by
  unfold Obligations.IllegalWordsAreTheFiveItems
  intro w
  refine ⟨?_, decode_error_iff_wellFormed w⟩
  rw [decode_error_iff_wellFormed, Fields.wellFormed_eq_false_iff, ← reservedBit_set_iff, Fields.opDefined_eq_false_iff,
    Fields.modeDefined_eq_false_iff, Fields.padDefined_eq_false_iff, Fields.modeAbsent_eq_false_iff]
  rfl

/-! ## The opcode map (30_encoding.md R108) -/

/-- `match | (p << 12)` of 30_encoding.md R108. -/
def rowWord (m : Word) (p : Padding) : Word := m ||| (p.field.zeroExtend 32 <<< 12)

theorem exists_row_eq (i : Instr) : ∃ row ∈ opcodeRows, ∃ p, row.2 p = i := by
  cases i <;> simp [opcodeRows]

theorem encode_row {row : Word × (Padding → Instr)} (h : row ∈ opcodeRows) (p : Padding) :
    encode (row.2 p) = rowWord row.1 p := by
  revert row
  cases p <;> decide

theorem rowWord_masked {row : Word × (Padding → Instr)} (h : row ∈ opcodeRows) (p : Padding) :
    rowWord row.1 p &&& 0xFFFF8FFF#32 = row.1 := by
  revert row
  cases p <;> decide

theorem rowWord_pad {row : Word × (Padding → Instr)} (h : row ∈ opcodeRows) (p : Padding) :
    (rowWord row.1 p).extractLsb' 12 3 = p.field := by
  revert row
  cases p <;> decide

theorem decode_row {row : Word × (Padding → Instr)} (h : row ∈ opcodeRows) (p : Padding) :
    decode (rowWord row.1 p) = .ok (row.2 p) := by
  rw [← encode_row h, decode_encode]

/-- A word that matches a row and has a defined PAD field is the row's word with that scheme. -/
theorem exists_rowWord_eq {row : Word × (Padding → Instr)} (h : row ∈ opcodeRows) {w : Word}
    (hm : w &&& 0xFFFF8FFF#32 = row.1) (hp : (w.extractLsb' 12 3).toNat ≤ 4) : ∃ p, rowWord row.1 p = w := by
  obtain ⟨p, hp⟩ := Padding.exists_field_eq hp
  exact ⟨p, eq_of_masked_eq_of_pad_eq ((rowWord_masked h p).trans hm.symm) ((rowWord_pad h p).trans hp)⟩

/-- Settles O2: the words of the rows are those of the commands, and a word is known by its row and its scheme. -/
theorem decodeFollowsTheOpcodeMap : Obligations.DecodeFollowsTheOpcodeMap := by
  unfold Obligations.DecodeFollowsTheOpcodeMap
  refine ⟨fun w => ⟨?_, ?_⟩, fun row h p => decode_row h p, by decide⟩
  · rintro ⟨i, hi⟩
    obtain ⟨row, hrow, p, rfl⟩ := exists_row_eq i
    obtain rfl : rowWord row.1 p = w := (encode_row hrow p).symm.trans ((decodeAndEncodeAgree w _).mp hi)
    exact ⟨row, hrow, rowWord_masked hrow p, by rw [rowWord_pad hrow]; exact p.toNat_field_le⟩
  · rintro ⟨row, hrow, hm, hp⟩
    obtain ⟨p, rfl⟩ := exists_rowWord_eq hrow hm hp
    exact ⟨row.2 p, decode_row hrow p⟩

/-! ## Words of the spec (30_encoding.md R108, R111; 95_test_vectors.md section 3) -/

/-- Settles O5: the legal words are those of their commands, and each other word fails the test its item names. -/
theorem wordsOfTheSpecDecode : Obligations.WordsOfTheSpecDecode := by
  unfold Obligations.WordsOfTheSpecDecode
  exact ⟨decode_encode (.encCbc .pkcs7), decode_encode (.unpad .bit), decode_encode (.encCtr .none),
    decode_encode (.decCbc .pkcs7), decode_encode (.decCtr .iso7816), decode_encode (.pad .pkcs7), by decide⟩

end Sys2Proof
end

section
/-! PROOFS. The statements of 40_padding.md: the validator and `pad` are inverse to each other (R126 to R133), and UNPAD completes with
the validator's answer (R135). -/

namespace Sys2Proof.Machine

open Sys2Proof.Safety

/-! ## The validator accepts what `pad` produces (40_padding.md R126 to R131) -/

/-- Every scheme but None appends as many bytes as its count says. -/
theorem paddingBytes_length {p : Padding} (hp : p ≠ .none) {k : Nat} (hk : 1 ≤ k) : (paddingBytes k p).length = k := by
  cases p with
  | none => exact absurd rfl hp
  | bit | x923 | iso7816 => simp [paddingBytes, Nat.sub_add_cancel hk]
  | pkcs7 => simp [paddingBytes]

/-- The `k` bytes of PKCS#7 are `k - 1` bytes that repeat the last one, and the last one. -/
theorem paddingBytes_pkcs7 {k : Nat} (hk : 1 ≤ k) :
    paddingBytes k .pkcs7 = List.replicate (k - 1) (BitVec.ofNat 8 k) ++ [BitVec.ofNat 8 k] := by
  rw [← List.replicate_succ', Nat.sub_add_cancel hk, paddingBytes]

/-- For a scheme other than None the validator accepts a message and what the scheme appends for some count up to a block. -/
theorem unpad_eq_output_iff_exists {n : Nat} {p : Padding} {b : Bytes} (hn : 1 ≤ n) (hw : p = .pkcs7 ∨ p = .x923 → n ≤ 255)
    (hb : b.length % n = 0) (hp : p ≠ .none) (x : Bytes) :
    unpad n p b = .output x ↔ ∃ k, 1 ≤ k ∧ k ≤ n ∧ b = x ++ paddingBytes k p := by
  cases p with
  | none => exact absurd rfl hp
  | bit | iso7816 => exact unpadMarker_eq_output_iff hn hb x
  | x923 => exact unpadCounted_eq_output_iff hn (hw (.inr rfl)) (fun _ => 0x00#8) hb x
  | pkcs7 =>
    refine (unpadCounted_eq_output_iff hn (hw (.inl rfl)) (fun last => last) hb x).trans
      (exists_congr fun k => and_congr_right fun hk => ?_)
    rw [paddingBytes_pkcs7 hk]

/-- On whole blocks, what a scheme appends within one block has the padding count that `pad` works with. -/
theorem exists_append_paddingBytes_iff {n : Nat} {p : Padding} {b : Bytes} (hn : 1 ≤ n) (hb : b.length % n = 0) (hp : p ≠ .none)
    (x : Bytes) :
    (∃ k, 1 ≤ k ∧ k ≤ n ∧ b = x ++ paddingBytes k p) ↔ b = x ++ paddingBytes (padCount n x.length) p := by
  constructor
  · rintro ⟨k, h1, h2, rfl⟩
    rw [List.length_append, paddingBytes_length hp h1] at hb
    rw [padCount_eq_of_mod h1 h2 hb]
  · exact fun h => ⟨_, padCount_pos hn, padCount_le n _, h⟩

/-- On whole blocks, `unpad` gives `x` exactly when `pad` makes the blocks from `x`. -/
theorem unpad_eq_output_iff_pad {n : Nat} {p : Padding} {b : Bytes} (hn : 1 ≤ n) (hw : p = .pkcs7 ∨ p = .x923 → n ≤ 255)
    (hb : b.length % n = 0) (x : Bytes) : unpad n p b = .output x ↔ pad n p x = .output b := by
  by_cases hp : p = .none
  · subst hp
    constructor
    · intro h
      obtain rfl : b = x := Result.output.inj h
      simp [pad, hb]
    · intro h
      obtain ⟨-, -, -, hbx⟩ := pad_length hn h
      rw [hbx rfl, unpad]
  · rw [unpad_eq_output_iff_exists hn hw hb hp, exists_append_paddingBytes_iff hn hb hp, pad_eq_output (absurd · hp),
      Result.output.injEq, eq_comm]

/-- What `pad` produces from no sequence, the validator rejects. -/
theorem unpad_eq_badPadding {n : Nat} {p : Padding} {b : Bytes} (hn : 1 ≤ n) (hw : p = .pkcs7 ∨ p = .x923 → n ≤ 255)
    (hb : b.length % n = 0) (h : ∀ x, pad n p x ≠ .output b) : unpad n p b = .error .badPadding := by
  cases hu : unpad n p b with
  | output x => exact absurd ((unpad_eq_output_iff_pad hn hw hb x).1 hu) (h x)
  | error c => rw [unpad_error hu]

/-- Settles O20: what the validator accepts for a count, `pad` appends with that count, since both make whole blocks. -/
theorem validatorAcceptsExactlyPaddedSequences : Obligations.ValidatorAcceptsExactlyPaddedSequences := by
  unfold Obligations.ValidatorAcceptsExactlyPaddedSequences
  exact fun n p b hn _ hw hb => ⟨unpad_eq_output_iff_pad hn hw hb, unpad_eq_badPadding hn hw hb⟩

/-! ## Laws (40_padding.md R132, R133) -/

/-- Settles O21: a padded sequence is a whole number of blocks, so the validator accepts it. -/
theorem unpadUndoesPad : Obligations.UnpadUndoesPad := by
  unfold Obligations.UnpadUndoesPad
  intro n p x hn _ hw hx
  have hpad := pad_eq_output hx
  obtain ⟨hmod, -⟩ := pad_length hn hpad
  exact ⟨_, hpad, (unpad_eq_output_iff_pad hn hw hmod x).2 hpad⟩

/-- With blocks of one byte, `pad` appends what its scheme appends for the count 1. -/
theorem pad_one {p : Padding} (hp : p ≠ .none) (x : Bytes) : pad 1 p x = .output (x ++ paddingBytes 1 p) := by
  have hcount : padCount 1 x.length = 1 := padCount_eq_of_mod le_rfl le_rfl (Nat.mod_one _)
  rw [pad_eq_output (absurd · hp), hcount]

/-- Settles O22: the two schemes have the same rules, and a block of one byte leaves room for the last byte of a scheme only. -/
theorem bitAndIsoAreIndistinguishable : Obligations.BitAndIsoAreIndistinguishable := by
  unfold Obligations.BitAndIsoAreIndistinguishable
  exact ⟨fun n x => ⟨rfl, rfl⟩, fun x =>
    ⟨pad_one (p := .pkcs7) nofun x, pad_one (p := .x923) nofun x, pad_one (p := .bit) nofun x, pad_one (p := .iso7816) nofun x⟩⟩

/-! ## UNPAD (40_padding.md R135) -/

/-- A failing completion shows its error and no output, 43_facade.md R231, R236. -/
theorem completeError_showsError (s : State) (c : Cause) : ShowsError (completeError s c) c :=
  ⟨rfl, ⟨rfl, rfl⟩, rfl, rfl, fun b => by simp [readOut]⟩

/-- A completion shows the result it commits, 43_facade.md R230, R231. -/
theorem complete_shows {s : State} (h : ∀ y, s.res = .output y → y.length < 2 ^ 32) : Shows (complete s) s.res := by
  rcases complete_cases s with ⟨y, hy, hc⟩ | ⟨c, hr, hc⟩
  · rw [hc, hy]
    exact completeOk_showsOutput s (h y hy)
  · rw [hc, hr]
    exact completeError_showsError s c

/-- A completion makes no request. -/
theorem complete_btLog (s : State) : (complete s).btLog = s.btLog := by
  rcases complete_cases s with ⟨y, -, hc⟩ | ⟨c, -, hc⟩ <;> rw [hc] <;> rfl

/-- The work UNPAD has when its checks pass: the validator over the message, and no blocks. -/
theorem unpadJob_of_runs {p : Padding} {s : State} (h : Runs (.unpad p) s) :
    unpadJob p s = .work { input := message s, rule := none, writesBlocks := false, finish := unpad s.cfg.n p } := by
  have haligned : misaligned s = false := by simpa [misaligned] using aligned_of_runs h rfl
  rw [unpadJob, schemeTooWide_of_runs h rfl, exceedsCapacity_of_runs h, haligned]
  rfl

/-- Settles O19: the checks passed leave the validator as UNPAD's whole work, so the next move commits its answer. -/
theorem unpadStripsExactlyWhatPadWrites : Obligations.UnpadStripsExactlyWhatPadWrites := by
  unfold Obligations.UnpadStripsExactlyWhatPadWrites
  intro p s h
  obtain ⟨hn, -, -, hcap, -⟩ := (legal_iff _).1 h.legal
  obtain ⟨hw, -⟩ := (firstFailing_eq_none_iff _ s).1 h.checks
  have hwide : p = .pkcs7 ∨ p = .x923 → s.cfg.n ≤ 255 := by simpa [paddingUsed] using hw
  have hmod : (message s).length % s.cfg.n = 0 := by rw [message_length]; exact aligned_of_runs h rfl
  have hjob := unpadJob_of_runs h
  set t := accept s (encode (.unpad p)) (some (.unpad p)) (unpad s.cfg.n p (message s))
  have hexec : exec (.unpad p) s = .next t := by
    rw [exec_ready h.ready, show commandJob (.unpad p) s = _ from hjob]; rfl
  have hmove : engineMove t = complete t :=
    engineMove_of_no_rule h.ready.1 rfl ((curJob_accept h.legal _ _ _).trans hjob) rfl
  have hfits : ∀ y, t.res = .output y → y.length < 2 ^ 32 := fun y hy => by
    have hlen : y.length ≤ s.cfg.outCap := (commandJob_output_length (i := .unpad p) h.legal hjob).2 y hy
    unfold Config.outCap at hlen; omega
  exact ⟨t, complete t, hexec, hmove, complete_shows hfits, complete_btLog t,
    unpad_eq_output_iff_pad hn hwide hmod, unpad_eq_badPadding hn hwide hmod⟩

end Sys2Proof.Machine
end

section
/-! PROOFS. A command runs to its completion (43_facade.md section 3): the engine, left to itself, does the blocks of the running command
and then commits RES; and the checks 2 to 5 (R222) decide whether there is anything to do. -/

namespace Sys2Proof.Machine

open Sys2Proof.Safety

/-! ## The engine, left to itself (43_facade.md R228, R232, R234) -/

/-- One move more. -/
theorem engineMoves_succ (k : Nat) (s : State) : engineMoves (k + 1) s = engineMove (engineMoves k s) := by
  induction k generalizing s with
  | zero => rfl
  | succ k ih => exact ih (engineMove s)

/-- RES stays as the accept fixed it, 43_facade.md R220. -/
theorem engineMoves_res (k : Nat) (s : State) : (engineMoves k s).res = s.res := by
  induction k generalizing s with
  | zero => rfl
  | succ k ih =>
    obtain ⟨-, -, -, -, -, -, -, -, -, -, -, hres, -⟩ := engineMove_frame s
    exact (ih (engineMove s)).trans hres

/-- The command of a state is still running after every number of moves up to `k`, and the next move is its completion. -/
structure CompletesAfter (k : Nat) (s : State) : Prop where
  busy : ∀ j, j ≤ k → (engineMoves j s).phase = .busy
  last : engineMove (engineMoves k s) = complete (engineMoves k s)

/-- A running command whose next move is its completion. -/
theorem completesAfter_zero {s : State} (hb : s.phase = .busy) (h : engineMove s = complete s) : CompletesAfter 0 s where
  busy j hj := by obtain rfl := Nat.le_zero.1 hj; exact hb
  last := h

/-- A move that goes on with the command is one more before its completion. -/
theorem CompletesAfter.succ {k : Nat} {s : State} (hb : s.phase = .busy) (h : CompletesAfter k (engineMove s)) :
    CompletesAfter (k + 1) s where
  busy
    | 0, _ => hb
    | j + 1, hj => h.busy j (Nat.le_of_succ_le_succ hj)
  last := h.last

/-- A command with blocks is running. -/
structure Working (s : State) (w : Work) (r : BlockRule) : Prop where
  legal : s.cfg.legal = true
  rstN : s.rstN = true
  busy : s.phase = .busy
  job : curJob s.cur s = .work w
  rule : w.rule = some r

namespace Working

variable {s : State} {w : Work} {r : BlockRule}

/-- A move that goes on with the command leaves it running. -/
theorem next (h : Working s w r) (hb : (engineMove s).phase = .busy) : Working (engineMove s) w r := by
  obtain ⟨hcfg, -, hrst, -, -, -, -, -, -, -, hcur, -, -⟩ := engineMove_frame s
  exact ⟨by rw [hcfg]; exact h.legal, by rw [hrst]; exact h.rstN, hb,
    by rw [hcur, curJob_congr (engineMove_sameOperands hb) h.legal]; exact h.job, h.rule⟩

theorem engineMove_request (h : Working s w r) (hlt : s.blk < blockCount s.cfg.n w.input.length) (hp : s.btPending = none) :
    engineMove s = issueRequest r (blockAt s.cfg.n w.input s.blk) s := by
  simp [engineMove, h.rstN, h.busy, h.job, h.rule, hlt, hp]

theorem engineMove_answer (h : Working s w r) (hlt : s.blk < blockCount s.cfg.n w.input.length) {q : BtRequest}
    (hp : s.btPending = some q) : engineMove s = takeAnswer w r (blockAt s.cfg.n w.input s.blk) q s := by
  simp [engineMove, h.rstN, h.busy, h.job, h.rule, hlt, hp]

theorem engineMove_last (h : Working s w r) (hge : blockCount s.cfg.n w.input.length ≤ s.blk) : engineMove s = complete s := by
  simp [engineMove, h.rstN, h.busy, h.job, h.rule, Nat.not_lt.2 hge]

/-- A running command completes two moves after each block still to do, a request and its answer. -/
theorem completesAfter (h : Working s w r) (hp : s.btPending = none) {m : Nat}
    (hm : blockCount s.cfg.n w.input.length - s.blk = m) : CompletesAfter (2 * m) s := by
  induction m generalizing s with
  | zero => exact completesAfter_zero h.busy (h.engineMove_last (Nat.sub_eq_zero_iff_le.1 hm))
  | succ m ih =>
    have hlt : s.blk < blockCount s.cfg.n w.input.length := by omega
    have hreq := h.engineMove_request hlt hp
    have hu : Working (engineMove s) w r := h.next (by rw [hreq]; exact h.busy)
    have hans : engineMove (engineMove s) = takeAnswer w r _ _ (engineMove s) :=
      hu.engineMove_answer (by rw [hreq]; exact hlt) (by rw [hreq]; rfl)
    have hv : Working (engineMove (engineMove s)) w r := hu.next (by rw [hans]; exact hu.busy)
    have hrest : CompletesAfter (2 * m) (engineMove (engineMove s)) := by
      refine ih hv (by rw [hans]; rfl) ?_
      rw [hans, takeAnswer_cfg, takeAnswer_blk, hreq, issueRequest_cfg, issueRequest_blk]
      omega
    exact (hrest.succ hu.busy).succ h.busy

end Working

/-- An accepted command completes two moves after each of its requests, 43_facade.md R232. -/
theorem completesAfter_accept {s : State} (hl : s.cfg.legal = true) (hr : s.rstN = true) (w : Word) (i : Instr) (res : Result) :
    CompletesAfter (2 * ((commandJob i s).requests s).length) (accept s w (some i) res) := by
  have hcur := curJob_accept hl w i res
  set t := accept s w (some i) res
  have hrt : t.rstN = true := hr
  cases hj : commandJob i s with
  | stop c => exact completesAfter_zero rfl (by simp [engineMove, hrt, hcur, hj, show t.phase = .busy from rfl])
  | work v =>
    rw [hj] at hcur
    cases hv : v.rule with
    | none =>
      simp only [Job.requests, Work.run, hv, List.length_nil, Nat.mul_zero]
      exact completesAfter_zero rfl (engineMove_of_no_rule hrt rfl hcur hv)
    | some r =>
      simp only [Job.requests, Work.run, hv, runBlocks_requests_length, blocks_length]
      exact Working.completesAfter (s := t) ⟨hl, hrt, rfl, hcur, hv⟩ rfl (Nat.sub_zero _)

/-- The result of a command fits OUT_LEN. -/
theorem result_fits {s : State} (hl : s.cfg.legal = true) {i : Instr} {y : Bytes} (h : (commandJob i s).result s = .output y) :
    y.length < 2 ^ 32 := by
  obtain ⟨-, -, -, hcap, -⟩ := (legal_iff _).1 hl
  cases hj : commandJob i s with
  | stop c => rw [hj] at h; cases h
  | work w =>
    rw [hj] at h
    have hy := (commandJob_output_length hl hj).2 y h
    unfold Config.outCap at hy
    omega

/-- A command that MOCE takes answers a next state with the result of its job, and the engine, left to itself, shows it. -/
theorem exec_completes {s : State} (hl : s.cfg.legal = true) (h : Ready s) (i : Instr) :
    ∃ t k, exec i s = .next t ∧ t.res = (commandJob i s).result s ∧ Shows (engineMoves k t) ((commandJob i s).result s) := by
  have hdone := completesAfter_accept hl h.1 (encode i) i ((commandJob i s).result s)
  set t := accept s (encode i) (some i) ((commandJob i s).result s)
  set k := 2 * ((commandJob i s).requests s).length
  have hres : (engineMoves k t).res = (commandJob i s).result s := engineMoves_res k t
  refine ⟨t, k + 1, exec_ready h i, rfl, ?_⟩
  rw [engineMoves_succ, hdone.last, ← hres]
  exact complete_shows fun y hy => result_fits hl (hres.symm.trans hy)

/-! ## The checks 2 to 5 (43_facade.md R222) -/

/-- The checks 2 to 5 of a command, as the jobs make them, before what they leave. -/
def checked (i : Instr) (s : State) (j : Job) : Job :=
  .failIf ((paddingUsed i).any (schemeTooWide s)) .padBlockSize <|
  .failIf (exceedsCapacity s) .lenExceedsCap <|
  .failIf (needsIv i && ivLengthWrong s) .ivLength <|
  .failIf (needsAlignment i && misaligned s) .notAligned j

/-- The jobs stop at the check that R222 lists first among those that fail. -/
theorem checked_eq (i : Instr) (s : State) (j : Job) : checked i s j = (firstFailing i s).elim j .stop := by
  have h2 : (paddingUsed i = some .pkcs7 ∨ paddingUsed i = some .x923) ∧ 255 < s.cfg.n ↔
      (paddingUsed i).any (schemeTooWide s) = true := by
    cases paddingUsed i <;> simp [schemeTooWide]
  have h3 : s.cfg.inCap < s.inLen.toNat ↔ exceedsCapacity s = true := by simp [exceedsCapacity]
  have h4 : needsIv i = true ∧ s.ivLen.toNat ≠ s.cfg.n ↔ (needsIv i && ivLengthWrong s) = true := by simp [ivLengthWrong]
  have h5 : needsAlignment i = true ∧ s.inLen.toNat % s.cfg.n ≠ 0 ↔ (needsAlignment i && misaligned s) = true := by
    simp [misaligned]
  simp only [checked, firstFailing, Job.failIf, h2, h3, h4, h5]
  split_ifs <;> rfl

/-- Check 5 of a padding command is `pad`'s own: None raises when the message is not aligned. -/
theorem ofPadded_pad (p : Padding) (s : State) (rest : Bytes → Work) :
    Job.ofPadded (pad s.cfg.n p (message s)) rest = .failIf (p == .none && misaligned s) .notAligned
      (.work (rest (message s ++ paddingBytes (padCount s.cfg.n s.inLen.toNat) p))) := by
  by_cases h : p = .none ∧ (message s).length % s.cfg.n ≠ 0
  · rw [(pad_error_iff s.cfg.n p (message s) .notAligned).2 ⟨h.1, h.2, rfl⟩]
    rw [message_length] at h
    simp [Job.ofPadded, Job.failIf, misaligned, h.1, h.2]
  · rw [pad_eq_output fun hp => not_not.1 fun hm => h ⟨hp, hm⟩, message_length]
    rw [message_length] at h
    have hpass : (p == .none && misaligned s) = false := by simpa [misaligned] using h
    rw [hpass]
    rfl

/-- Every command makes its checks 2 to 5 before it has any work. -/
theorem commandJob_eq_checked (i : Instr) (s : State) : ∃ w, commandJob i s = checked i s (.work w) := by
  cases i with
  | encEcb p | encCbc p | encPcbc p =>
    exact ⟨_, by simp only [commandJob, encEcbJob, encCbcJob, encPcbcJob, blockEncrypt, ofPadded_pad]; rfl⟩
  | pad p => exact ⟨_, by simp only [commandJob, padJob, ofPadded_pad]; rfl⟩
  | decEcb p | decCbc p | decPcbc p | unpad p => exact ⟨_, rfl⟩
  | encCfb p | encOfb p | encCtr p | decCfb p | decOfb p | decCtr p => exact ⟨_, rfl⟩

/-- A check that fails stops the command. -/
theorem commandJob_of_failing {i : Instr} {s : State} {c : Cause} (h : firstFailing i s = some c) : commandJob i s = .stop c := by
  obtain ⟨w, hw⟩ := commandJob_eq_checked i s
  rw [hw, checked_eq, h]
  rfl

/-- When the checks pass, what they leave is left. -/
theorem checked_of_runs {i : Instr} {s : State} (h : Runs i s) (j : Job) : checked i s j = j := by
  rw [checked_eq, h.checks]
  rfl

/-- A command with an output has passed its checks. -/
theorem runs_of_output {i : Instr} {s t : State} {y : Bytes} (hl : s.cfg.legal = true) (hr : Ready s)
    (he : exec i s = .next t) (hy : t.res = .output y) : Runs i s := by
  refine ⟨hl, hr, ?_⟩
  obtain rfl := Host.Outcome.next.inj ((exec_ready hr i).symm.trans he)
  cases hf : firstFailing i s with
  | none => rfl
  | some c => rw [accept_res, commandJob_of_failing hf] at hy; cases hy

end Sys2Proof.Machine
end

section
/-! PROOFS. The block-aligned modes (41_block_modes.md sections 1 to 4): what each block of the output is (R161 to R166), and the requests
(R167). -/

namespace Sys2Proof.Machine

open Sys2Proof.Safety

/-! ## One block of a command's run (43_facade.md R228) -/

section Run

variable {i : Instr} {s : State} {w : Work} {r : BlockRule} {j : Nat}

/-- Block `j` of the output of a run is what the mode's rule makes of block `j` of the input, from where the blocks before it end. -/
theorem blockAt_run (hl : s.cfg.legal = true) (h : commandJob i s = .work w) (hr : w.rule = some r)
    (hj : j < blockCount s.cfg.n w.input.length) :
    blockAt s.cfg.n (w.run s).output j = r.outputBlock s.bt s.cfg.n (w.soFar r s j).last (blockAt s.cfg.n w.input j) := by
  obtain ⟨full, hw, hcut⟩ := (commandJob_work hl h).widths r hr
  have hj' : j < (blocks s.cfg.n w.input).length := by rwa [blocks_length]
  have hc : (initialChaining s).chain.length = s.cfg.n := ivBytes_length s
  have hblock := runBlocks_blockAt (t := s.bt) hw hc hcut hj'
  rw [blocks_getElem] at hblock
  rw [Work.run, hr]
  exact hblock

/-- A rule whose CHAIN after a block is made from the input block and the output block. -/
def BlockRule.ChainsBy (r : BlockRule) (g : Bytes → Bytes → Bytes) : Prop :=
  ∀ n c x a, (r.next n c x a).chain = g x (r.output c x a)

/-- CHAIN before block `j` is the IV, or made from the blocks `j - 1`, 41_block_modes.md R160. -/
theorem chain_soFar {g : Bytes → Bytes → Bytes} (hg : r.ChainsBy g) (hl : s.cfg.legal = true) (h : commandJob i s = .work w)
    (hr : w.rule = some r) (hj : j < blockCount s.cfg.n w.input.length) :
    (w.soFar r s j).last.chain =
      if j = 0 then ivBytes s else g (blockAt s.cfg.n w.input (j - 1)) (blockAt s.cfg.n (w.run s).output (j - 1)) := by
  cases j with
  | zero => rfl
  | succ j =>
    have hj' : j < blockCount s.cfg.n w.input.length := by omega
    rw [Work.soFar, runBlocks_take_succ _ _ _ _ _ (by rwa [blocks_length]), blocks_getElem, hg, if_neg (Nat.succ_ne_zero j),
      Nat.add_sub_cancel, blockAt_run hl h hr hj']
    rfl

end Run

theorem cbcEncRule_chainsBy : cbcEncRule.ChainsBy fun _ y => y := fun _ _ _ _ => rfl

theorem cbcDecRule_chainsBy : cbcDecRule.ChainsBy fun x _ => x := fun _ _ _ _ => rfl

theorem pcbcEncRule_chainsBy : pcbcEncRule.ChainsBy xorBytes := fun _ _ _ _ => rfl

theorem pcbcDecRule_chainsBy : pcbcDecRule.ChainsBy fun x y => xorBytes y x := fun _ _ _ _ => rfl

/-! ## ENC in a block-aligned mode (41_block_modes.md R161, R163, R165) -/

section Enc

variable {m : Mode} {p : Padding} {s : State}

/-- A block-aligned ENC whose checks pass cuts its padded message into blocks. -/
theorem pad_message_of_runs (hm : m = .ecb ∨ m = .cbc ∨ m = .pcbc) (h : Runs (Instr.enc m p) s) :
    pad s.cfg.n p (message s) = .output (encInput m p s) := by
  have haligned : p = .none → (message s).length % s.cfg.n = 0 := by
    rintro rfl
    rw [message_length]
    rcases hm with rfl | rfl | rfl <;> exact aligned_of_runs h rfl
  rw [pad_eq_output haligned, message_length]
  rcases hm with rfl | rfl | rfl <;> rfl

/-- ENC in a block-aligned mode completes with its output, which is as long as the padded message. -/
theorem enc_completes (hm : m = .ecb ∨ m = .cbc ∨ m = .pcbc) (h : Runs (Instr.enc m p) s) :
    ∃ t k, pad s.cfg.n p (message s) = .output (encInput m p s) ∧ exec (Instr.enc m p) s = .next t ∧
      t.res = .output (encOutput m p s) ∧ ShowsOutput (engineMoves k t) (encOutput m p s) ∧
      (encOutput m p s).length = (encInput m p s).length := by
  have hres : (commandJob (Instr.enc m p) s).result s = .output (encOutput m p s) := by
    rw [commandJob_enc_of_runs h]; rfl
  obtain ⟨t, k, he, ht, hs⟩ := exec_completes h.legal h.ready (Instr.enc m p)
  rw [hres] at ht hs
  exact ⟨t, k, pad_message_of_runs hm h, he, ht, hs, (enc_widths h).2⟩

theorem encOutput_ecb_block (h : Runs (.encEcb p) s) {j : Nat} (hj : j < blockCount s.cfg.n (encInput .ecb p s).length) :
    blockAt s.cfg.n (encOutput .ecb p s) j = encryptBlock s.bt s.cfg.n (blockAt s.cfg.n (encInput .ecb p s) j) :=
  blockAt_run h.legal (commandJob_enc_of_runs (m := .ecb) h) rfl hj

theorem encOutput_cbc_block (h : Runs (.encCbc p) s) {j : Nat} (hj : j < blockCount s.cfg.n (encInput .cbc p s).length) :
    blockAt s.cfg.n (encOutput .cbc p s) j = encryptBlock s.bt s.cfg.n
      (xorBytes (blockAt s.cfg.n (encInput .cbc p s) j)
        (if j = 0 then ivBytes s else blockAt s.cfg.n (encOutput .cbc p s) (j - 1))) := by
  have hjob := commandJob_enc_of_runs (m := .cbc) h
  exact (blockAt_run h.legal hjob rfl hj).trans <|
    congrArg (fun c => encryptBlock s.bt s.cfg.n (xorBytes _ c)) (chain_soFar cbcEncRule_chainsBy h.legal hjob rfl hj)

theorem encOutput_pcbc_block (h : Runs (.encPcbc p) s) {j : Nat} (hj : j < blockCount s.cfg.n (encInput .pcbc p s).length) :
    blockAt s.cfg.n (encOutput .pcbc p s) j = encryptBlock s.bt s.cfg.n
      (xorBytes (blockAt s.cfg.n (encInput .pcbc p s) j)
        (if j = 0 then ivBytes s
          else xorBytes (blockAt s.cfg.n (encInput .pcbc p s) (j - 1)) (blockAt s.cfg.n (encOutput .pcbc p s) (j - 1)))) := by
  have hjob := commandJob_enc_of_runs (m := .pcbc) h
  exact (blockAt_run h.legal hjob rfl hj).trans <|
    congrArg (fun c => encryptBlock s.bt s.cfg.n (xorBytes _ c)) (chain_soFar pcbcEncRule_chainsBy h.legal hjob rfl hj)

end Enc

/-! ## DEC in a block-aligned mode (41_block_modes.md R162, R164, R166) -/

/-- The rule of DEC in a mode. -/
def decRule : Mode → BlockRule
  | .ecb => ecbDecRule
  | .cbc => cbcDecRule
  | .pcbc => pcbcDecRule
  | .cfb => cfbDecRule
  | .ofb => ofbRule
  | .ctr => ctrRule

/-- The blocks that DEC in a mode makes of its message, before `unpad`. -/
def decOutput (m : Mode) (s : State) : Bytes :=
  (runBlocks s.bt s.cfg.n (decRule m) (initialChaining s) (blocks s.cfg.n (message s))).output

section Dec

variable {m : Mode} {p : Padding} {s : State}

/-- The work of a block-aligned DEC whose checks pass. -/
theorem commandJob_dec_of_runs (hm : m = .ecb ∨ m = .cbc ∨ m = .pcbc) (h : Runs (Instr.dec m p) s) :
    commandJob (Instr.dec m p) s = .work
      { input := message s, rule := some (decRule m), writesBlocks := false, finish := unpad s.cfg.n p } := by
  rcases hm with rfl | rfl | rfl <;> exact checked_of_runs h _

/-- The message of a block-aligned DEC whose checks pass is a whole number of blocks. -/
theorem dec_aligned (hm : m = .ecb ∨ m = .cbc ∨ m = .pcbc) (h : Runs (Instr.dec m p) s) : s.inLen.toNat % s.cfg.n = 0 := by
  rcases hm with rfl | rfl | rfl <;> exact aligned_of_runs h rfl

/-- DEC in a block-aligned mode completes with what `unpad` makes of its blocks, which are as long as the message. -/
theorem dec_completes (hm : m = .ecb ∨ m = .cbc ∨ m = .pcbc) (h : Runs (Instr.dec m p) s) :
    ∃ t k, exec (Instr.dec m p) s = .next t ∧ t.res = unpad s.cfg.n p (decOutput m s) ∧
      Shows (engineMoves k t) (unpad s.cfg.n p (decOutput m s)) ∧ (decOutput m s).length = s.inLen.toNat := by
  have hjob := commandJob_dec_of_runs hm h
  have hres : (commandJob (Instr.dec m p) s).result s = unpad s.cfg.n p (decOutput m s) := by rw [hjob]; rfl
  obtain ⟨t, k, he, ht, hs⟩ := exec_completes h.legal h.ready (Instr.dec m p)
  rw [hres] at ht hs
  exact ⟨t, k, he, ht, hs, (commandJob_output_length h.legal hjob).1.trans (message_length s)⟩

theorem decOutput_ecb_block (h : Runs (.decEcb p) s) {j : Nat} (hj : j < blockCount s.cfg.n s.inLen.toNat) :
    blockAt s.cfg.n (decOutput .ecb s) j = decryptBlock s.bt s.cfg.n (blockAt s.cfg.n (message s) j) :=
  blockAt_run h.legal (commandJob_dec_of_runs (.inl rfl) h) rfl (by rwa [message_length])

theorem decOutput_cbc_block (h : Runs (.decCbc p) s) {j : Nat} (hj : j < blockCount s.cfg.n s.inLen.toNat) :
    blockAt s.cfg.n (decOutput .cbc s) j = xorBytes (decryptBlock s.bt s.cfg.n (blockAt s.cfg.n (message s) j))
      (if j = 0 then ivBytes s else blockAt s.cfg.n (message s) (j - 1)) := by
  have hjob := commandJob_dec_of_runs (m := .cbc) (.inr (.inl rfl)) h
  rw [← message_length] at hj
  exact (blockAt_run h.legal hjob rfl hj).trans <|
    congrArg (xorBytes _) (chain_soFar cbcDecRule_chainsBy h.legal hjob rfl hj)

theorem decOutput_pcbc_block (h : Runs (.decPcbc p) s) {j : Nat} (hj : j < blockCount s.cfg.n s.inLen.toNat) :
    blockAt s.cfg.n (decOutput .pcbc s) j = xorBytes (decryptBlock s.bt s.cfg.n (blockAt s.cfg.n (message s) j))
      (if j = 0 then ivBytes s
        else xorBytes (blockAt s.cfg.n (decOutput .pcbc s) (j - 1)) (blockAt s.cfg.n (message s) (j - 1))) := by
  have hjob := commandJob_dec_of_runs (m := .pcbc) (.inr (.inr rfl)) h
  rw [← message_length] at hj
  exact (blockAt_run h.legal hjob rfl hj).trans <|
    congrArg (xorBytes _) (chain_soFar pcbcDecRule_chainsBy h.legal hjob rfl hj)

end Dec

/-! ## The completions (41_block_modes.md R161 to R166) -/

/-- Settles O12: the command completes with its run's output, each block of which is the transform's answer to that block. -/
theorem ecbTransformsEachBlock : Obligations.EcbTransformsEachBlock := by
  unfold Obligations.EcbTransformsEachBlock
  refine ⟨fun p s h => ?_, fun p s h => ?_⟩
  · obtain ⟨t, k, hpad, he, hres, hshow, hlen⟩ := enc_completes (m := .ecb) (.inl rfl) h
    exact ⟨_, _, t, k, hpad, he, hres, hshow, hlen, fun _ => encOutput_ecb_block h⟩
  · obtain ⟨t, k, he, hres, hshow, hlen⟩ := dec_completes (m := .ecb) (.inl rfl) h
    exact ⟨_, t, k, he, hres, hshow, hlen, fun _ => decOutput_ecb_block h⟩

/-- Settles O13: as for ECB, with CHAIN the ciphertext block before. -/
theorem cbcChainsOnTheCiphertext : Obligations.CbcChainsOnTheCiphertext := by
  unfold Obligations.CbcChainsOnTheCiphertext
  refine ⟨fun p s h => ?_, fun p s h => ?_⟩
  · obtain ⟨t, k, hpad, he, hres, hshow, hlen⟩ := enc_completes (m := .cbc) (.inr (.inl rfl)) h
    exact ⟨_, _, t, k, hpad, he, hres, hshow, hlen, fun _ => encOutput_cbc_block h⟩
  · obtain ⟨t, k, he, hres, hshow, hlen⟩ := dec_completes (m := .cbc) (.inr (.inl rfl)) h
    exact ⟨_, t, k, he, hres, hshow, hlen, fun _ => decOutput_cbc_block h⟩

/-- Settles O14: as for ECB, with CHAIN the exclusive-or of the plaintext and ciphertext blocks before. -/
theorem pcbcChainsOnPlaintextAndCiphertext : Obligations.PcbcChainsOnPlaintextAndCiphertext := by
  unfold Obligations.PcbcChainsOnPlaintextAndCiphertext
  refine ⟨fun p s h => ?_, fun p s h => ?_⟩
  · obtain ⟨t, k, hpad, he, hres, hshow, hlen⟩ := enc_completes (m := .pcbc) (.inr (.inr rfl)) h
    exact ⟨_, _, t, k, hpad, he, hres, hshow, hlen, fun _ => encOutput_pcbc_block h⟩
  · obtain ⟨t, k, he, hres, hshow, hlen⟩ := dec_completes (m := .pcbc) (.inr (.inr rfl)) h
    exact ⟨_, t, k, he, hres, hshow, hlen, fun _ => decOutput_pcbc_block h⟩

/-! ## The requests (41_block_modes.md R167) -/

/-- A rule whose requests all go in one direction. -/
def BlockRule.Asks (r : BlockRule) (d : BtDirection) : Prop := ∀ n c x, (r.request n c x).dir = d

/-- The requests of a run go in the direction its rule asks. -/
theorem runBlocks_dir {r : BlockRule} {d : BtDirection} (hd : r.Asks d) (t : BlockTransform) (n : Nat) (c : Chaining)
    (xs : List Bytes) : ∀ q, q ∈ (runBlocks t n r c xs).requests → q.dir = d := by
  induction xs generalizing c with
  | nil => simp
  | cons x xs ih =>
    intro q hq
    rw [runBlocks_cons, List.mem_cons] at hq
    rcases hq with rfl | hq
    · exact hd n c x
    · exact ih _ q hq

/-- A command with blocks makes one request of N bytes for each, in the direction its rule asks. -/
theorem commandJob_requests {i : Instr} {s : State} {w : Work} {r : BlockRule} {d : BtDirection} (hl : s.cfg.legal = true)
    (h : commandJob i s = .work w) (hr : w.rule = some r) (hd : r.Asks d) :
    ((commandJob i s).requests s).length = blockCount s.cfg.n w.input.length ∧
      ∀ q, q ∈ (commandJob i s).requests s → q.dir = d ∧ q.block.length = s.cfg.n := by
  obtain ⟨full, hw, hcut⟩ := (commandJob_work hl h).widths r hr
  have hc : (initialChaining s).chain.length = s.cfg.n := ivBytes_length s
  simp only [h, Job.requests, Work.run, hr, runBlocks_requests_length, blocks_length, true_and]
  exact fun q hq => ⟨runBlocks_dir hd _ _ _ _ q hq, runBlocks_request_width hw hc hcut q hq⟩

theorem encRule_asks (m : Mode) : (encRule m).Asks .enc := by
  cases m <;> exact fun _ _ _ => rfl

theorem decRule_asks {m : Mode} (hm : m = .ecb ∨ m = .cbc ∨ m = .pcbc) : (decRule m).Asks .dec := by
  rcases hm with rfl | rfl | rfl <;> exact fun _ _ _ => rfl

/-- A block-aligned ENC whose checks pass requests `E` for each block of its padded message. -/
theorem enc_requests {m : Mode} {p : Padding} {s : State} (hm : m = .ecb ∨ m = .cbc ∨ m = .pcbc) (h : Runs (Instr.enc m p) s) :
    ∃ x, pad s.cfg.n p (message s) = .output x ∧
      ((commandJob (Instr.enc m p) s).requests s).length = x.length / s.cfg.n ∧
      ∀ q, q ∈ (commandJob (Instr.enc m p) s).requests s → q.dir = .enc ∧ q.block.length = s.cfg.n := by
  obtain ⟨hn, -⟩ := (legal_iff _).1 h.legal
  have hpad := pad_message_of_runs hm h
  have hreq := commandJob_requests h.legal (commandJob_enc_of_runs h) rfl (encRule_asks m)
  rw [blockCount_of_aligned hn (pad_length hn hpad).1] at hreq
  exact ⟨_, hpad, hreq⟩

/-- A block-aligned DEC whose checks pass requests `D` for each block of its message. -/
theorem dec_requests {m : Mode} {p : Padding} {s : State} (hm : m = .ecb ∨ m = .cbc ∨ m = .pcbc) (h : Runs (Instr.dec m p) s) :
    ((commandJob (Instr.dec m p) s).requests s).length = s.inLen.toNat / s.cfg.n ∧
      ∀ q, q ∈ (commandJob (Instr.dec m p) s).requests s → q.dir = .dec ∧ q.block.length = s.cfg.n := by
  obtain ⟨hn, -⟩ := (legal_iff _).1 h.legal
  rw [← blockCount_of_aligned hn (dec_aligned hm h), ← message_length s]
  exact commandJob_requests h.legal (commandJob_dec_of_runs hm h) rfl (decRule_asks hm)

/-- A command without a rule makes no request, whatever its checks leave. -/
theorem checked_requests_eq_nil {i : Instr} {s : State} {w : Work} (hw : w.rule = none) :
    (checked i s (.work w)).requests s = [] := by
  rw [checked_eq]
  cases firstFailing i s with
  | none => simp [Job.requests, Work.run, hw]
  | some c => rfl

/-- Settles O24: one request for each block of the work that the checks leave, and none where a check stops or there is no rule. -/
theorem blockModesRequestOncePerBlock : Obligations.BlockModesRequestOncePerBlock := by
  unfold Obligations.BlockModesRequestOncePerBlock
  refine ⟨fun i s p hi h => ?_, fun i s p hi h => ?_, fun i s c hc => ?_, fun p s => ⟨?_, ?_⟩⟩
  · rcases hi with rfl | rfl | rfl
    · exact enc_requests (m := .ecb) (.inl rfl) h
    · exact enc_requests (m := .cbc) (.inr (.inl rfl)) h
    · exact enc_requests (m := .pcbc) (.inr (.inr rfl)) h
  · rcases hi with rfl | rfl | rfl
    · exact dec_requests (m := .ecb) (.inl rfl) h
    · exact dec_requests (m := .cbc) (.inr (.inl rfl)) h
    · exact dec_requests (m := .pcbc) (.inr (.inr rfl)) h
  · rw [commandJob_of_failing hc]; rfl
  · rw [padJob, ofPadded_pad]
    exact checked_requests_eq_nil (i := .pad p) rfl
  · exact checked_requests_eq_nil (i := .unpad p) rfl

end Sys2Proof.Machine
end

section
/-! PROOFS. Properties of the block-aligned modes (41_block_modes.md section 5): DEC undoes ENC block by block (R168), and what a changed byte
of the first block changes (R169). -/

namespace Sys2Proof.Machine

open Sys2Proof.Safety

/-! ## Blocks -/

/-- A block followed by more bytes. -/
theorem blocks_block_append {n : Nat} (hn : 1 ≤ n) {b : Bytes} (hb : b.length = n) (y : Bytes) :
    blocks n (b ++ y) = b :: blocks n y := by
  have hmod : b.length % n = 0 := by rw [hb, Nat.mod_self]
  have hone : blocks n b = [b] := by
    rw [blocks, blockCount_of_aligned hn hmod, hb, Nat.div_self hn]
    simp [blockAt, hb]
  rw [blocks_append hn hmod, hone, List.singleton_append]

/-- Past the last block there are no bytes. -/
theorem blockAt_eq_nil {n : Nat} (hn : 1 ≤ n) {x : Bytes} {j : Nat} (hj : blockCount n x.length ≤ j) : blockAt n x j = [] := by
  have hge : x.length ≤ j * n := not_lt.1 fun hlt => absurd ((lt_blockCount_iff hn).2 hlt) (not_lt.2 hj)
  rw [blockAt, List.drop_of_length_le hge, List.take_nil]

/-- A whole block of a sequence is a block of every longer one. -/
theorem blockAt_append_of_length {n : Nat} (hn : 1 ≤ n) {x : Bytes} {i : Nat} (h : (blockAt n x i).length = n) (y : Bytes) :
    i < blockCount n (x ++ y).length ∧ blockAt n (x ++ y) i = blockAt n x i := by
  rw [blockAt_length] at h
  refine ⟨(lt_blockCount_iff hn).2 (by rw [List.length_append]; omega), ?_⟩
  rw [blockAt, List.drop_append_of_le_length (by omega), List.take_append_of_le_length (by rw [List.length_drop]; omega),
    blockAt]

/-! ## DEC undoes ENC (41_block_modes.md R168) -/

/-- From the same chaining state, one rule gives back the block that another took, and leaves the same chaining state. -/
structure BlockRule.UndoneBy (r r' : BlockRule) (t : BlockTransform) (n : Nat) : Prop where
  output : ∀ c x, c.chain.length = n → x.length = n → r'.outputBlock t n c (r.outputBlock t n c x) = x
  next : ∀ c x, c.chain.length = n → x.length = n → r'.nextChaining t n c (r.outputBlock t n c x) = r.nextChaining t n c x

theorem ecbEncRule_undoneBy (t : BlockTransform) (n : Nat) : ecbEncRule.UndoneBy ecbDecRule t n where
  output _ _ _ hx := decryptBlock_encryptBlock t hx
  next _ _ _ _ := rfl

/-- `D` and CHAIN give back what CHAIN and `E` made of a block. -/
theorem xorBytes_decryptBlock_encryptBlock (t : BlockTransform) {n : Nat} {x k : Bytes} (hx : x.length = n) (hk : k.length = n) :
    xorBytes (decryptBlock t n (encryptBlock t n (xorBytes x k))) k = x := by
  rw [decryptBlock_encryptBlock t (by simp [hx, hk]), xorBytes_cancel (hx.trans hk.symm)]

theorem cbcEncRule_undoneBy (t : BlockTransform) (n : Nat) : cbcEncRule.UndoneBy cbcDecRule t n where
  output _ _ hc hx := xorBytes_decryptBlock_encryptBlock t hx hc
  next _ _ _ _ := rfl

theorem pcbcEncRule_undoneBy (t : BlockTransform) (n : Nat) : pcbcEncRule.UndoneBy pcbcDecRule t n where
  output _ _ hc hx := xorBytes_decryptBlock_encryptBlock t hx hc
  next c x hc hx := congrArg (fun z => { c with chain := xorBytes z (pcbcEncRule.outputBlock t n c x) })
    (xorBytes_decryptBlock_encryptBlock t hx hc)

theorem encRule_undoneBy_decRule {m : Mode} (hm : m = .ecb ∨ m = .cbc ∨ m = .pcbc) (t : BlockTransform) (n : Nat) :
    (encRule m).UndoneBy (decRule m) t n := by
  rcases hm with rfl | rfl | rfl
  · exact ecbEncRule_undoneBy t n
  · exact cbcEncRule_undoneBy t n
  · exact pcbcEncRule_undoneBy t n

/-- The output of a run, first block first. -/
theorem runBlocks_cons_output (t : BlockTransform) (n : Nat) (r : BlockRule) (c : Chaining) (x : Bytes) (xs : List Bytes) :
    (runBlocks t n r c (x :: xs)).output =
      r.outputBlock t n c x ++ (runBlocks t n r (r.nextChaining t n c x) xs).output := rfl

/-- A run over the output of the run it undoes gives the blocks back. -/
theorem runBlocks_undo {r r' : BlockRule} {t : BlockTransform} {n : Nat} (hn : 1 ≤ n) (hw : r.Widths n true)
    (hu : r.UndoneBy r' t n) {c : Chaining} (hc : c.chain.length = n) {xs : List Bytes} (hx : Cut n true xs) :
    (runBlocks t n r' c (blocks n (runBlocks t n r c xs).output)).output = xs.flatten := by
  induction xs generalizing c with
  | nil => simp [blocks, blockCount, Nat.div_eq_of_lt (show n - 1 < n by omega)]
  | cons x xs ih =>
    have hx0 : x.length = n := (hx 0 (Nat.succ_pos _)).2 (.inr rfl)
    have ha : (answer t n (r.request n c x)).length = n := answer_length t (hw.request c x hc fun _ => hx0)
    have hy : (r.outputBlock t n c x).length = n := (hw.output c x _ hc ha hx0.le fun _ => hx0).trans hx0
    have hrest := ih (hw.next c x _ hc ha hx0) hx.tail
    rw [runBlocks_cons_output, blocks_block_append hn hy, runBlocks_cons_output, hu.output c x hc hx0, hu.next c x hc hx0,
      List.flatten_cons]
    exact congrArg _ hrest

theorem encRule_widths {m : Mode} (hm : m = .ecb ∨ m = .cbc ∨ m = .pcbc) (n : Nat) : (encRule m).Widths n true := by
  rcases hm with rfl | rfl | rfl
  · exact ecbEncRule_widths n
  · exact cbcEncRule_widths n
  · exact pcbcEncRule_widths n

section RoundTrip

variable {m : Mode} {p : Padding} {s s' : State}

/-- ENC that succeeds has passed its checks, and what it answers is its output. -/
theorem runs_enc_of_output {t : State} {c : Bytes} (hl : s.cfg.legal = true) (hr : Ready s)
    (he : exec (Instr.enc m p) s = .next t) (hc : t.res = .output c) : Runs (Instr.enc m p) s ∧ c = encOutput m p s := by
  have h := runs_of_output hl hr he hc
  obtain ⟨t₀, he₀, hres⟩ := exec_enc_of_runs h
  obtain rfl := Host.Outcome.next.inj (he₀.symm.trans he)
  exact ⟨h, (Result.output.inj (hres.symm.trans hc)).symm⟩

theorem paddingUsed_enc (hm : m = .ecb ∨ m = .cbc ∨ m = .pcbc) (p : Padding) : paddingUsed (Instr.enc m p) = some p := by
  rcases hm with rfl | rfl | rfl <;> rfl

/-- DEC runs where ENC ran, on every message of whole blocks that fits. -/
theorem dec_runs_of_enc_runs (hm : m = .ecb ∨ m = .cbc ∨ m = .pcbc) (h : Runs (Instr.enc m p) s) (hr : Ready s')
    (hcfg : s'.cfg = s.cfg) (hiv : s'.ivLen = s.ivLen) (hfit : (message s').length ≤ s.cfg.inCap)
    (hmod : (message s').length % s.cfg.n = 0) : Runs (Instr.dec m p) s' := by
  obtain ⟨h2, -, h4, -⟩ := (firstFailing_eq_none_iff _ s).1 h.checks
  rw [message_length] at hfit hmod
  refine ⟨by rw [hcfg]; exact h.legal, hr, (firstFailing_eq_none_iff _ s').2 ?_⟩
  rw [hcfg, hiv]
  rcases hm with rfl | rfl | rfl <;> exact ⟨h2, hfit, h4, fun _ => hmod⟩

/-- DEC of the output of ENC makes the padded message of its blocks. -/
theorem decOutput_of_encOutput (hm : m = .ecb ∨ m = .cbc ∨ m = .pcbc) (h : Runs (Instr.enc m p) s) (hcfg : s'.cfg = s.cfg)
    (hbt : s'.bt = s.bt) (hiv : ivBytes s' = ivBytes s) (hmsg : message s' = encOutput m p s) :
    decOutput m s' = encInput m p s := by
  obtain ⟨hn, -⟩ := (legal_iff _).1 h.legal
  have hinit : initialChaining s' = initialChaining s := by rw [initialChaining, hiv, hcfg, initialChaining]
  have hmod := (pad_length hn (pad_message_of_runs hm h)).1
  have hc : (initialChaining s).chain.length = s.cfg.n := ivBytes_length s
  have hundo := runBlocks_undo hn (encRule_widths hm s.cfg.n) (encRule_undoneBy_decRule hm s.bt s.cfg.n) hc
    (blocks_cut_full hn hmod)
  rw [blocks_flatten hn] at hundo
  rw [decOutput, hcfg, hbt, hinit, hmsg]
  exact hundo

end RoundTrip

/-- Settles O54: DEC gives the padded message back block by block, and `unpad` the message; in ECB the transform sees the block alone. -/
theorem blockModesRoundTrip : Obligations.BlockModesRoundTrip := by
  unfold Obligations.BlockModesRoundTrip
  refine ⟨fun m p s t s' c hm hl hr hr' he hc hcfg hbt hivl hiv hmsg hfit => ?_,
    fun p s t c i j hl hr he hc hi hij => ?_⟩
  · obtain ⟨hn, -⟩ := (legal_iff _).1 hl
    obtain ⟨h, rfl⟩ := runs_enc_of_output hl hr he hc
    have hwide : p = .pkcs7 ∨ p = .x923 → s.cfg.n ≤ 255 := by
      have hnarrow := schemeTooWide_of_runs h (paddingUsed_enc hm p)
      simpa [schemeTooWide] using hnarrow
    have hpad := pad_message_of_runs hm h
    have hmod := (pad_length hn hpad).1
    have hdec : Runs (Instr.dec m p) s' :=
      dec_runs_of_enc_runs hm h hr' hcfg hivl (by rw [hmsg]; exact hfit) (by rw [hmsg, (enc_widths h).2]; exact hmod)
    obtain ⟨t', -, he', hres', -⟩ := dec_completes hm hdec
    refine ⟨t', he', ?_⟩
    rw [hres', decOutput_of_encOutput hm h hcfg hbt hiv hmsg, hcfg]
    exact (unpad_eq_output_iff_pad hn hwide hmod _).2 hpad
  · obtain ⟨hn, -⟩ := (legal_iff _).1 hl
    obtain ⟨h, rfl⟩ := runs_enc_of_output (m := .ecb) hl hr he hc
    obtain ⟨hib, hix⟩ := blockAt_append_of_length hn hi (encTail s.cfg.n p s.inLen.toNat .ecb)
    obtain ⟨hjb, hjx⟩ := blockAt_append_of_length hn (hij ▸ hi) (encTail s.cfg.n p s.inLen.toNat .ecb)
    rw [encOutput_ecb_block h hib, encOutput_ecb_block h hjb]
    exact congrArg _ (hix.trans (hij.trans hjx.symm))

/-! ## A changed byte of the first block (41_block_modes.md R169) -/

/-- Two sequences differ in byte `b` and nowhere else. -/
def DifferOnlyAt (b : Nat) (x x' : Bytes) : Prop := ∀ j, x[j]? = x'[j]? ↔ j ≠ b

section Differ

variable {n b : Nat} {x x' : Bytes}

theorem blockAt_getElem? (n : Nat) (x : Bytes) (j i : Nat) : (blockAt n x j)[i]? = if i < n then x[j * n + i]? else none := by
  rw [blockAt, List.getElem?_take, List.getElem?_drop]

theorem DifferOnlyAt.blockAt_zero_ne (h : DifferOnlyAt b x x') (hb : b < n) : blockAt n x 0 ≠ blockAt n x' 0 := by
  intro heq
  have hbyte := congrArg (·[b]?) heq
  simp only [blockAt_getElem?, if_pos hb, Nat.zero_mul, Nat.zero_add] at hbyte
  exact (h b).1 hbyte rfl

theorem DifferOnlyAt.blockAt_eq (h : DifferOnlyAt b x x') (hb : b < n) {j : Nat} (hj : 1 ≤ j) : blockAt n x j = blockAt n x' j := by
  refine List.ext_getElem? fun i => ?_
  have hpast : n ≤ j * n := Nat.le_mul_of_pos_left n hj
  rw [blockAt_getElem?, blockAt_getElem?, (h (j * n + i)).2 (by omega)]

end Differ

/-- `E` of a block and CHAIN tells two blocks apart. -/
theorem encryptBlock_xorBytes_ne_of_block_ne (t : BlockTransform) {n : Nat} {x x' k : Bytes} (hx : x.length = n)
    (hx' : x'.length = n) (hk : k.length = n) (h : x ≠ x') :
    encryptBlock t n (xorBytes x k) ≠ encryptBlock t n (xorBytes x' k) := by
  intro he
  have hxor := encryptBlock_inj (by simp [hx, hk]) (by simp [hx', hk]) he
  rw [xorBytes_comm x, xorBytes_comm x'] at hxor
  exact h (xorBytes_left_inj (hx.trans hk.symm) (hx'.trans hk.symm) hxor)

/-- `E` of a block and CHAIN tells two values of CHAIN apart. -/
theorem encryptBlock_xorBytes_ne_of_chain_ne (t : BlockTransform) {n : Nat} {x k k' : Bytes} (hx : x.length = n)
    (hk : k.length = n) (hk' : k'.length = n) (h : k ≠ k') :
    encryptBlock t n (xorBytes x k) ≠ encryptBlock t n (xorBytes x k') := by
  rw [xorBytes_comm x, xorBytes_comm x]
  exact encryptBlock_xorBytes_ne_of_block_ne t hk hk' hx h

/-- The blocks of a block-aligned ENC, of the padded message and of the output, are all whole. -/
theorem enc_blockAt_length {m : Mode} {p : Padding} {s : State} (hm : m = .ecb ∨ m = .cbc ∨ m = .pcbc) (h : Runs (Instr.enc m p) s)
    {j : Nat} (hj : j < blockCount s.cfg.n (encInput m p s).length) :
    (blockAt s.cfg.n (encInput m p s) j).length = s.cfg.n ∧ (blockAt s.cfg.n (encOutput m p s) j).length = s.cfg.n := by
  obtain ⟨hn, -⟩ := (legal_iff _).1 h.legal
  have hmod := (pad_length hn (pad_message_of_runs hm h)).1
  have hin : (blockAt s.cfg.n (encInput m p s) j).length = s.cfg.n := by
    rw [← blocks_getElem _ _ _ (by rwa [blocks_length])]
    exact (blocks_cut_full hn hmod j _).2 (.inr rfl)
  refine ⟨hin, ?_⟩
  rwa [blockAt_length, (enc_widths h).2, ← blockAt_length]

/-- A block of the output has a block of the input. -/
theorem lt_blockCount_of_output {m : Mode} {p : Padding} {s : State} (h : Runs (Instr.enc m p) s) {j : Nat}
    (hj : j * s.cfg.n < (encOutput m p s).length) : j < blockCount s.cfg.n (encInput m p s).length := by
  obtain ⟨hn, -⟩ := (legal_iff _).1 h.legal
  rw [(enc_widths h).2] at hj
  exact (lt_blockCount_iff hn).2 hj

/-- Two states with the same parameters and transform, whose messages have one length and differ in one byte of block 0. -/
structure FirstBlockChanged (s s' : State) (b : Nat) : Prop where
  cfg : s'.cfg = s.cfg
  bt : s'.bt = s.bt
  inLen : s'.inLen = s.inLen
  inBlock : b < s.cfg.n
  inMessage : b < s.inLen.toNat
  differ : ∀ j, j < s.inLen.toNat → ((message s)[j]? = (message s')[j]? ↔ j ≠ b)

namespace FirstBlockChanged

variable {m : Mode} {p : Padding} {s s' : State} {b j : Nat}

/-- The padded messages differ as the messages do. -/
theorem encInput_differ (h : FirstBlockChanged s s' b) (m : Mode) (p : Padding) :
    DifferOnlyAt b (encInput m p s) (encInput m p s') := by
  intro j
  have hlen : (message s').length = s.inLen.toNat := by rw [message_length, h.inLen]
  rw [encInput, encInput, h.cfg, h.inLen]
  by_cases hj : j < s.inLen.toNat
  · rw [List.getElem?_append_left (by rwa [message_length]), List.getElem?_append_left (by rwa [hlen])]
    exact h.differ j hj
  · rw [List.getElem?_append_right (by rw [message_length]; omega), List.getElem?_append_right (by rw [hlen]; omega),
      message_length, hlen]
    have := h.inMessage
    exact iff_of_true rfl (by omega)

theorem encInput_length (h : FirstBlockChanged s s' b) (m : Mode) (p : Padding) :
    (encInput m p s').length = (encInput m p s).length := by
  simp [encInput, h.cfg, h.inLen]

theorem encOutput_length (h : FirstBlockChanged s s' b) (hs : Runs (Instr.enc m p) s) (hs' : Runs (Instr.enc m p) s') :
    (encOutput m p s').length = (encOutput m p s).length := by
  rw [(enc_widths hs).2, (enc_widths hs').2, h.encInput_length]

theorem blockCount_pos (h : FirstBlockChanged s s' b) (hl : s.cfg.legal = true) (m : Mode) (p : Padding) :
    0 < blockCount s.cfg.n (encInput m p s).length := by
  obtain ⟨hn, -⟩ := (legal_iff _).1 hl
  have := h.inMessage
  refine (lt_blockCount_iff hn).2 ?_
  rw [encInput, List.length_append, message_length]
  omega

/-- The blocks of the two outputs have the same indices. -/
theorem lt_blockCount (h : FirstBlockChanged s s' b) (hj : j < blockCount s.cfg.n (encInput m p s).length) :
    j < blockCount s'.cfg.n (encInput m p s').length := by
  rwa [h.cfg, h.encInput_length]

theorem enc_blockAt_length_snd (h : FirstBlockChanged s s' b) (hm : m = .ecb ∨ m = .cbc ∨ m = .pcbc) (hs' : Runs (Instr.enc m p) s')
    (hj : j < blockCount s.cfg.n (encInput m p s).length) :
    (blockAt s.cfg.n (encInput m p s') j).length = s.cfg.n ∧ (blockAt s.cfg.n (encOutput m p s') j).length = s.cfg.n := by
  rw [← h.cfg]
  exact enc_blockAt_length hm hs' (h.lt_blockCount hj)

/-- In ECB the changed block changes its output block only, whatever the IVs are. -/
theorem ecb_block_ne_iff (h : FirstBlockChanged s s' b) (hs : Runs (.encEcb p) s) (hs' : Runs (.encEcb p) s')
    (hj : j < blockCount s.cfg.n (encInput .ecb p s).length) :
    blockAt s.cfg.n (encOutput .ecb p s) j ≠ blockAt s.cfg.n (encOutput .ecb p s') j ↔ j = 0 := by
  have hx := h.encInput_differ .ecb p
  have hblock' := encOutput_ecb_block hs' (h.lt_blockCount hj)
  rw [h.cfg, h.bt] at hblock'
  obtain ⟨hl, -⟩ := enc_blockAt_length (m := .ecb) (.inl rfl) hs hj
  obtain ⟨hl', -⟩ := h.enc_blockAt_length_snd (m := .ecb) (.inl rfl) hs' hj
  rw [encOutput_ecb_block hs hj, hblock']
  constructor
  · intro hne
    by_contra h0
    exact hne (congrArg _ (hx.blockAt_eq h.inBlock (Nat.one_le_iff_ne_zero.2 h0)))
  · rintro rfl heq
    exact hx.blockAt_zero_ne h.inBlock (encryptBlock_inj hl hl' heq)

/-- A block of CBC's second output, in the terms of the first state. -/
theorem cbc_block_snd (h : FirstBlockChanged s s' b) (hs' : Runs (.encCbc p) s') (hiv : ivBytes s' = ivBytes s)
    (hj : j < blockCount s.cfg.n (encInput .cbc p s).length) :
    blockAt s.cfg.n (encOutput .cbc p s') j = encryptBlock s.bt s.cfg.n
      (xorBytes (blockAt s.cfg.n (encInput .cbc p s') j)
        (if j = 0 then ivBytes s else blockAt s.cfg.n (encOutput .cbc p s') (j - 1))) := by
  rw [← h.cfg, ← h.bt, ← hiv]
  exact encOutput_cbc_block hs' (h.lt_blockCount hj)

/-- In CBC every output block changes: the first with its input block, each later one with the output block before. -/
theorem cbc_block_ne (h : FirstBlockChanged s s' b) (hs : Runs (.encCbc p) s) (hs' : Runs (.encCbc p) s')
    (hiv : ivBytes s' = ivBytes s) (hj : j < blockCount s.cfg.n (encInput .cbc p s).length) :
    blockAt s.cfg.n (encOutput .cbc p s) j ≠ blockAt s.cfg.n (encOutput .cbc p s') j := by
  have hm : Mode.cbc = .ecb ∨ Mode.cbc = .cbc ∨ Mode.cbc = .pcbc := .inr (.inl rfl)
  have hx := h.encInput_differ .cbc p
  rw [encOutput_cbc_block hs hj, h.cbc_block_snd hs' hiv hj]
  induction j with
  | zero =>
    exact encryptBlock_xorBytes_ne_of_block_ne _ (enc_blockAt_length hm hs hj).1 (h.enc_blockAt_length_snd hm hs' hj).1
      (ivBytes_length s) (hx.blockAt_zero_ne h.inBlock)
  | succ j ih =>
    have hj' : j < blockCount s.cfg.n (encInput .cbc p s).length := by omega
    have hprev := ih hj'
    rw [← encOutput_cbc_block hs hj', ← h.cbc_block_snd hs' hiv hj'] at hprev
    rw [if_neg j.succ_ne_zero, if_neg j.succ_ne_zero, Nat.add_sub_cancel, ← hx.blockAt_eq h.inBlock (Nat.le_add_left 1 j)]
    exact encryptBlock_xorBytes_ne_of_chain_ne _ (enc_blockAt_length hm hs hj).1 (enc_blockAt_length hm hs hj').2
      (h.enc_blockAt_length_snd hm hs' hj').2 hprev

/-- In PCBC the changed block changes its output block. -/
theorem pcbc_block_zero_ne (h : FirstBlockChanged s s' b) (hs : Runs (.encPcbc p) s) (hs' : Runs (.encPcbc p) s')
    (hiv : ivBytes s' = ivBytes s) :
    blockAt s.cfg.n (encOutput .pcbc p s) 0 ≠ blockAt s.cfg.n (encOutput .pcbc p s') 0 := by
  have hm : Mode.pcbc = .ecb ∨ Mode.pcbc = .cbc ∨ Mode.pcbc = .pcbc := .inr (.inr rfl)
  have hpos := h.blockCount_pos hs.legal .pcbc p
  have hblock' := encOutput_pcbc_block hs' (h.lt_blockCount hpos)
  rw [h.cfg, h.bt, hiv] at hblock'
  rw [encOutput_pcbc_block hs hpos, hblock']
  exact encryptBlock_xorBytes_ne_of_block_ne _ (enc_blockAt_length hm hs hpos).1 (h.enc_blockAt_length_snd hm hs' hpos).1
    (ivBytes_length s) ((h.encInput_differ .pcbc p).blockAt_zero_ne h.inBlock)

/-- In PCBC a block is unchanged when `P xor C` of the block before is. -/
theorem pcbc_block_succ_eq (h : FirstBlockChanged s s' b) (hs : Runs (.encPcbc p) s) (hs' : Runs (.encPcbc p) s')
    (hfeed : xorBytes (blockAt s.cfg.n (encInput .pcbc p s) j) (blockAt s.cfg.n (encOutput .pcbc p s) j) =
      xorBytes (blockAt s.cfg.n (encInput .pcbc p s') j) (blockAt s.cfg.n (encOutput .pcbc p s') j)) :
    blockAt s.cfg.n (encOutput .pcbc p s) (j + 1) = blockAt s.cfg.n (encOutput .pcbc p s') (j + 1) := by
  obtain ⟨hn, -⟩ := (legal_iff _).1 hs.legal
  by_cases hj : j + 1 < blockCount s.cfg.n (encInput .pcbc p s).length
  · have hblock' := encOutput_pcbc_block hs' (h.lt_blockCount hj)
    rw [h.cfg, h.bt] at hblock'
    rw [encOutput_pcbc_block hs hj, hblock', if_neg j.succ_ne_zero, if_neg j.succ_ne_zero, Nat.add_sub_cancel, hfeed,
      (h.encInput_differ .pcbc p).blockAt_eq h.inBlock (Nat.le_add_left 1 j)]
  · have hlen := (enc_widths (m := .pcbc) hs).2
    have hlen' := h.encOutput_length (m := .pcbc) hs hs'
    rw [blockAt_eq_nil hn (by rw [hlen]; exact not_lt.1 hj), blockAt_eq_nil hn (by rw [hlen', hlen]; exact not_lt.1 hj)]

/-- In PCBC no later block changes when `P_0 xor C_0` does not. -/
theorem pcbc_block_eq (h : FirstBlockChanged s s' b) (hs : Runs (.encPcbc p) s) (hs' : Runs (.encPcbc p) s')
    (hfeed : xorBytes (blockAt s.cfg.n (encInput .pcbc p s) 0) (blockAt s.cfg.n (encOutput .pcbc p s) 0) =
      xorBytes (blockAt s.cfg.n (encInput .pcbc p s') 0) (blockAt s.cfg.n (encOutput .pcbc p s') 0)) (hj : 1 ≤ j) :
    blockAt s.cfg.n (encOutput .pcbc p s) j = blockAt s.cfg.n (encOutput .pcbc p s') j := by
  induction j, hj using Nat.le_induction with
  | base => exact h.pcbc_block_succ_eq hs hs' hfeed
  | succ j hj ih =>
    refine h.pcbc_block_succ_eq hs hs' ?_
    rw [(h.encInput_differ .pcbc p).blockAt_eq h.inBlock hj, ih]

end FirstBlockChanged

/-- Under the identity transform `P_0 xor C_0` is the IV, whatever `P_0` is. -/
theorem pcbc_feed_of_identity {p : Padding} {s : State} (h : Runs (.encPcbc p) s) (hid : s.bt = .identity)
    (hpos : 0 < blockCount s.cfg.n (encInput .pcbc p s).length) :
    xorBytes (blockAt s.cfg.n (encInput .pcbc p s) 0) (blockAt s.cfg.n (encOutput .pcbc p s) 0) = ivBytes s := by
  obtain ⟨hl, -⟩ := enc_blockAt_length (m := .pcbc) (.inr (.inr rfl)) h hpos
  rw [encOutput_pcbc_block h hpos, hid, if_pos rfl, encryptBlock, xorBytes_comm, xorBytes_comm _ (ivBytes s),
    xorBytes_cancel ((ivBytes_length s).trans hl.symm)]

/-- Settles O56: `E` tells its inputs apart, so a block changes with its input block or with CHAIN, and stays when neither changes. -/
theorem changedByteDiffusesThroughBlockModes : Obligations.ChangedByteDiffusesThroughBlockModes := by
  unfold Obligations.ChangedByteDiffusesThroughBlockModes
  intro p s s' b hcfg hbt hin hb hbm hdiff
  have h : FirstBlockChanged s s' b := ⟨hcfg, hbt, hin, hb, hbm, hdiff⟩
  refine ⟨fun hs hs' => ?_, fun hs hs' hiv => ?_, fun hs hs' hiv => ?_⟩
  · obtain ⟨t, he, hres⟩ := exec_enc_of_runs (m := .ecb) hs
    obtain ⟨t', he', hres'⟩ := exec_enc_of_runs (m := .ecb) hs'
    exact ⟨t, t', _, _, he, he', hres, hres', (h.encOutput_length (m := .ecb) hs hs').symm,
      fun j hj => h.ecb_block_ne_iff hs hs' (lt_blockCount_of_output (m := .ecb) hs hj)⟩
  · obtain ⟨t, he, hres⟩ := exec_enc_of_runs (m := .cbc) hs
    obtain ⟨t', he', hres'⟩ := exec_enc_of_runs (m := .cbc) hs'
    exact ⟨t, t', _, _, he, he', hres, hres', (h.encOutput_length (m := .cbc) hs hs').symm,
      fun j hj => h.cbc_block_ne hs hs' hiv (lt_blockCount_of_output (m := .cbc) hs hj)⟩
  · obtain ⟨t, he, hres⟩ := exec_enc_of_runs (m := .pcbc) hs
    obtain ⟨t', he', hres'⟩ := exec_enc_of_runs (m := .pcbc) hs'
    have hpad := pad_message_of_runs (m := .pcbc) (.inr (.inr rfl)) hs
    have hpad' := pad_message_of_runs (m := .pcbc) (.inr (.inr rfl)) hs'
    rw [hcfg] at hpad'
    refine ⟨_, _, t, t', _, _, hpad, hpad', he, he', hres, hres', (h.encOutput_length (m := .pcbc) hs hs').symm,
      h.pcbc_block_zero_ne hs hs' hiv, fun hfeed j hj => h.pcbc_block_eq hs hs' hfeed hj, fun hid j hj => ?_⟩
    have hpos := h.blockCount_pos hs.legal .pcbc p
    have hfeed := pcbc_feed_of_identity hs hid hpos
    have hfeed' := pcbc_feed_of_identity hs' (hbt.trans hid) (h.lt_blockCount hpos)
    rw [hcfg, hiv] at hfeed'
    exact h.pcbc_block_eq hs hs' (hfeed.trans hfeed'.symm) hj

end Sys2Proof.Machine
end

section
/-! PROOFS. The stream-like modes (42_stream_modes.md): each block of the output is the message's block under the transform of one block,
the feed (R191 to R196); the requests (R198); that DEC undoes ENC (R199); and what a changed byte changes (R200). -/

namespace Sys2Proof.Machine

open Sys2Proof.Safety

/-! ## What a stream-like mode makes of a message (42_stream_modes.md R190), apart from the machine -/

/-- The block whose transform is the keystream of block `j`: the ciphertext block before (R191), the IV encrypted `j` times (R193), or
the counter block (R195). -/
def feedBlock (m : Mode) (t : BlockTransform) (n : Nat) (iv c : Bytes) (j : Nat) : Bytes :=
  match m with
  | .ofb => (encryptBlock t n)^[j] iv
  | .ctr => beBytes n ((intBe iv + j) % 2 ^ (8 * n))
  | _ => if j = 0 then iv else blockAt n c (j - 1)

/-- `y` is `x`, block by block, under the keystream of a stream-like mode with the ciphertext `c`. -/
structure StreamCipher (m : Mode) (t : BlockTransform) (n : Nat) (iv x y c : Bytes) : Prop where
  length : y.length = x.length
  block : ∀ j, j < blockCount n x.length →
    blockAt n y j = xorKeystream (blockAt n x j) (encryptBlock t n (feedBlock m t n iv c j))

theorem iterate_encryptBlock_length (t : BlockTransform) {n : Nat} {b : Bytes} (h : b.length = n) (j : Nat) :
    ((encryptBlock t n)^[j] b).length = n := by
  induction j generalizing b with
  | zero => exact h
  | succ j ih => exact ih (encryptBlock_length t h)

/-- A block before the last is whole. -/
theorem blockAt_length_of_le {n : Nat} {x : Bytes} {j : Nat} (h : (j + 1) * n ≤ x.length) : (blockAt n x j).length = n := by
  rw [Nat.succ_mul] at h
  rw [blockAt_length]
  omega

theorem feedBlock_length (m : Mode) (t : BlockTransform) {n : Nat} {iv c : Bytes} (hiv : iv.length = n) {j : Nat}
    (hj : j * n ≤ c.length) : (feedBlock m t n iv c j).length = n := by
  have hchain : (if j = 0 then iv else blockAt n c (j - 1)).length = n := by
    cases j with
    | zero => exact hiv
    | succ j => exact blockAt_length_of_le hj
  cases m with
  | ofb => exact iterate_encryptBlock_length t hiv j
  | ctr => exact beBytes_length n _
  | ecb | cbc | pcbc | cfb => exact hchain

/-- Each block has N bytes of keystream to take from. -/
theorem blockAt_length_le_keystream (m : Mode) (t : BlockTransform) {n : Nat} {iv x c : Bytes} {j : Nat} (hn : 1 ≤ n)
    (hiv : iv.length = n) (hc : c.length = x.length) (hj : j < blockCount n x.length) :
    (blockAt n x j).length ≤ (encryptBlock t n (feedBlock m t n iv c j)).length := by
  have hstart : j * n ≤ c.length := by rw [hc]; exact ((lt_blockCount_iff hn).1 hj).le
  rw [encryptBlock_length t (feedBlock_length m t hiv hstart), blockAt_length]
  exact min_le_left _ _

/-- Sequences of one length with the same blocks are one. -/
theorem eq_of_blockAt_eq {n : Nat} (hn : 1 ≤ n) {x y : Bytes} (hl : y.length = x.length)
    (h : ∀ j, j < blockCount n x.length → blockAt n y j = blockAt n x j) : y = x := by
  have hblocks : blocks n y = blocks n x := by
    rw [blocks, hl, blocks]
    exact List.map_congr_left fun j hj => h j (List.mem_range.1 hj)
  rw [← blocks_flatten hn y, hblocks, blocks_flatten hn]

/-- Byte `j` of a sequence, in its block. -/
theorem blockAt_div_getElem? {n : Nat} (hn : 1 ≤ n) (x : Bytes) (j : Nat) : (blockAt n x (j / n))[j % n]? = x[j]? := by
  rw [blockAt_getElem?, if_pos (Nat.mod_lt j hn), Nat.mul_comm, Nat.div_add_mod]

/-- A keystream tells apart the blocks it covers. -/
theorem xorKeystream_left_inj {x x' k : Bytes} (hx : x.length ≤ k.length) (hx' : x'.length ≤ k.length)
    (h : xorKeystream x k = xorKeystream x' k) : x = x' := by
  rw [← xorKeystream_cancel hx, h, xorKeystream_cancel hx']

/-- Under one keystream the output bytes agree exactly where the input bytes do. -/
theorem xorKeystream_getElem?_eq_iff {x x' k : Bytes} (hl : x'.length = x.length) (hk : x.length ≤ k.length) (i : Nat) :
    (xorKeystream x k)[i]? = (xorKeystream x' k)[i]? ↔ x[i]? = x'[i]? := by
  by_cases hi : i < x.length
  · simp [xorKeystream, xorBytes, hl, hi, hi.trans_le hk]
  · simp [xorKeystream, xorBytes, hl, hi]

namespace StreamCipher

variable {m : Mode} {t : BlockTransform} {n : Nat} {iv x x' y y' c c' : Bytes} {j : Nat}

/-- The same keystream again gives the message back, 42_stream_modes.md R199. -/
theorem roundTrip (h : StreamCipher m t n iv x c c) (h' : StreamCipher m t n iv c y c) (hn : 1 ≤ n) (hiv : iv.length = n) :
    y = x := by
  refine eq_of_blockAt_eq hn (h'.length.trans h.length) fun j hj => ?_
  rw [h'.block j (by rwa [h.length]), h.block j hj, xorKeystream_cancel (blockAt_length_le_keystream m t hn hiv h.length hj)]

/-- OFB and CTR make their keystream without the message, so the outputs agree exactly where the messages do. -/
theorem getElem?_eq_iff (hm : m = .ofb ∨ m = .ctr) (h : StreamCipher m t n iv x y c) (h' : StreamCipher m t n iv x' y' c')
    (hn : 1 ≤ n) (hiv : iv.length = n) (hc : c.length = x.length) (hx : x'.length = x.length) (hj : j < x.length) :
    y[j]? = y'[j]? ↔ x[j]? = x'[j]? := by
  have hfeed : feedBlock m t n iv c' (j / n) = feedBlock m t n iv c (j / n) := by rcases hm with rfl | rfl <;> rfl
  have hb : j / n < blockCount n x.length := (lt_blockCount_iff hn).2 ((Nat.div_mul_le_self j n).trans_lt hj)
  have hlen : (blockAt n x' (j / n)).length = (blockAt n x (j / n)).length := by rw [blockAt_length, hx, blockAt_length]
  simp only [← blockAt_div_getElem? hn _ j]
  rw [h.block _ hb, h'.block _ (by rwa [hx]), hfeed]
  exact xorKeystream_getElem?_eq_iff hlen (blockAt_length_le_keystream m t hn hiv hc hb) _

/-- Block 0 of CFB, whole or not, changes with block 0 of the message. -/
theorem cfb_block_zero_ne (h : StreamCipher .cfb t n iv x y y) (h' : StreamCipher .cfb t n iv x' y' y') (hn : 1 ≤ n)
    (hiv : iv.length = n) (hx : x'.length = x.length) (hpos : 0 < blockCount n x.length)
    (hne : blockAt n x 0 ≠ blockAt n x' 0) : blockAt n y 0 ≠ blockAt n y' 0 := by
  have hpos' : 0 < blockCount n x'.length := by rwa [hx]
  rw [h.block 0 hpos, h'.block 0 hpos']
  exact fun heq => hne (xorKeystream_left_inj (blockAt_length_le_keystream .cfb t hn hiv h.length hpos)
    (blockAt_length_le_keystream .cfb t (c := y') hn hiv h'.length hpos') heq)

/-- A later whole block of CFB changes with the ciphertext block before, its feed. -/
theorem cfb_block_succ_ne (h : StreamCipher .cfb t n iv x y y) (h' : StreamCipher .cfb t n iv x' y' y') (hn : 1 ≤ n)
    (hx : x'.length = x.length) (hsame : blockAt n x (j + 1) = blockAt n x' (j + 1)) (hfull : (j + 1 + 1) * n ≤ y.length)
    (hne : blockAt n y j ≠ blockAt n y' j) : blockAt n y (j + 1) ≠ blockAt n y' (j + 1) := by
  have hy : y'.length = y.length := by rw [h'.length, hx, h.length]
  have hlt : (j + 1) * n < y.length := by rw [Nat.succ_mul] at hfull; omega
  have hb : j + 1 < blockCount n x.length := (lt_blockCount_iff hn).2 (hlt.trans_le h.length.le)
  have hblock : (blockAt n x (j + 1)).length = n := blockAt_length_of_le (hfull.trans h.length.le)
  rw [h.block _ hb, h'.block _ (by rwa [hx]), ← hsame]
  exact fun heq => hne (keystream_feed_inj (blockAt_length_of_le hlt.le) (blockAt_length_of_le (hlt.le.trans hy.ge)) hblock heq)

/-- In CFB a changed byte of block 0 changes every whole block of the output. -/
theorem cfb_block_ne (h : StreamCipher .cfb t n iv x y y) (h' : StreamCipher .cfb t n iv x' y' y') (hn : 1 ≤ n)
    (hiv : iv.length = n) (hx : x'.length = x.length) {b : Nat} (hb : b < n) (hdiff : DifferOnlyAt b x x')
    (hj : (j + 1) * n ≤ y.length) : blockAt n y j ≠ blockAt n y' j := by
  induction j with
  | zero =>
    have hpos : 0 < blockCount n x.length := (lt_blockCount_iff hn).2 (by rw [← h.length]; omega)
    exact h.cfb_block_zero_ne h' hn hiv hx hpos (hdiff.blockAt_zero_ne hb)
  | succ j ih =>
    have hprev : (j + 1) * n ≤ y.length := (Nat.mul_le_mul_right n (Nat.le_succ (j + 1))).trans hj
    exact h.cfb_block_succ_ne h' hn hx (hdiff.blockAt_eq hb (Nat.le_add_left 1 j)) hj (ih hprev)

end StreamCipher

/-! ## The commands follow it (42_stream_modes.md R191 to R196) -/

theorem cfbEncRule_chainsBy : cfbEncRule.ChainsBy fun _ y => y := fun _ _ _ _ => rfl

theorem cfbDecRule_chainsBy : cfbDecRule.ChainsBy fun x _ => x := fun _ _ _ _ => rfl

section Run

variable {i : Instr} {m : Mode} {p : Padding} {s : State} {w : Work} {r : BlockRule} {j : Nat}

theorem feed_soFar_ofb (hj : j < blockCount s.cfg.n w.input.length) (c : Bytes) :
    feed .ofb s.cfg.n (w.soFar ofbRule s j).last = feedBlock .ofb s.bt s.cfg.n (ivBytes s) c j := by
  have hlen : ((blocks s.cfg.n w.input).take j).length = j := List.length_take_of_le (by rw [blocks_length]; exact hj.le)
  have hlast := runBlocks_ofb_last s.bt s.cfg.n (initialChaining s) ((blocks s.cfg.n w.input).take j)
  rw [hlen] at hlast
  exact hlast

theorem feed_soFar_ctr (hj : j < blockCount s.cfg.n w.input.length) (c : Bytes) :
    feed .ctr s.cfg.n (w.soFar ctrRule s j).last = feedBlock .ctr s.bt s.cfg.n (ivBytes s) c j := by
  have hlen : ((blocks s.cfg.n w.input).take j).length = j := List.length_take_of_le (by rw [blocks_length]; exact hj.le)
  have hlast := runBlocks_ctr_last s.bt s.cfg.n (initialChaining s) ((blocks s.cfg.n w.input).take j)
  rw [hlen] at hlast
  exact hlast.trans (beBytes_mod_two_pow _ _).symm

/-- A run whose rule masks each block with the transform of its feed. -/
theorem streamCipher_of_run (hl : s.cfg.legal = true) (hjob : commandJob i s = .work w) (hw : w.rule = some r) {c : Bytes}
    (hr : ∀ k x, r.outputBlock s.bt s.cfg.n k x = xorKeystream x (encryptBlock s.bt s.cfg.n (feed m s.cfg.n k)))
    (hfeed : ∀ j, j < blockCount s.cfg.n w.input.length →
      feed m s.cfg.n (w.soFar r s j).last = feedBlock m s.bt s.cfg.n (ivBytes s) c j) :
    StreamCipher m s.bt s.cfg.n (ivBytes s) w.input (w.run s).output c where
  length := (commandJob_output_length hl hjob).1
  block j hj := by rw [blockAt_run hl hjob hw hj, hr, hfeed j hj]

theorem encInput_stream (hm : m = .cfb ∨ m = .ofb ∨ m = .ctr) (p : Padding) (s : State) : encInput m p s = message s := by
  rcases hm with rfl | rfl | rfl <;> exact List.append_nil _

/-- ENC in a stream-like mode: the ciphertext is the output. -/
theorem enc_streamCipher (hm : m = .cfb ∨ m = .ofb ∨ m = .ctr) (h : Runs (Instr.enc m p) s) :
    StreamCipher m s.bt s.cfg.n (ivBytes s) (message s) (encOutput m p s) (encOutput m p s) := by
  have hjob := commandJob_enc_of_runs h
  rw [← encInput_stream hm p s]
  refine streamCipher_of_run h.legal hjob rfl (fun k x => ?_) fun j hj => ?_
  · rcases hm with rfl | rfl | rfl <;> rfl
  · rcases hm with rfl | rfl | rfl
    · exact chain_soFar cfbEncRule_chainsBy h.legal hjob rfl hj
    · exact feed_soFar_ofb hj _
    · exact feed_soFar_ctr hj _

/-- The work of a stream-like DEC whose checks pass. -/
theorem commandJob_dec_stream_of_runs (hm : m = .cfb ∨ m = .ofb ∨ m = .ctr) (h : Runs (Instr.dec m p) s) :
    commandJob (Instr.dec m p) s = .work
      { input := message s, rule := some (decRule m), writesBlocks := true, finish := .output } := by
  rcases hm with rfl | rfl | rfl <;> exact streamCrypt_of_runs h rfl _

/-- DEC in a stream-like mode: the ciphertext is the message. -/
theorem dec_streamCipher (hm : m = .cfb ∨ m = .ofb ∨ m = .ctr) (h : Runs (Instr.dec m p) s) :
    StreamCipher m s.bt s.cfg.n (ivBytes s) (message s) (decOutput m s) (message s) := by
  have hjob := commandJob_dec_stream_of_runs hm h
  refine streamCipher_of_run h.legal hjob rfl (fun k x => ?_) fun j hj => ?_
  · rcases hm with rfl | rfl | rfl <;> rfl
  · rcases hm with rfl | rfl | rfl
    · exact chain_soFar cfbDecRule_chainsBy h.legal hjob rfl hj
    · exact feed_soFar_ofb hj _
    · exact feed_soFar_ctr hj _

/-- A command whose job has an output completes with it. -/
theorem exec_completes_of_output (h : Runs i s) {y : Bytes} (hres : (commandJob i s).result s = .output y) :
    ∃ t k, exec i s = .next t ∧ t.res = .output y ∧ ShowsOutput (engineMoves k t) y := by
  obtain ⟨t, k, he, ht, hs⟩ := exec_completes h.legal h.ready i
  rw [hres] at ht hs
  exact ⟨t, k, he, ht, hs⟩

/-- ENC, in every mode, completes with its output. -/
theorem enc_completes_with_output (h : Runs (Instr.enc m p) s) :
    ∃ t k, exec (Instr.enc m p) s = .next t ∧ t.res = .output (encOutput m p s) ∧
      ShowsOutput (engineMoves k t) (encOutput m p s) :=
  exec_completes_of_output h (by rw [commandJob_enc_of_runs h]; rfl)

/-- DEC in a stream-like mode completes with its output. -/
theorem dec_stream_completes (hm : m = .cfb ∨ m = .ofb ∨ m = .ctr) (h : Runs (Instr.dec m p) s) :
    ∃ t k, exec (Instr.dec m p) s = .next t ∧ t.res = .output (decOutput m s) ∧
      ShowsOutput (engineMoves k t) (decOutput m s) :=
  exec_completes_of_output h (by rw [commandJob_dec_stream_of_runs hm h]; rfl)

/-- A stream-like command that runs completes with the mode's cipher of its message; the ciphertext is the output or the message. -/
theorem stream_completes (hm : m = .cfb ∨ m = .ofb ∨ m = .ctr) (hi : i = Instr.enc m p ∨ i = Instr.dec m p) (h : Runs i s) :
    ∃ y t k c, exec i s = .next t ∧ t.res = .output y ∧ ShowsOutput (engineMoves k t) y ∧
      StreamCipher m s.bt s.cfg.n (ivBytes s) (message s) y c := by
  rcases hi with rfl | rfl
  · obtain ⟨t, k, he, hres, hshow⟩ := enc_completes_with_output h
    exact ⟨_, t, k, _, he, hres, hshow, enc_streamCipher hm h⟩
  · obtain ⟨t, k, he, hres, hshow⟩ := dec_stream_completes hm h
    exact ⟨_, t, k, _, he, hres, hshow, dec_streamCipher hm h⟩

end Run

/-! ## The completions (42_stream_modes.md R191 to R196) -/

/-- Settles O15: the command completes with its run's output, whose feed is the ciphertext block before. -/
theorem cfbFeedsTheCiphertextBack : Obligations.CfbFeedsTheCiphertextBack := by
  unfold Obligations.CfbFeedsTheCiphertextBack
  refine ⟨fun p s h => ?_, fun p s h => ?_⟩
  · obtain ⟨t, k, he, hres, hshow⟩ := enc_completes_with_output (m := .cfb) h
    have hy := enc_streamCipher (m := .cfb) (.inl rfl) h
    rw [← message_length s]
    exact ⟨_, t, k, he, hres, hshow, hy.length, hy.block⟩
  · obtain ⟨t, k, he, hres, hshow⟩ := dec_stream_completes (m := .cfb) (.inl rfl) h
    have hy := dec_streamCipher (m := .cfb) (.inl rfl) h
    rw [← message_length s]
    exact ⟨_, t, k, he, hres, hshow, hy.length, hy.block⟩

/-- Settles O16: the feed of block `j` is the IV encrypted `j` times, so its keystream is the IV encrypted once more. -/
theorem ofbRunsTheKeystream : Obligations.OfbRunsTheKeystream := by
  unfold Obligations.OfbRunsTheKeystream
  intro p i s hi h
  obtain ⟨y, t, k, c, he, hres, hshow, hy⟩ := stream_completes (m := .ofb) (.inr (.inl rfl)) hi h
  rw [← message_length s]
  refine ⟨y, t, k, he, hres, hshow, hy.length, fun j hj => ?_⟩
  rw [Function.iterate_succ_apply']
  exact hy.block j hj

/-- Settles O17: the feed of block `j` is the counter block `j`. -/
theorem ctrEncryptsTheCounter : Obligations.CtrEncryptsTheCounter := by
  unfold Obligations.CtrEncryptsTheCounter
  intro p i s hi h
  obtain ⟨y, t, k, c, he, hres, hshow, hy⟩ := stream_completes (m := .ctr) (.inr (.inr rfl)) hi h
  rw [← message_length s]
  exact ⟨y, t, k, he, hres, hshow, hy.length, hy.block⟩

/-! ## The requests (42_stream_modes.md R198) -/

/-- A stream-like command makes its checks and then cuts its message into blocks, under a rule that requests `E` only. -/
theorem commandJob_stream {i : Instr} (hi : paddingUsed i = none) (s : State) :
    ∃ w r, commandJob i s = checked i s (.work w) ∧ w.input = message s ∧ w.rule = some r ∧ r.Asks .enc := by
  cases i with
  | encCfb p | encOfb p | encCtr p | decCfb p | decOfb p | decCtr p => exact ⟨_, _, rfl, rfl, rfl, fun _ _ _ => rfl⟩
  | encEcb p | encCbc p | encPcbc p | decEcb p | decCbc p | decPcbc p | pad p | unpad p => cases hi

/-- Settles O25: one request for each block of the message where the checks pass, and none where one stops. -/
theorem streamModesRequestEncryptOnly : Obligations.StreamModesRequestEncryptOnly := by
  unfold Obligations.StreamModesRequestEncryptOnly
  intro i s hi
  obtain ⟨w, r, hjob, hin, hrule, hask⟩ := commandJob_stream hi s
  have hstop : ∀ c, firstFailing i s = some c → (commandJob i s).requests s = [] := fun c hc => by
    rw [commandJob_of_failing hc]; rfl
  refine ⟨fun h => ?_, fun ⟨c, hc⟩ => hstop c hc, fun hl => ?_⟩
  · rw [checked_of_runs h] at hjob
    rw [← message_length s, ← hin]
    exact (commandJob_requests h.legal hjob hrule hask).1
  · cases hf : firstFailing i s with
    | some c => simp [hstop c hf]
    | none =>
      rw [checked_eq, hf] at hjob
      exact (commandJob_requests hl hjob hrule hask).2

/-! ## DEC undoes ENC (42_stream_modes.md R199) -/

/-- The checks of a stream-like command: its message fits, and IV_LEN is N. -/
theorem firstFailing_stream_eq_none_iff {i : Instr} (hi : paddingUsed i = none) (s : State) :
    firstFailing i s = none ↔ s.inLen.toNat ≤ s.cfg.inCap ∧ s.ivLen.toNat = s.cfg.n := by
  rw [firstFailing_eq_none_iff]
  cases i with
  | encCfb p | encOfb p | encCtr p | decCfb p | decOfb p | decCtr p => simp [paddingUsed, needsIv, needsAlignment]
  | encEcb p | encCbc p | encPcbc p | decEcb p | decCbc p | decPcbc p | pad p | unpad p => cases hi

/-- A stream-like command runs where another runs with the same parameters, IV_LEN and IN_LEN. -/
theorem stream_runs_congr {i i' : Instr} {s s' : State} (hi : paddingUsed i = none) (hi' : paddingUsed i' = none) (h : Runs i s)
    (hr : Ready s') (hcfg : s'.cfg = s.cfg) (hiv : s'.ivLen = s.ivLen) (hin : s'.inLen.toNat = s.inLen.toNat) : Runs i' s' := by
  refine ⟨by rw [hcfg]; exact h.legal, hr, (firstFailing_stream_eq_none_iff hi' s').2 ?_⟩
  rw [hcfg, hiv, hin]
  exact (firstFailing_stream_eq_none_iff hi s).1 h.checks

theorem paddingUsed_stream {m : Mode} (hm : m = .cfb ∨ m = .ofb ∨ m = .ctr) (p p' : Padding) :
    paddingUsed (Instr.enc m p) = none ∧ paddingUsed (Instr.dec m p') = none := by
  rcases hm with rfl | rfl | rfl <;> exact ⟨rfl, rfl⟩

/-- Settles O55: DEC runs on the output of ENC, which has the length of the message, and masks it with the same keystream. -/
theorem streamModesRoundTrip : Obligations.StreamModesRoundTrip := by
  unfold Obligations.StreamModesRoundTrip
  intro m p p' s t s' c hm hl hr hr' he hc hcfg hbt hivl hiv hmsg
  obtain ⟨hn, -⟩ := (legal_iff _).1 hl
  obtain ⟨h, rfl⟩ := runs_enc_of_output hl hr he hc
  have henc := enc_streamCipher hm h
  have hin : s'.inLen.toNat = s.inLen.toNat := by rw [← message_length s', hmsg, henc.length, message_length]
  obtain ⟨hpe, hpd⟩ := paddingUsed_stream hm p p'
  have hdec : Runs (Instr.dec m p') s' := stream_runs_congr hpe hpd h hr' hcfg hivl hin
  obtain ⟨t', -, he', hres', -⟩ := dec_stream_completes hm hdec
  have hback := dec_streamCipher hm hdec
  rw [hcfg, hbt, hiv, hmsg] at hback
  refine ⟨henc.length, t', he', ?_⟩
  rw [hres', henc.roundTrip hback hn (ivBytes_length s)]

/-! ## A changed byte of the first block (42_stream_modes.md R200) -/

/-- ENC in a stream-like mode over both messages, in the terms of the first state. -/
theorem FirstBlockChanged.stream_outputs {m : Mode} {p : Padding} {s s' : State} {b : Nat} (h : FirstBlockChanged s s' b)
    (hiv : ivBytes s' = ivBytes s) (hm : m = .cfb ∨ m = .ofb ∨ m = .ctr) (hs : Runs (Instr.enc m p) s)
    (hs' : Runs (Instr.enc m p) s') : ∃ t t' y y',
      exec (Instr.enc m p) s = .next t ∧ exec (Instr.enc m p) s' = .next t' ∧ t.res = .output y ∧ t'.res = .output y' ∧
      StreamCipher m s.bt s.cfg.n (ivBytes s) (message s) y y ∧
      StreamCipher m s.bt s.cfg.n (ivBytes s) (message s') y' y' := by
  obtain ⟨t, he, hres⟩ := exec_enc_of_runs hs
  obtain ⟨t', he', hres'⟩ := exec_enc_of_runs hs'
  have hy' := enc_streamCipher hm hs'
  rw [h.cfg, h.bt, hiv] at hy'
  exact ⟨t, t', _, _, he, he', hres, hres', enc_streamCipher hm hs, hy'⟩

/-- Settles O57: in CFB a changed ciphertext block changes the feed of the next; in OFB and CTR the keystream stays as it is. -/
theorem changedByteDiffusesThroughStreamModes : Obligations.ChangedByteDiffusesThroughStreamModes := by
  unfold Obligations.ChangedByteDiffusesThroughStreamModes
  intro p s s' b hs hs' hcfg hbt hiv hin hb hbm hdiff
  obtain ⟨hn, -⟩ := (legal_iff _).1 hs.legal
  have h : FirstBlockChanged s s' b := ⟨hcfg, hbt, hin, hb, hbm, hdiff⟩
  have hivl := ivBytes_length s
  have hlen : (message s').length = (message s).length := by rw [message_length, hin, message_length]
  have hx : DifferOnlyAt b (message s) (message s') := by
    have hinput := h.encInput_differ .cfb p
    rwa [encInput_stream (.inl rfl), encInput_stream (.inl rfl)] at hinput
  refine ⟨?_, fun i hi => ?_⟩
  · obtain ⟨t, t', y, y', he, he', hres, hres', hy, hy'⟩ := h.stream_outputs (m := .cfb) hiv (.inl rfl) hs hs'
    have hpos : 0 < blockCount s.cfg.n (message s).length := (lt_blockCount_iff hn).2 (by rw [message_length]; omega)
    exact ⟨t, t', y, y', he, he', hres, hres', hy.cfb_block_zero_ne hy' hn hivl hlen hpos (hx.blockAt_zero_ne hb),
      fun j hj => hy.cfb_block_ne hy' hn hivl hlen hb hx hj⟩
  · obtain ⟨m, hm, rfl⟩ : ∃ m, (m = .ofb ∨ m = .ctr) ∧ i = Instr.enc m p := by
      rcases hi with rfl | rfl
      · exact ⟨.ofb, .inl rfl, rfl⟩
      · exact ⟨.ctr, .inr rfl, rfl⟩
    obtain ⟨hpu, -⟩ := paddingUsed_stream (.inr hm) p p
    have hrun : Runs (Instr.enc m p) s := stream_runs_congr rfl hpu hs hs.ready rfl rfl rfl
    have hrun' : Runs (Instr.enc m p) s' := stream_runs_congr rfl hpu hs' hs'.ready rfl rfl rfl
    obtain ⟨t, t', y, y', he, he', hres, hres', hy, hy'⟩ := h.stream_outputs hiv (.inr hm) hrun hrun'
    refine ⟨t, t', y, y', he, he', hres, hres', by rw [hy.length, hy'.length, hlen], fun j hj => ?_⟩
    rw [hy.getElem?_eq_iff hm hy' hn hivl hy.length hlen (hj.trans_le hy.length.le)]
    exact hx j

end Sys2Proof.Machine
end

section
/-! PROOFS. The statements of 43_facade.md: a command word written to CMD (R220, R221), the sequencer from the accept to the completion
(R228, R232, R234, R237), the order of the checks (R222), what a completion writes (R230, R231), and a key change (R235). -/

namespace Sys2Proof.Machine

open Sys2Proof.Safety

/-! ## A write to CMD (43_facade.md R220, R221) -/

/-- A step whose event is a host write in the register space performs the write. -/
theorem step_write {s : State} {addr : Nat} {data : Word} {strb : Strobe} {rest : List Event}
    (hin : s.inputs = .write addr data strb :: rest) (haddr : inRegisterSpace s addr = true) :
    step s = busWrite { s with inputs := rest } (addr - s.cfg.base) data strb := by
  have hspace : inRegisterSpace { s with inputs := rest } addr = true := haddr
  simp only [step, hin, handleEvent, atOffset, hspace, if_true]

theorem present_of_busy {s : State} (hr : s.rstN = true) (hb : s.phase = .busy) (w : Word) (c : Option Instr) (r : Result) :
    present s w c r = dropWrite s := by
  simp [present, hr, hb]

/-- While BUSY a command word is dropped, whether it spells a command or not. -/
theorem presentWord_of_busy {s : State} (hr : s.rstN = true) (hb : s.phase = .busy) (w : Word) :
    presentWord s w = .next (dropWrite s) := by
  unfold presentWord
  cases decode w with
  | ok i => exact (exec_eq i s).trans (congrArg _ (present_of_busy hr hb _ _ _))
  | error e => exact congrArg _ (present_of_busy hr hb _ _ _)

/-- While BUSY a write to CMD is dropped, whatever its data and strobes. -/
theorem busWrite_cmd_of_busy {s : State} {off : Nat} (hr : s.rstN = true) (hb : s.phase = .busy)
    (hoff : wordOffset off = 0x010) (data : Word) (strb : Strobe) :
    busWrite s off data strb = .next (dropWrite { s with epoch := s.epoch + 1 }) := by
  rw [busWrite_place (p := .reg .cmd) hr (by rw [hoff]; rfl)]
  exact presentWord_of_busy (s := { s with epoch := s.epoch + 1 }) hr hb _

/-- Settles O9: the event is a write to the place CMD. -/
theorem commandWriteWhileBusyIsDropped : Obligations.CommandWriteWhileBusyIsDropped := by
  unfold Obligations.CommandWriteWhileBusyIsDropped
  intro s addr data strb rest hr hb hin haddr hoff
  rw [step_write hin haddr]
  exact busWrite_cmd_of_busy (s := { s with inputs := rest }) hr hb hoff data strb

/-- With all four strobes a CMD write presents its data. -/
theorem maskLanes_all (w : Word) : maskLanes w 0xF#4 = w := by
  refine eq_of_lanes fun j hj => ?_
  rw [lane_maskLanes _ _ hj]
  match j with
  | 0 | 1 | 2 | 3 => rfl

/-- A table word that decodes to a command is a word that spells it. -/
theorem decode_tableWord {nbits w : Nat} {i : Instr} (h : decodeTableWord nbits w = some i) :
    decode (tableWord nbits w) = .ok i := by
  have hbytes := decodeBytes_lanes (tableWord nbits w) []
  simp only [lane, List.append_nil, Nat.mul_zero, Nat.reduceMul] at hbytes
  simp only [decodeTableWord, hbytes] at h
  cases hd : decode (tableWord nbits w) with
  | ok i' => simpa [hd] using h
  | error e => simp [hd] at h

/-- Settles O7: the event placed is a write to CMD with all four strobes, so the word presented is the table word. -/
theorem fetchedWordIsRunNext : Obligations.FetchedWordIsRunNext := by
  unfold Obligations.FetchedWordIsRunNext
  intro s nbits w i h
  have haddr : inRegisterSpace (s.withFetchWord nbits w) (s.cfg.base + 0x010) = true := by
    simp [inRegisterSpace, State.withFetchWord]
  have hoff : wordOffset (s.cfg.base + 0x010 - s.cfg.base) = 0x010 := by rw [Nat.add_sub_cancel_left]; rfl
  exact stepRunsTheCommandWritten (s.withFetchWord nbits w) _ _ _ s.inputs i rfl rfl haddr hoff
    (by rw [maskLanes_all]; exact decode_tableWord h)

/-! ## The order of the checks (43_facade.md R222) -/

/-- `commandJob_eq_checked` with what the work may end in: after the checks 2 to 5 the only error left is the validator's. -/
theorem commandJob_eq_checked_finish (i : Instr) (s : State) :
    ∃ w, commandJob i s = checked i s (.work w) ∧ ∀ z c, w.finish z = .error c → c = .badPadding := by
  cases i with
  | encEcb p | encCbc p | encPcbc p =>
    refine ⟨_, by simp only [commandJob, encEcbJob, encCbcJob, encPcbcJob, blockEncrypt, ofPadded_pad]; rfl, ?_⟩
    nofun
  | pad p =>
    refine ⟨_, by simp only [commandJob, padJob, ofPadded_pad]; rfl, ?_⟩
    nofun
  | decEcb p | decCbc p | decPcbc p | unpad p => exact ⟨_, rfl, fun _ _ => unpad_error⟩
  | encCfb p | encOfb p | encCtr p | decCfb p | decOfb p | decCtr p => exact ⟨_, rfl, nofun⟩

/-- Settles O11: a check that fails is the command's result; when all pass, the result is that of the work they leave. -/
theorem errorsAreReportedInCheckOrder : Obligations.ErrorsAreReportedInCheckOrder := by
  unfold Obligations.ErrorsAreReportedInCheckOrder
  intro i s hr
  refine ⟨_, exec_ready hr i, fun c hc => ?_, fun hpass c hc => ?_⟩
  · rw [accept_res, commandJob_of_failing hc]
    exact ⟨rfl, rfl⟩
  · obtain ⟨w, hw, hfinish⟩ := commandJob_eq_checked_finish i s
    rw [accept_res, hw, checked_eq, hpass] at hc
    exact hfinish _ c hc

/-! ## What a completion writes (43_facade.md R230, R231) -/

theorem complete_of_output {s : State} {y : Bytes} (h : s.res = .output y) : complete s = completeOk s y := by
  unfold complete; rw [h]

theorem complete_of_error {s : State} {c : Cause} (h : s.res = .error c) : complete s = completeError s c := by
  unfold complete; rw [h]

@[simp] theorem complete_phase (s : State) : (complete s).phase = .idle := by
  rcases complete_cases s with ⟨y, -, h⟩ | ⟨c, -, h⟩ <;> rw [h] <;> rfl

@[simp] theorem complete_lastCmd (s : State) : (complete s).lastCmd = s.lastCmd := by
  rcases complete_cases s with ⟨y, -, h⟩ | ⟨c, -, h⟩ <;> rw [h] <;> rfl

theorem complete_operandsKept (s : State) : OperandsKept s (complete s) := by
  rcases complete_cases s with ⟨y, -, h⟩ | ⟨c, -, h⟩ <;> rw [h]
  · exact ⟨rfl, rfl, rfl, rfl, rfl, rfl, rfl, rfl, rfl, fun _ ho => Memory.read_writeBytes_other y s.mem (.inl ho)⟩
  · exact ⟨rfl, rfl, rfl, rfl, rfl, rfl, rfl, rfl, rfl, fun _ _ => rfl⟩

/-- The output buffer holds the output that was committed. -/
theorem outBytes_completeOk (s : State) (y : Bytes) : outBytes (completeOk s y) y.length = y := by
  apply List.ext_getElem
  · simp [outBytes]
  · intro j _ hj
    simp only [outBytes, List.getElem_map, List.getElem_range]
    exact storedByte_of_read (Memory.read_writeBytes (by decide) y s.mem j hj)

/-- Settles O28: the completion is `completeOk`, whose only write to memory is the output. -/
theorem successfulCompletionCommitsTheOutput : Obligations.SuccessfulCompletionCommitsTheOutput := by
  unfold Obligations.SuccessfulCompletionCommitsTheOutput
  intro s y hres hlen
  refine ⟨?_, ?_, complete_operandsKept s, complete_lastCmd s, fun off hoff => ?_⟩ <;> rw [complete_of_output hres]
  · exact completeOk_showsOutput s hlen
  · exact outBytes_completeOk s y
  · exact Memory.read_writeBytes_other y s.mem hoff

/-- Settles O29: the completion is `completeError`, which writes no memory. -/
theorem failingCompletionShowsNoOutput : Obligations.FailingCompletionShowsNoOutput := by
  unfold Obligations.FailingCompletionShowsNoOutput
  intro s c hres
  refine ⟨?_, complete_operandsKept s, complete_lastCmd s, fun off => ?_⟩ <;> rw [complete_of_error hres]
  · exact completeError_showsError s c
  · rfl

end Sys2Proof.Machine

namespace Sys2Proof.Safety

open Sys2Proof.Machine

/-! ## The operands, from the accept to the completion (43_facade.md R238) -/

theorem OperandsKept.refl (s : State) : OperandsKept s s := ⟨rfl, rfl, rfl, rfl, rfl, rfl, rfl, rfl, rfl, fun _ _ => rfl⟩

theorem OperandsKept.trans {s t u : State} (h : OperandsKept s t) (k : OperandsKept t u) : OperandsKept s u :=
  ⟨k.cfg.trans h.cfg, k.bt.trans h.bt, k.rstN.trans h.rstN, k.ie.trans h.ie, k.ivLen.trans h.ivLen, k.inLen.trans h.inLen,
    k.busyErr.trans h.busyErr, k.readData.trans h.readData, k.inputs.trans h.inputs,
    fun off ho => (k.storage off ho).trans (h.storage off ho)⟩

theorem engineMoves_operandsKept (k : Nat) (s : State) : OperandsKept s (engineMoves k s) := by
  induction k generalizing s with
  | zero => exact OperandsKept.refl s
  | succ k ih => exact (engineMove_operandsKept s).trans (ih (engineMove s))

end Sys2Proof.Safety

namespace Sys2Proof.Machine

open Sys2Proof.Safety

/-! ## The sequencer refines `Exec` (43_facade.md R228, R232, R234, R237) -/

/-- The requests of a job depend on the operands alone. -/
theorem requests_congr {s u : State} (h : SameOperands s u) (hl : s.cfg.legal = true) (j : Job) :
    j.requests u = j.requests s := by
  cases j with
  | stop c => rfl
  | work w => simp only [Job.requests, Work.run, initialChaining_congr h hl, h.bt, h.cfg]

theorem engineMoves_cur (k : Nat) (s : State) : (engineMoves k s).cur = s.cur := by
  induction k generalizing s with
  | zero => rfl
  | succ k ih =>
    obtain ⟨-, -, -, -, -, -, -, -, -, -, hcur, -⟩ := engineMove_frame s
    exact (ih (engineMove s)).trans hcur

/-- An engine on track whose next move is the completion has made exactly the requests of the running command. -/
theorem btLog_of_completing {s : State} (hb : s.phase = .busy) (ht : OnTrack s) (he : engineMove s = complete s) :
    s.btLog = (curJob s.cur s).requests s := by
  have hidle : (engineMove s).phase = .idle := by rw [he, complete_phase]
  rcases engineMove_cases s with ⟨-, h⟩ | ⟨-, -, ⟨-, ⟨c, hj⟩ | ⟨w, hj, hdone⟩⟩ | ⟨w, r, -, -, -, ⟨-, h⟩ | ⟨q, -, h⟩⟩⟩
  · rw [h, hb] at hidle; cases hidle
  · rw [hj]
    exact ((onTrack_stop hj).1 ht).2
  · rw [hj]
    cases hr : w.rule with
    | none => simpa [Job.requests, Work.run, hr] using ((onTrack_plain hj hr).1 ht).2
    | some r =>
      obtain ⟨hle, -, hlog, hpending, -⟩ := (onTrack_rule hj hr).1 ht
      have hge := hdone r hr
      have hnone : s.btPending = none := Option.eq_none_iff_forall_not_mem.2 fun q hq => by
        have := (hpending q hq).1
        omega
      rw [hlog, hnone]
      simp [Job.requests, Work.run, Work.soFar, hr, List.take_of_length_le, hge]
  · rw [h, issueRequest_phase, hb] at hidle; cases hidle
  · rw [h, takeAnswer_phase, hb] at hidle; cases hidle

namespace CompletesAfter

variable {k : Nat} {s : State}

/-- Up to its completion a command keeps what its result depends on. -/
theorem sameOperands (h : CompletesAfter k s) {j : Nat} (hj : j ≤ k) : SameOperands s (engineMoves j s) := by
  induction j with
  | zero => exact SameOperands.refl s
  | succ j ih =>
    have hb := h.busy (j + 1) hj
    rw [engineMoves_succ] at hb ⊢
    exact (ih (Nat.le_of_succ_le hj)).trans (engineMove_sameOperands hb)

/-- Up to its completion a command stays on track. -/
theorem onTrack (h : CompletesAfter k s) (hl : s.cfg.legal = true) (ht : OnTrack s) {j : Nat} (hj : j ≤ k) :
    OnTrack (engineMoves j s) := by
  induction j with
  | zero => exact ht
  | succ j ih =>
    have hb := h.busy (j + 1) hj
    have hcfg := (engineMoves_operandsKept j s).cfg
    rw [engineMoves_succ] at hb ⊢
    exact onTrack_engineMove (by rw [hcfg]; exact hl) (ih (Nat.le_of_succ_le hj)) hb

/-- A command that completes has made its requests in order, 43_facade.md R237. -/
theorem btLog (h : CompletesAfter k s) (hl : s.cfg.legal = true) (ht : OnTrack s) :
    (engineMoves (k + 1) s).btLog = (curJob s.cur s).requests s := by
  have hsame := h.sameOperands (le_refl k)
  rw [engineMoves_succ, h.last, complete_btLog, btLog_of_completing (h.busy k (le_refl k)) (h.onTrack hl ht (le_refl k)) h.last,
    engineMoves_cur, curJob_congr hsame hl, requests_congr hsame hl]

/-- A command that completes shows RES, 43_facade.md R230, R231. -/
theorem shows (h : CompletesAfter k s) (hfits : ∀ y, s.res = .output y → y.length < 2 ^ 32) :
    Shows (engineMoves (k + 1) s) s.res := by
  rw [engineMoves_succ, h.last, ← engineMoves_res k s]
  exact complete_shows fun y hy => hfits y ((engineMoves_res k s).symm.trans hy)

end CompletesAfter

/-- Settles O26: the accept completes two moves after each of its requests, on track until then. -/
theorem engineCompletesWithTheResultOfExec : Obligations.EngineCompletesWithTheResultOfExec := by
  unfold Obligations.EngineCompletesWithTheResultOfExec
  intro i s hl hr
  have hdone := completesAfter_accept hl hr.1 (encode i) i ((commandJob i s).result s)
  have hlog := hdone.btLog hl (onTrack_accept s _ _ _)
  rw [curJob_accept hl, requests_congr (accept_sameOperands s _ _ _) hl] at hlog
  exact ⟨_, _, exec_ready hr i, rfl, le_refl _, fun j hj => hdone.busy j (Nat.le_of_lt_succ hj),
    hdone.shows fun y hy => result_fits hl hy, hlog,
    (accept_operandsKept s _ _ _).trans (engineMoves_operandsKept _ _)⟩

/-- A run goes on from the next state of its first step. -/
theorem run_succ (M : Host.Core) {k : Nat} {s t : M.State} (h : M.step s = .next t) : M.run (k + 1) s = M.run k t := by
  rw [Host.Core.run, h]

/-- A step with no event to come is a move of the engine, which brings none. -/
theorem step_of_no_inputs {s : State} (h : s.inputs = []) :
    step s = .next (engineMove s) ∧ (engineMove s).inputs = [] := by
  refine ⟨by simp only [step, h], ?_⟩
  rw [(engineMove_operandsKept s).inputs, h]

/-- Settles O27, by induction on the number of steps. -/
theorem stepsWithoutEventsAreEngineMoves : Obligations.StepsWithoutEventsAreEngineMoves := by
  unfold Obligations.StepsWithoutEventsAreEngineMoves
  intro k
  induction k with
  | zero => exact fun s _ => rfl
  | succ k ih =>
    intro s h
    obtain ⟨hstep, hnone⟩ := step_of_no_inputs h
    exact (run_succ Sys2Proof.core hstep).trans (ih (engineMove s) hnone)

/-! ## A key change (43_facade.md R235, 70_reset_and_hazards.md R299) -/

/-- Settles O53: the event looks at PHASE and nothing else. -/
theorem keyChangeWhileBusyIsRefused : Obligations.KeyChangeWhileBusyIsRefused := by
  unfold Obligations.KeyChangeWhileBusyIsRefused
  intro s t rest hin
  have hstep : step s = handleEvent (.rekey t) { s with inputs := rest } := by rw [step, hin]
  rw [hstep]
  refine ⟨fun hb => ?_, fun hi => ?_⟩
  · rw [handleEvent, if_pos hb]
  · rw [handleEvent, if_neg (by simp [hi])]

end Sys2Proof.Machine
end

section
/-! PROOFS. The statements of 60_exceptions.md: what no event can stop (R250), and the check that an illegal word fails (R253). -/

namespace Sys2Proof.Machine

open Sys2Proof.Safety

/-! ## MOCE never stops (60_exceptions.md R250; 20_memory.md R71, 43_facade.md R235, 70_reset_and_hazards.md R299) -/

/-- An access to the register space is the access at its offset. -/
theorem atOffset_of_inRegisterSpace {s : State} {addr : Nat} (h : inRegisterSpace s addr = true) (access : Nat → Outcome) :
    atOffset s addr access = access (addr - s.cfg.base) := if_pos h

/-- Every write to a place answers a next state, and so does a command it presents. -/
theorem writePlace_answers (s : State) (p : Place) (data : Word) (strb : Strobe) : ∃ t, writePlace s p data strb = .next t := by
  rcases writePlace_cases s p data strb with
    h | h | h | ⟨-, h⟩ | ⟨-, _, h⟩ | ⟨-, _, h⟩ | ⟨-, _, h⟩ | ⟨-, _, h⟩ | ⟨_, _, _, h, -⟩ <;> exact ⟨_, h⟩

/-- Every host write answers a next state, in reset and out of it. -/
theorem busWrite_answers (s : State) (off : Nat) (data : Word) (strb : Strobe) : ∃ t, busWrite s off data strb = .next t := by
  unfold busWrite
  split
  · exact ⟨_, rfl⟩
  · exact writePlace_answers _ _ _ _

/-- An event that stays in the register space answers a next state, unless it is one of the two that the premises of the spec
exclude. -/
theorem handleEvent_answers {s : State} {e : Event} (h : addressed s e = true) :
    (∃ t, handleEvent e s = .next t) ∨
    (handleEvent e s = .refused .keyChangeWhileBusy ∧ s.phase = .busy ∧ ∃ t, e = .rekey t) ∨
    (handleEvent e s = .refused .btAnswerOutsidePremises ∧ s.btPending ≠ none ∧ ∃ b, e = .strayBtAnswer b) := by
  cases e with
  | read addr | poll addr mask value =>
    rw [handleEvent, atOffset_of_inRegisterSpace h]
    exact .inl ⟨_, rfl⟩
  | write addr data strb =>
    rw [handleEvent, atOffset_of_inRegisterSpace h]
    exact .inl (busWrite_answers s _ data strb)
  | engine | resetLow | resetHigh => exact .inl ⟨_, rfl⟩
  | rekey t =>
    rw [handleEvent]
    split
    · next hb => exact .inr (.inl ⟨rfl, hb, t, rfl⟩)
    · exact .inl ⟨_, rfl⟩
  | strayBtAnswer b =>
    rw [handleEvent]
    split
    · next hp => exact .inr (.inr ⟨rfl, Option.isSome_iff_ne_none.1 hp, b, rfl⟩)
    · exact .inl ⟨_, rfl⟩

/-- Settles O34: with no event to come the engine moves; otherwise the step is what the event does. -/
theorem moceNeverStops : Obligations.MoceNeverStops := by
  unfold Obligations.MoceNeverStops
  intro s haddr
  cases hin : s.inputs with
  | nil => exact .inl ⟨_, (step_of_no_inputs hin).1⟩
  | cons e rest =>
    have hstep : step s = handleEvent e { s with inputs := rest } := by rw [step, hin]
    have he : addressed { s with inputs := rest } e = true := haddr e rest hin
    rw [hstep]
    rcases handleEvent_answers he with hnext | ⟨href, hb, t, rfl⟩ | ⟨href, hp, b, rfl⟩
    · exact .inl hnext
    · exact .inr (.inl ⟨href, hb, t, rest, rfl⟩)
    · exact .inr (.inr ⟨href, hp, b, rest, rfl⟩)

/-! ## ILLEGAL_CMD (60_exceptions.md R253, 43_facade.md R220, R223) -/

/-- A write to CMD that presents an illegal word is an accept with no command and the result that check 1 gives. -/
theorem busWrite_cmd_illegal {s : State} {off : Nat} {data : Word} {strb : Strobe} {e : Illegal} (h : Ready s)
    (hoff : wordOffset off = 0x010) (hd : decode (maskLanes data strb) = .error e) :
    busWrite s off data strb =
      .next (accept { s with epoch := s.epoch + 1 } (maskLanes data strb) none (.error .illegalCmd)) := by
  have hready : Ready { s with epoch := s.epoch + 1 } := h
  rw [busWrite_place (p := .reg .cmd) h.1 (by rw [hoff]; rfl), writePlace, presentWord, hd]
  exact congrArg _ (present_ready hready _ _ _)

/-- A running command that a check stopped completes with the engine's next move, 43_facade.md R232. -/
theorem engineMove_of_stop {s : State} {c : Cause} (hr : s.rstN = true) (hb : s.phase = .busy)
    (hj : curJob s.cur s = .stop c) : engineMove s = complete s := by
  simp [engineMove, hr, hb, hj]

/-- Check 1 stops an accepted word that is no command, before any request. -/
theorem accept_illegal_completes {s : State} (h : Ready s) (w : Word) :
    ShowsError (engineMove (accept s w none (.error .illegalCmd))) .illegalCmd ∧
    (engineMove (accept s w none (.error .illegalCmd))).btLog = [] ∧
    errorWord (engineMove (accept s w none (.error .illegalCmd))) = 0x00000103#32 := by
  rw [engineMove_of_stop (s := accept s w none _) (c := .illegalCmd) h.1 rfl rfl]
  exact ⟨completeError_showsError _ _, complete_btLog _, (errorWord_complete (c := .illegalCmd) rfl).trans rfl⟩

/-- Settles O10: the write is an accept with no command, which the engine's next move completes. -/
theorem illegalWordCompletesWithCommandError : Obligations.IllegalWordCompletesWithCommandError := by
  unfold Obligations.IllegalWordCompletesWithCommandError
  intro s addr data strb rest e h hin haddr hoff hd
  have hready : Ready { s with inputs := rest, epoch := s.epoch + 1 } := h
  have hwrite := busWrite_cmd_illegal (s := { s with inputs := rest }) h hoff hd
  exact ⟨_, (step_write hin haddr).trans hwrite, rfl, rfl, rfl, accept_illegal_completes hready _⟩

end Sys2Proof.Machine
end

section
/-! PROOFS. The statements of 70_reset_and_hazards.md on reset: what MOCE does while `rst_n` is low and what its fall and rise leave (R290,
R291), and that a reset abandons the running command (R292, R293). -/

namespace Sys2Proof.Machine

open Sys2Proof.Safety

/-! ## While `rst_n` is low (70_reset_and_hazards.md R290) -/

theorem irq_of_inReset {s : State} (h : s.rstN = false) : s.irq = false := by simp [State.irq, h]

theorem engineMove_of_inReset {s : State} (h : s.rstN = false) : engineMove s = s := if_pos (.inl h)

theorem busRead_of_inReset {s : State} (h : s.rstN = false) (off : Nat) : busRead s off = 0 := if_pos h

theorem busWrite_of_inReset {s : State} (h : s.rstN = false) (off : Nat) (data : Word) (strb : Strobe) :
    busWrite s off data strb = .next s := if_pos h

/-- In reset the rise of `rst_n` gives every register its reset value. -/
theorem leaveReset_of_inReset {s : State} (h : s.rstN = false) : leaveReset s = resetRegisters s true := by
  simp [leaveReset, h]

/-- Registers at their reset values raise no interrupt, whatever the level of `rst_n`. -/
theorem irq_of_atReset {s : State} (h : AtReset s) : s.irq = false := by
  simp [State.irq, h.status]

/-- Settles O50: in reset each of the four is guarded by `rst_n`; the fall and the rise both load `resetRegisters`. -/
theorem resetGivesEveryRegisterItsValue : Obligations.ResetGivesEveryRegisterItsValue := by
  unfold Obligations.ResetGivesEveryRegisterItsValue
  refine ⟨fun s h => ?_, fun s hn => ⟨rfl, resetRegisters_atReset s false hn, rfl, fun h => ?_⟩⟩
  · exact ⟨irq_of_inReset h, engineMove_of_inReset h, busRead_of_inReset h, busWrite_of_inReset h⟩
  · have hreset := resetRegisters_atReset s true hn
    rw [leaveReset_of_inReset h]
    exact ⟨hreset, rfl, irq_of_atReset hreset, rfl⟩

/-! ## A reset while BUSY (70_reset_and_hazards.md R292, R293) -/

/-- With an event to come a step is what the event does. -/
theorem step_of_inputs {s : State} {e : Event} {rest : List Event} (h : s.inputs = e :: rest) :
    step s = handleEvent e { s with inputs := rest } := by
  rw [step, h]

/-- With no request outstanding an answer of the BT is ignored. -/
theorem handleEvent_strayBtAnswer {s : State} (h : s.btPending = none) (b : Bytes) :
    handleEvent (.strayBtAnswer b) s = .next s := by
  simp [handleEvent, h]

/-- An idle MOCE waits: no number of moves changes it. -/
theorem engineMoves_of_idle {s : State} (h : s.phase = .idle) (k : Nat) : engineMoves k s = s := by
  induction k with
  | zero => rfl
  | succ k ih => rw [engineMoves, engineMove_of_idle h, ih]

/-- A fall of `rst_n` and then its rise leave every register at its reset value, whatever MOCE was doing. -/
theorem step_reset_pulse {s : State} {rest : List Event} (h : s.inputs = .resetLow :: .resetHigh :: rest) :
    ∃ t, step s = .next t ∧ step t = .next (resetRegisters { t with inputs := rest } true) := by
  have hin : (enterReset { s with inputs := .resetHigh :: rest }).inputs = .resetHigh :: rest := rfl
  exact ⟨_, step_of_inputs h, step_of_inputs hin⟩

/-- Settles O51: after the pulse no request is outstanding, so the answer is ignored, and MOCE is IDLE, so no move of the engine changes
anything. -/
theorem resetAbandonsTheCommand : Obligations.ResetAbandonsTheCommand := by
  unfold Obligations.ResetAbandonsTheCommand
  intro s k b rest _ hin
  obtain ⟨t, hfall, hrise⟩ := step_reset_pulse hin
  have hanswer := (step_of_inputs (s := resetRegisters { t with inputs := .strayBtAnswer b :: rest } true) rfl).trans
    (handleEvent_strayBtAnswer rfl b)
  refine ⟨t, _, _, hfall, hrise, hanswer, rfl, ?_⟩
  rw [engineMoves_of_idle rfl k]
  exact ⟨rfl, rfl, rfl, rfl, rfl⟩

end Sys2Proof.Machine
end
